-- ==== Sys2Proof/Word.lean ====
section
/-! DEFINITION. Word.lean: the byte and the line level, the only bit-sized values of the block
(00_scope.md rules R6, R8). Everything else the spec computes with is a mathematical integer. -/

namespace Sys2Proof

/-- A byte: an unsigned 8-bit value, bit 0 least significant (R6). -/
abbrev Byte := BitVec 8

/-- The electrical level of a line: `true` is 1 (high), `false` is 0 (low) (R8). -/
abbrev Level := Bool

end Sys2Proof
end

