-- ==== Sys2Proof/Config.lean ====
section
/-! DEFINITION. Config.lean: the implementation parameters of 00_scope.md rule R4: the fixed ones, and the OPEN ones as an
argument of the model, with the defaults the spec says a model uses when nothing else is said; and the free values the
environment draws (60_exceptions.md rule R166, 41_reset_sequencer.md rule R90). -/

namespace Sys2Proof

/-- The environment's answer to one `PinCfg`, `Pin` or `Tx` event (R166). `fail` carries what the spec
leaves open about a failed event (R168, R169): bit k says whether part k of it reached the slave; a bit past the
list's end stands for "not reached". -/
inductive Answer where
  | ok
  | fail (reached : List Bool)
  | hang
  deriving DecidableEq, Repr, Inhabited

/-- The line identifiers CONSTRUCT is given (10_state.md rule R14): three control lines and, if the serial
link is software-managed, clock and data. Opaque: no rule depends on them (log entry 11). -/
structure PinAssignment where
  cs : Int
  dc : Int
  res : Int
  serial : Option (Int × Int)
  deriving DecidableEq, Repr, Inhabited

namespace Config

/-- Default display width (R4). -/
def defaultWidth : Int := 128
/-- Default display height (R4). -/
def defaultHeight : Int := 64
/-- Minimum hold of the reset line high before the pulse, in microseconds (R4, R90). -/
def tResPre : Nat := 1000
/-- Minimum hold of the reset line low, in microseconds (R4, R90). -/
def tResLow : Nat := 10000
/-- Pixel rows per page (R4). -/
def pageRows : Nat := 8

end Config

/-- A choice of the OPEN parameters of the controller (R4, R66): `T_RES_LOW_CTRL` in microseconds, the size of the display RAM,
and the 17 opcode bytes `OPC_*` in the order of rule R66. The default of each is the value R4 and R66 say a model uses when
nothing else is said. PRESUMED (log entry 2): the opcode bytes and the RAM size are values the spec marks as general knowledge. -/
structure ParamSet where
  tResLowCtrl : Nat := 10000
  ramCols : Nat := 128
  ramPages : Nat := 8
  opcDisplayOff : Byte := 0xAE
  opcSetContrast : Byte := 0x81
  opcSetPrecharge : Byte := 0xD9
  opcSetVcomh : Byte := 0xDB
  opcSetStartLine0 : Byte := 0x40
  opcSetDisplayOffset : Byte := 0xD3
  opcSetClockDiv : Byte := 0xD5
  opcSetComPins : Byte := 0xDA
  opcSegRemapNormal : Byte := 0xA0
  opcComScanNormal : Byte := 0xC0
  opcSetMuxRatio : Byte := 0xA8
  opcSetAddrMode : Byte := 0x20
  opcEntireDisplayResume : Byte := 0xA4
  opcInverseOff : Byte := 0xA6
  opcDisplayOn : Byte := 0xAF
  opcSetColumnAddr : Byte := 0x21
  opcSetPageAddr : Byte := 0x22
  deriving DecidableEq, Repr

/-- The opcode parameters as one list, in the order of rule R66. -/
def ParamSet.opcodes (Q : ParamSet) : List Byte :=
  [Q.opcDisplayOff, Q.opcSetContrast, Q.opcSetPrecharge, Q.opcSetVcomh, Q.opcSetStartLine0, Q.opcSetDisplayOffset,
   Q.opcSetClockDiv, Q.opcSetComPins, Q.opcSegRemapNormal, Q.opcComScanNormal] ++
  [Q.opcSetMuxRatio, Q.opcSetAddrMode, Q.opcEntireDisplayResume, Q.opcInverseOff, Q.opcDisplayOn,
   Q.opcSetColumnAddr, Q.opcSetPageAddr]

/-- What rules R4, R78 and R82 demand of the parameters: opcodes pairwise distinct, a RAM whose bounds fit a byte (at most 256
columns and 32 pages), and a minimum pulse that is positive (decision D10) and that the master's own hold meets. -/
abbrev ParamSet.Legal (Q : ParamSet) : Prop :=
  Q.opcodes.Nodup ∧ Q.ramCols ≤ 256 ∧ Q.ramPages ≤ 32 ∧ 0 < Q.tResLowCtrl ∧ Q.tResLowCtrl ≤ Config.tResLow

/-- The parameters of a model: a choice that meets what the spec demands of it (R4, R78, R82). They are an argument of the step
(R4; 10_state.md, opening): the state carries them and no step changes them (log entry 2). -/
structure Params extends ParamSet where
  legal : toParamSet.Legal
  deriving DecidableEq, Repr

/-- The check of a choice of parameters: a set that is not legal is refused (R78, R82). -/
def ParamSet.check (Q : ParamSet) : Option Params := if h : Q.Legal then some ⟨Q, h⟩ else none

namespace Config

/-- The parameters a model uses when nothing else is said (R4, R66). PRESUMED (log entry 2). -/
def defaults : Params := ⟨{}, by decide⟩

/-- The environment's answer to the event at position `k` of the trace, once the scripted answers of the
state are used up: a free value, nothing is known of it (R166; log entry 3). -/
opaque freeAnswer : Nat → Answer

/-- By how many microseconds the `Wait` at position `k` of the trace exceeds its minimum, once the scripted
waits of the state are used up: a free value (R90, D25; log entry 4). -/
opaque freeWaitExcess : Nat → Nat

/-- The pin identifiers taken when a host call names none: the spec gives them no value, so this is a free
value (R14, 90_conflicts.md C7; log entry 11). -/
opaque defaultPins : PinAssignment

end Config
end Sys2Proof
end

