-- ==== Sys2Proof/Syntax.lean ====
section
/-! DEFINITION. Syntax.lean: the controller commands by format (30_encoding.md rules R66 to R69), the
instructions (one constructor per row of spec/opcode_table.json), and the encoded form in which a line of a host
program is given (R75, R77). -/

namespace Sys2Proof

/-- The commands of format C1: no operand (R67). -/
inductive C1 where
  | displayOff | setStartLine0 | segRemapNormal | comScanNormal | entireDisplayResume | inverseOff | displayOn
  deriving DecidableEq, Repr

/-- The commands of format C2: one operand byte (R68). -/
inductive C2 where
  | setContrast | setPrecharge | setVcomh | setDisplayOffset | setClockDiv | setComPins | setMuxRatio | setAddrMode
  deriving DecidableEq, Repr

/-- The commands of format C3: two operand bytes, start then end (R69). -/
inductive C3 where
  | setColumnAddr | setPageAddr
  deriving DecidableEq, Repr

/-- The 17 controller commands, by format (R66). -/
inductive Command where
  | c1 (m : C1)
  | c2 (m : C2)
  | c3 (m : C3)
  deriving DecidableEq, Repr

/-- The instructions: one constructor per row of spec/opcode_table.json. Integers where the spec's operand is
an integer or a value still to be checked to be a byte (R113), bytes where it is a byte. -/
inductive Instr where
  | displayOff
  | setContrast (a : Byte)
  | setPrecharge (a : Byte)
  | setVcomh (a : Byte)
  | setStartLine0
  | setDisplayOffset (a : Byte)
  | setClockDiv (a : Byte)
  | setComPins (a : Byte)
  | segRemapNormal
  | comScanNormal
  | setMuxRatio (a : Byte)
  | setAddrMode (a : Byte)
  | entireDisplayResume
  | inverseOff
  | displayOn
  | setColumnAddr (a b : Byte)
  | setPageAddr (a b : Byte)
  | data (b : Byte)
  | construct (w h : Int) (pins : PinAssignment)
  | reset
  | init
  | wcmd (b : Int) (a : Option Int)
  | wbuf (bs : List Int)
  | render
  | clear
  | fill (c : Int)
  | pset (x y c : Int)
  | pget (x y : Int)
  | fbwrite (i : Int) (v : Byte)
  | rawbytes
  deriving DecidableEq, Repr

/-- One encoded line of a host program. `call` is a host operation: its 4-bit op-select code and its
arguments (R77). `command` is a controller command as its command-mode bytes, `C:b0 C:b1 ...` in the shorthand of
R9. `data` is one data-mode byte, `D:[b]`: it has no opcode, the D/C line selects it (R70). -/
inductive Packet where
  | call (sel : BitVec 4) (args : List Int)
  | command (bytes : List Byte)
  | data (b : Byte)
  deriving DecidableEq, Repr

end Sys2Proof
end

