-- ==== Sys2Proof/WellFormed.lean ====
section
/-! DEFINITION. WellFormed.lean: the operand domains an instruction can be checked against by itself: bytes
and a non-empty burst (43_framer.md rule R113), colours (45_frame_store.md rules R150, R151), window bounds
(44_controller_commands.md rules R135, R136). Domains that depend on the state (pixel and index ranges, the
geometry) are checked by the meanings. -/

namespace Sys2Proof

/-- `v` is a byte: an integer in [0,255] (R113). -/
def isByte (v : Int) : Bool := decide (0 ≤ v ∧ v ≤ 255)

/-- `c` is a pixel colour: 0 or 1 (R150). -/
def isColour (c : Int) : Bool := decide (c = 0 ∨ c = 1)

/-- Window bounds are legal in a RAM of `size` columns or pages: start ≤ end < size (R135, R136). -/
def windowOk (size : Nat) (a b : Byte) : Bool := decide (a.toNat ≤ b.toNat ∧ b.toNat < size)

/-- The static operand check of one instruction, for a controller with the given parameters. -/
def Instr.wellFormed (P : Params) : Instr → Bool
  | .setColumnAddr a b => windowOk P.ramCols a b
  | .setPageAddr a b => windowOk P.ramPages a b
  | .wcmd b none => isByte b
  | .wcmd b (some a) => isByte b && isByte a
  | .wbuf bs => !bs.isEmpty && bs.all isByte
  | .fill c => isColour c
  | .pset _ _ c => isColour c
  | .displayOff | .setContrast _ | .setPrecharge _ | .setVcomh _ | .setStartLine0 | .setDisplayOffset _
  | .setClockDiv _ | .setComPins _ | .segRemapNormal | .comScanNormal | .setMuxRatio _ | .setAddrMode _
  | .entireDisplayResume | .inverseOff | .displayOn | .data _ | .construct _ _ _ | .reset | .init
  | .render | .clear | .pget _ _ | .fbwrite _ _ | .rawbytes => true

end Sys2Proof
end

