-- ==== Sys2Proof/Decode.lean ====
section
/-! DEFINITION. Decode.lean: the opcode map (30_encoding.md rules R66, R73, R78), the decoder of the encoded
lines of a host program, total, rejecting by name (R74), the encoder from the same tables (R66 to R70, R77), and the
reading of a word of spec/opcode_table.json (log entry 10). -/

namespace Sys2Proof

/-- The opcode byte of a command (R66). -/
def Command.opcode (P : Params) : Command → Byte
  | .c1 .displayOff => P.opcDisplayOff
  | .c2 .setContrast => P.opcSetContrast
  | .c2 .setPrecharge => P.opcSetPrecharge
  | .c2 .setVcomh => P.opcSetVcomh
  | .c1 .setStartLine0 => P.opcSetStartLine0
  | .c2 .setDisplayOffset => P.opcSetDisplayOffset
  | .c2 .setClockDiv => P.opcSetClockDiv
  | .c2 .setComPins => P.opcSetComPins
  | .c1 .segRemapNormal => P.opcSegRemapNormal
  | .c1 .comScanNormal => P.opcComScanNormal
  | .c2 .setMuxRatio => P.opcSetMuxRatio
  | .c2 .setAddrMode => P.opcSetAddrMode
  | .c1 .entireDisplayResume => P.opcEntireDisplayResume
  | .c1 .inverseOff => P.opcInverseOff
  | .c1 .displayOn => P.opcDisplayOn
  | .c3 .setColumnAddr => P.opcSetColumnAddr
  | .c3 .setPageAddr => P.opcSetPageAddr

/-- The number of operand bytes that follow the opcode (R73). -/
def Command.operands : Command → Nat
  | .c1 _ => 0
  | .c2 _ => 1
  | .c3 _ => 2

/-- The 17 commands in the order of rule R66. -/
def Command.all : List Command :=
  [.c1 .displayOff, .c2 .setContrast, .c2 .setPrecharge, .c2 .setVcomh, .c1 .setStartLine0,
   .c2 .setDisplayOffset, .c2 .setClockDiv, .c2 .setComPins, .c1 .segRemapNormal, .c1 .comScanNormal] ++
  [.c2 .setMuxRatio, .c2 .setAddrMode, .c1 .entireDisplayResume, .c1 .inverseOff, .c1 .displayOn,
   .c3 .setColumnAddr, .c3 .setPageAddr]

/-- The command an opcode byte selects, by equality on all eight bits (R78). -/
def commandOfOpcode (P : Params) (b : Byte) : Option Command :=
  Command.all.find? (fun m => m.opcode P == b)

/-- Why an encoded line is no instruction (R74). -/
inductive DecodeError where
  /-- a command-mode byte that is none of the 17 opcodes -/
  | unknownCommand (b : Byte)
  /-- an op-select code not assigned by rule R77 -/
  | unknownHostOp (sel : BitVec 4)
  /-- a value that is not a byte where the operand is one -/
  | notAByte (v : Int)
  /-- too few or too many operands: a line that cannot be written -/
  | malformed
  deriving DecidableEq, Repr

/-- The instruction of a C1 command. -/
def C1.toInstr : C1 → Instr
  | .displayOff => .displayOff
  | .setStartLine0 => .setStartLine0
  | .segRemapNormal => .segRemapNormal
  | .comScanNormal => .comScanNormal
  | .entireDisplayResume => .entireDisplayResume
  | .inverseOff => .inverseOff
  | .displayOn => .displayOn

/-- The instruction of a C2 command with its operand. -/
def C2.toInstr (m : C2) (a : Byte) : Instr :=
  match m with
  | .setContrast => .setContrast a
  | .setPrecharge => .setPrecharge a
  | .setVcomh => .setVcomh a
  | .setDisplayOffset => .setDisplayOffset a
  | .setClockDiv => .setClockDiv a
  | .setComPins => .setComPins a
  | .setMuxRatio => .setMuxRatio a
  | .setAddrMode => .setAddrMode a

/-- The instruction of a C3 command with its operands. -/
def C3.toInstr (m : C3) (a b : Byte) : Instr :=
  match m with
  | .setColumnAddr => .setColumnAddr a b
  | .setPageAddr => .setPageAddr a b

/-- Reads one controller command from the front of a list of command-mode bytes: the opcode tells the length
(R73). Answers the instruction and the bytes that are left. DESIGN CHOICE (log entry 26): a line whose first byte is no opcode is no
instruction, whatever the slave's decoder state; WCMD sends such a byte. -/
def decodeCommand (P : Params) : List Byte → Except DecodeError (Instr × List Byte)
  | [] => .error .malformed
  | b :: rest =>
    match commandOfOpcode P b with
    | none => .error (.unknownCommand b)
    | some (.c1 m) => .ok (m.toInstr, rest)
    | some (.c2 m) =>
      match rest with
      | a :: rest' => .ok (m.toInstr a, rest')
      | [] => .error .malformed
    | some (.c3 m) =>
      match rest with
      | a :: b' :: rest' => .ok (m.toInstr a b', rest')
      | _ => .error .malformed

/-- The value `v` as a byte, if it is one (R113). -/
def asByte (v : Int) : Option Byte :=
  if isByte v then some (BitVec.ofInt 8 v) else none

/-- Reads a host call: its op-select code and arguments (R77). CONSTRUCT takes its defaults for arguments left
out (R80). -/
def decodeCall (sel : BitVec 4) (args : List Int) : Except DecodeError Instr :=
  match sel.toNat, args with
  | 0x0, [] => .ok (.construct Config.defaultWidth Config.defaultHeight Config.defaultPins)
  | 0x0, [w] => .ok (.construct w Config.defaultHeight Config.defaultPins)
  | 0x0, [w, h] => .ok (.construct w h Config.defaultPins)
  | 0x0, [w, h, c, d, r] => .ok (.construct w h ⟨c, d, r, none⟩)
  | 0x0, [w, h, c, d, r, k, m] => .ok (.construct w h ⟨c, d, r, some (k, m)⟩)
  | 0x1, [] => .ok .reset
  | 0x2, [] => .ok .init
  | 0x3, [b] => .ok (.wcmd b none)
  | 0x3, [b, a] => .ok (.wcmd b (some a))
  | 0x4, bs => .ok (.wbuf bs)
  | 0x5, [] => .ok .render
  | 0x6, [] => .ok .clear
  | 0x8, [c] => .ok (.fill c)
  | 0x9, [x, y, c] => .ok (.pset x y c)
  | 0xA, [x, y] => .ok (.pget x y)
  | 0xB, [i, v] =>
    match asByte v with
    | some b => .ok (.fbwrite i b)
    | none => .error (.notAByte v)
  | 0xC, [] => .ok .rawbytes
  | 0x7, _ | 0xD, _ | 0xE, _ | 0xF, _ => .error (.unknownHostOp sel)
  | _, _ => .error .malformed

/-- The decoder: the instruction an encoded line stands for, or why it is none. -/
def decode (P : Params) : Packet → Except DecodeError Instr
  | .call sel args => decodeCall sel args
  | .command bs =>
    match decodeCommand P bs with
    | .ok (i, []) => .ok i
    | .ok (_, _ :: _) => .error .malformed
    | .error e => .error e
  | .data b => .ok (.data b)

/-- The arguments that name the pins (R14). -/
def PinAssignment.args (p : PinAssignment) : List Int :=
  match p.serial with
  | none => [p.cs, p.dc, p.res]
  | some (k, m) => [p.cs, p.dc, p.res, k, m]

/-- The encoder: the encoded line of an instruction, from the tables of rules R66 to R70 and R77. -/
def encode (P : Params) : Instr → Packet
  | .displayOff => .command [P.opcDisplayOff]
  | .setContrast a => .command [P.opcSetContrast, a]
  | .setPrecharge a => .command [P.opcSetPrecharge, a]
  | .setVcomh a => .command [P.opcSetVcomh, a]
  | .setStartLine0 => .command [P.opcSetStartLine0]
  | .setDisplayOffset a => .command [P.opcSetDisplayOffset, a]
  | .setClockDiv a => .command [P.opcSetClockDiv, a]
  | .setComPins a => .command [P.opcSetComPins, a]
  | .segRemapNormal => .command [P.opcSegRemapNormal]
  | .comScanNormal => .command [P.opcComScanNormal]
  | .setMuxRatio a => .command [P.opcSetMuxRatio, a]
  | .setAddrMode a => .command [P.opcSetAddrMode, a]
  | .entireDisplayResume => .command [P.opcEntireDisplayResume]
  | .inverseOff => .command [P.opcInverseOff]
  | .displayOn => .command [P.opcDisplayOn]
  | .setColumnAddr a b => .command [P.opcSetColumnAddr, a, b]
  | .setPageAddr a b => .command [P.opcSetPageAddr, a, b]
  | .data b => .data b
  | .construct w h pins => .call 0x0 (w :: h :: pins.args)
  | .reset => .call 0x1 []
  | .init => .call 0x2 []
  | .wcmd b none => .call 0x3 [b]
  | .wcmd b (some a) => .call 0x3 [b, a]
  | .wbuf bs => .call 0x4 bs
  | .render => .call 0x5 []
  | .clear => .call 0x6 []
  | .fill c => .call 0x8 [c]
  | .pset x y c => .call 0x9 [x, y, c]
  | .pget x y => .call 0xA [x, y]
  | .fbwrite i v => .call 0xB [i, (v.toNat : Int)]
  | .rawbytes => .call 0xC []

/-- The arguments of a host call when every operand is zero, a burst being one zero byte (log entry 10). -/
def zeroArgs (sel : BitVec 4) : List Int :=
  match sel.toNat with
  | 0x0 => [0, 0, 0, 0, 0]
  | 0x3 => [0]
  | 0x4 => [0]
  | 0x8 => [0]
  | 0x9 => [0, 0, 0]
  | 0xA => [0, 0]
  | 0xB => [0, 0]
  | _ => []

/-- Byte `k` of a table word, byte 0 the least significant (the table's numbering). -/
def tableByte (w k : Nat) : Byte := BitVec.ofNat 8 (w / 256 ^ k)

/-- A word of spec/opcode_table.json as an encoded line. The table numbers three spaces with the same bits: a
first byte below 16 is an op-select code, one of the 17 opcodes is a command with the operand bytes that follow it,
and any other byte matches the row DATA, whose mask is 0 (log entry 10). -/
def tableWord (P : Params) (nbits w : Nat) : Packet :=
  let w := w % 2 ^ nbits
  let b := tableByte w 0
  if b.toNat < 16 then
    .call (BitVec.ofNat 4 b.toNat) (zeroArgs (BitVec.ofNat 4 b.toNat))
  else
    match commandOfOpcode P b with
    | some (.c1 _) => .command [b]
    | some (.c2 _) => .command [b, tableByte w 1]
    | some (.c3 _) => .command [b, tableByte w 1, tableByte w 2]
    | none => .data b

/-- The instruction the decoder of a controller with the given parameters reads from a table word. -/
def decodeTableWordFor (P : Params) (nbits w : Nat) : Option Instr :=
  match decode P (tableWord P nbits w) with
  | .ok i => some i
  | .error _ => none

/-- The instruction the decoder reads from a word of spec/opcode_table.json, whose opcode bytes are the default parameters. -/
def decodeTableWord (nbits w : Nat) : Option Instr := decodeTableWordFor Config.defaults nbits w

end Sys2Proof
end

