-- ==== Sys2Proof/Machine/Memory.lean ====
section
/-! DEFINITION. Machine/Memory.lean: a memory as address and byte pairs (20_memory.md rules R45, R52: every cell of
both spaces is one byte). One canonical form: addresses strictly rising. An unlisted address holds `_|_`, no value
(R38, R43), so no entry can equal what an unlisted address reads as. -/

namespace Sys2Proof.Machine

/-- A memory: the cells that hold a value, by rising address. -/
abbrev Memory := List Host.Cell

/-- The canonical form: addresses strictly rising. -/
abbrev Memory.wf (m : Memory) : Prop := m.Pairwise (fun c d => c.1 < d.1)

/-- The byte at address `a`, or no value. -/
def Memory.read : Memory → Nat → Option Byte
  | [], _ => none
  | (k, v) :: m, a => if k = a then some v else Memory.read m a

/-- Writes the byte `v` at address `a`. -/
def Memory.write : Memory → Nat → Byte → Memory
  | [], a, v => [(a, v)]
  | (k, w) :: m, a, v =>
    if a < k then (a, v) :: (k, w) :: m
    else if a = k then (a, v) :: m
    else (k, w) :: Memory.write m a v

/-- The `n` bytes from address `a` up, if every one of them holds a value. -/
def Memory.readRange (m : Memory) (a : Nat) : Nat → Option (List Byte)
  | 0 => some []
  | n + 1 =>
    match m.read a, Memory.readRange m (a + 1) n with
    | some b, some bs => some (b :: bs)
    | _, _ => none

/-- The memory whose addresses 0 to n-1 all hold `v`: a buffer filled with one value (R80, R84, R150). -/
def Memory.filled (n : Nat) (v : Byte) : Memory := (List.range n).map (fun i => (i, v))

end Sys2Proof.Machine
end

