-- ==== Sys2Proof/Machine/State.lean ====
section
/-! DEFINITION. Machine/State.lean: the state of the block (10_state.md): the MASTER, the WIRE's trace, the SLAVE,
the bookkeeping the spec asks of a model (60_exceptions.md rule R180, 10_state.md rule R16), and the model's own
inputs (log entries 3, 4, 10). `Option` is the spec's `_|_`, "no value" (R7, R39; log entry 1): a value of the state
the spec itself names, at power-on, after a reset pulse and after a failed event. -/

namespace Sys2Proof.Machine

/-- The two lifecycle states of the master (R10). -/
inductive Life where
  | uninit | init
  deriving DecidableEq, Repr

/-- The three control lines (R8, R13). -/
inductive Pin where
  | cs | dc | res
  deriving DecidableEq, Repr

/-- The output latches of the three control lines; `none` is `_|_` (R13). -/
structure Pins where
  cs : Option Level
  dc : Option Level
  res : Option Level
  deriving DecidableEq, Repr

/-- The wire alphabet (R8). -/
inductive Event where
  | pinCfg (p : Pin) (v : Level)
  | pin (p : Pin) (v : Level)
  | wait (us : Nat)
  | tx (bytes : List Byte)
  deriving DecidableEq, Repr

/-- The outcome the trace records with an event (R18, R166). -/
inductive EventOutcome where
  | ok | fail | hang
  deriving DecidableEq, Repr

/-- One entry of the trace `T` (R18). -/
structure TraceEntry where
  event : Event
  outcome : EventOutcome
  deriving DecidableEq, Repr

/-- The causes of a configuration error (R161). -/
inductive ConfigCause where
  | widthNonpositive | heightNonpositive | heightNotMultipleOf8
  deriving DecidableEq, Repr

/-- The exceptions of the master, with what they record (R160 to R162): the cause and the offending argument, or the
position in the trace of the failed event and the event. -/
inductive Exception where
  | configError (cause : ConfigCause) (arg : Int)
  | transmissionError (pos : Nat) (e : Event)
  deriving DecidableEq, Repr

/-- What an operation returns: nothing, a pixel (R152) or the raw bytes (R154). -/
inductive Result where
  | unit
  | bit (b : Bool)
  | bytes (bs : List Byte)
  deriving DecidableEq, Repr

/-- How an operation ended, as the host sees it (R16). -/
inductive OpOutcome where
  | returned (r : Result)
  | raised (x : Exception)
  | hangs
  deriving DecidableEq, Repr

/-- The master (R10 to R13, R15). -/
structure Master where
  life : Life
  width : Option Nat
  height : Option Nat
  fb : Memory
  pins : Pins
  deriving DecidableEq, Repr

/-- The phase of the slave (R20). -/
inductive Phase where
  | unknown | inReset | ready
  deriving DecidableEq, Repr

/-- The decoder state `S.dec` (R21). The three pending forms are all the triples Pending(op, need, got) that rule R21
allows: (op, 1, []) for a C2 command, (op, 2, []) and (op, 1, [a]) for a C3 command. -/
inductive Dec where
  | idle
  | pendingOne (op : C2)
  | pendingTwo (op : C3)
  | pendingEnd (op : C3) (a : Byte)
  deriving DecidableEq, Repr

/-- S.seg_remap (R30): the one setting the source names. -/
inductive SegRemap where
  | normal
  deriving DecidableEq, Repr

/-- S.com_scan (R31). -/
inductive ComScan where
  | normal
  deriving DecidableEq, Repr

/-- S.entire_on (R34). -/
inductive EntireOn where
  | resume
  deriving DecidableEq, Repr

/-- S.inverse (R35). -/
inductive Inverse where
  | off
  deriving DecidableEq, Repr

/-- The slave (R20 to R38). `none` is `_|_`. -/
structure Slave where
  /-- the parameters of the controller (R4): no state of it, no step changes them; the master uses the same ones -/
  params : Params
  phase : Phase
  resLowUs : Option Nat
  dec : Option Dec
  dispOn : Option Bool
  contrast : Option Byte
  precharge : Option Byte
  vcomh : Option Byte
  startLine : Option Nat
  offset : Option Byte
  clkdiv : Option Byte
  compins : Option Byte
  segRemap : Option SegRemap
  comScan : Option ComScan
  mux : Option Byte
  addrMode : Option Byte
  entireOn : Option EntireOn
  inverse : Option Inverse
  colStart : Option Nat
  colEnd : Option Nat
  colPtr : Option Nat
  pageStart : Option Nat
  pageEnd : Option Nat
  pagePtr : Option Nat
  /-- S.RAM, the cell of page p and column c at address p * RAM_COLS + c (R45, R48; log entry 19) -/
  ram : Memory
  deriving DecidableEq, Repr

/-- The fields whose reading while they hold `_|_` is a fault (R39). -/
inductive Field where
  | dec | resLowUs
  | dispOn | contrast | precharge | vcomh | startLine | offset | clkdiv | compins | segRemap | comScan | mux | addrMode
  | entireOn | inverse
  | colStart | colEnd | colPtr | pageStart | pageEnd | pagePtr
  | ram
  | width | height | frameBuffer
  deriving DecidableEq, Repr

/-- The faults: the model claims nothing after one. -/
inductive Fault where
  /-- A field that holds `_|_` was read (R7, R39). Raised by DATA and by every operation that transmits data bytes, through
  `Slave.dataByte` (R137), by the panel observation (R63), and, in states no run reaches, by the decoder, the reset line and
  the frame-buffer reads. Safe: the spec's own fault. -/
  | unwrittenState (f : Field)
  /-- A data byte would land outside the display RAM (R45), which the window commands exclude. Raised by `Slave.dataByte`
  in states no run reaches (log entry 19). Safe. -/
  | noSuchRamCell (page col : Nat)
  deriving DecidableEq, Repr

/-- The refusals: the stimuli to which the spec gives no meaning, the closed list of rule R172. Every one is safe:
nothing is claimed of a run that contains it. -/
inductive Refusal where
  /-- an instruction without a meaning yet; raised by exec only -/
  | notModelled (mnemonic : String)
  /-- CONSTRUCT on a constructed block (R85) -/
  | alreadyConstructed
  /-- RENDER, CLEAR or the frame-store port on a block not constructed, INIT without a geometry (R85) -/
  | notConstructed
  /-- RESET, INIT, WCMD, WBUF before the pins are configured (R85) -/
  | pinsNotConfigured
  /-- CONSTRUCT with a geometry larger than the RAM (R82) -/
  | geometryExceedsRam
  /-- WCMD, WBUF or FBWRITE with a value that is no byte (R113) -/
  | notAByte
  /-- WBUF of an empty list (R113) -/
  | emptyBurst
  /-- FILL or PSET with a colour other than 0 and 1 (R150, R151) -/
  | badColour
  /-- PSET or PGET outside the geometry (R151, R152) -/
  | pixelOutOfRange
  /-- FBWRITE outside the buffer (R153) -/
  | indexOutOfRange
  /-- a frame-buffer write while a master operation has not returned (R62) -/
  | fbWriteDuringOperation
  /-- an op-select code rule R77 does not assign (R74) -/
  | unknownHostOp
  /-- a transmission before a valid reset or while the reset line is not high (R118) -/
  | slaveNotReady
  /-- a transmission while chip-select is not low (R118) -/
  | txWhileDeselected
  /-- a transmission while data/command-select has no level (R118) -/
  | dcUnconfigured
  /-- a command-mode byte that is none of the 17 opcodes (R119) -/
  | unknownCommand (b : Byte)
  /-- a data byte while an operand is pending (R137) -/
  | dataWhilePending
  /-- a data byte while the addressing mode is not 0x00 (R49, R137) -/
  | addrModeNotModelled
  /-- SET_COLUMN_ADDR with illegal bounds (R135) -/
  | badColumnWindow (a b : Byte)
  /-- SET_PAGE_ADDR with illegal bounds (R136) -/
  | badPageWindow (a b : Byte)
  /-- a reset pulse shorter than the slave's minimum (R115) -/
  | resetPulseTooShort
  /-- a host call that cannot be written: wrong number of operands; raised by fetch (log entry 16) -/
  | malformedRequest
  deriving DecidableEq, Repr

/-- Why the model claims nothing any more: a fault or a refusal. -/
inductive Stop where
  | fault (f : Fault)
  | refuse (r : Refusal)
  deriving DecidableEq, Repr

/-- An entry of the fault log: an exception, a fault or a refusal (R180). -/
inductive Logged where
  | exception (x : Exception)
  | fault (f : Fault)
  | refusal (r : Refusal)
  deriving DecidableEq, Repr

/-- The state of the block, the bookkeeping and the model's own inputs. -/
structure State where
  master : Master
  /-- `T`, oldest first (R18) -/
  trace : List TraceEntry
  slave : Slave
  /-- the fault log, never cleared (R180); a fault of a panel observation is added by `State.observePanel`, a
  fault or a refusal that ends the run by `State.logAfter` (log entry 20) -/
  log : List Logged
  /-- what the host saw of the last operation (R16; log entry 20) -/
  outcome : Option OpOutcome
  /-- the master is stuck inside an operation that never returns (R163; log entry 8) -/
  hung : Bool
  /-- the model's own: the host's calls still to come (log entry 10) -/
  requests : List Packet
  /-- the model's own: the environment's answers to the events to come (R166; log entry 3) -/
  answers : List Answer
  /-- the model's own: by how much the waits to come exceed their minimum (R90; log entry 4) -/
  waits : List Nat
  deriving DecidableEq, Repr

/-- The parameters the block is given (R4). -/
abbrev State.params (s : State) : Params := s.slave.params

/-- The slave at power-on: phase Unknown, every other field `_|_` (R42). -/
def Slave.powerOn (P : Params) : Slave :=
  { params := P, phase := .unknown, resLowUs := none, dec := none, dispOn := none, contrast := none, precharge := none,
    vcomh := none, startLine := none, offset := none, clkdiv := none, compins := none, segRemap := none,
    comScan := none, mux := none, addrMode := none, entireOn := none, inverse := none,
    colStart := none, colEnd := none, colPtr := none, pageStart := none, pageEnd := none, pagePtr := none,
    ram := [] }

/-- The master at power-on (R42). -/
def Master.powerOn : Master :=
  { life := .uninit, width := none, height := none, fb := [], pins := ⟨none, none, none⟩ }

/-- A block with the given parameters at power-on (R42), with nothing logged and no input yet (DESIGN CHOICE for the inputs, log
entries 3, 4, 10). -/
def State.resetWith (P : Params) : State :=
  { master := Master.powerOn, trace := [], slave := Slave.powerOn P, log := [], outcome := none, hung := false,
    requests := [], answers := [], waits := [] }

/-- The block at power-on, with the default parameters (R4, R42). -/
def State.reset : State := State.resetWith Config.defaults

end Sys2Proof.Machine
end

