-- ==== Sys2Proof/Machine/Operands.lean ====
section
/-! DEFINITION. Machine/Operands.lean: the operand values of the block: geometry checks and sizes (R5, R81, R82),
computed command operands (R71, R72), the two frame formats (R65), the byte stream of INIT (R96), the address computations of
both memories (R46 to R48) and the codes of the exceptions (R164). -/

namespace Sys2Proof.Machine

/-- The number of frame-buffer bytes of a geometry, `N = W*H/8` (R5). -/
def bufferSize (w h : Nat) : Nat := w * h / 8

/-- The geometry checks of CONSTRUCT in order: the first that fails, with the offending argument (R81, R161). -/
def geometryError (w h : Int) : Option (ConfigCause × Int) :=
  if w ≤ 0 then some (.widthNonpositive, w)
  else if h ≤ 0 then some (.heightNonpositive, h)
  else if h % 8 ≠ 0 then some (.heightNotMultipleOf8, h)
  else none

/-- The geometry is larger than the slave's RAM (R82). -/
def exceedsRam (P : Params) (w h : Int) : Bool := decide ((P.ramCols : Int) < w ∨ 8 * (P.ramPages : Int) < h)

/-- A geometry that passes the checks of CONSTRUCT (R11, R81, R82): the only ones the block can have. -/
abbrev GeometryOk (P : Params) (w h : Nat) : Prop :=
  0 < w ∧ w ≤ P.ramCols ∧ 0 < h ∧ h ≤ 8 * P.ramPages ∧ h % 8 = 0

/-- The numeric code of an exception (R164). -/
def Exception.code : Exception → Nat
  | .configError .widthNonpositive _ => 1
  | .configError .heightNonpositive _ => 2
  | .configError .heightNotMultipleOf8 _ => 3
  | .transmissionError _ _ => 4

/-- The COM-pins operand (R72). -/
def compins (w h : Nat) : Byte := if w ≠ 64 ∧ (h = 16 ∨ h = 32) then 0x02 else 0x12

/-- A computed operand as the byte that is sent (R71); rule R82 keeps it in [0,255]. -/
def operandByte (n : Nat) : Byte := BitVec.ofNat 8 n

/-- The 23 bytes INIT transmits, in order (R96). -/
def initBytes (P : Params) (w h : Nat) : List Byte :=
  [P.opcDisplayOff, P.opcSetContrast, 0xFF, P.opcSetPrecharge, 0xF1, P.opcSetVcomh, 0x40,
   P.opcSetStartLine0, P.opcSetDisplayOffset, 0x00, P.opcSetClockDiv, 0x80] ++
  [P.opcSetComPins, compins w h, P.opcSegRemapNormal, P.opcComScanNormal, P.opcSetMuxRatio,
   operandByte (h - 1), P.opcSetAddrMode, 0x00, P.opcEntireDisplayResume, P.opcInverseOff,
   P.opcDisplayOn]

/-- The six command bytes of RENDER: column window [0, W-1], page window [0, H/8-1] (R83). -/
def renderBytes (P : Params) (w h : Nat) : List Byte :=
  [P.opcSetColumnAddr, 0x00, operandByte (w - 1), P.opcSetPageAddr, 0x00, operandByte (h / 8 - 1)]

/-- The command frame FC around one byte (R65, R106). -/
def commandFrame (b : Byte) : List Event := [.pin .dc false, .pin .cs false, .tx [b], .pin .cs true]

/-- The data frame FD around one burst (R65, R109). -/
def dataFrame (bs : List Byte) : List Event :=
  [.pin .cs true, .pin .dc true, .pin .cs false, .tx bs, .pin .cs true]

/-- The frame-buffer index of the byte that holds pixel (x, y) (R46, R47). -/
def pixelIndex (w x y : Nat) : Nat := x + w * (y / 8)

/-- The bit of that byte that is pixel (x, y) (R47). -/
def pixelBit (y : Nat) : Nat := y % 8

/-- The byte `b` with bit `k` set to `v`, the other seven kept (R151). -/
def setBit (b : Byte) (k : Nat) (v : Bool) : Byte :=
  if v then b ||| (1#8 <<< k) else b &&& ~~~ (1#8 <<< k)

/-- The address of the RAM cell of a page and a column (R45; log entry 19). -/
def ramAddr (P : Params) (page col : Nat) : Nat := page * P.ramCols + col

/-- The level of a line (R13). -/
def Pins.get (ps : Pins) : Pin → Option Level
  | .cs => ps.cs
  | .dc => ps.dc
  | .res => ps.res

/-- A line at a new level, or at `_|_` (R13, R168). -/
def Pins.set (ps : Pins) (p : Pin) (v : Option Level) : Pins :=
  match p with
  | .cs => { ps with cs := v }
  | .dc => { ps with dc := v }
  | .res => { ps with res := v }

/-- The list of integers as bytes, if every one is a byte (R113). -/
def asBytes : List Int → Option (List Byte)
  | [] => some []
  | v :: vs =>
    match asByte v, asBytes vs with
    | some b, some bs => some (b :: bs)
    | _, _ => none

end Sys2Proof.Machine
end

