-- ==== Sys2Proof/Machine/Flags.lean ====
section
/-! DEFINITION. Machine/Flags.lean: the block has no flags and no condition codes (10_state.md rule R40). What an
operation tests in their place are the modes: the lifecycle and the configured pins (40_host_operations.md rule R85),
the slave's readiness to receive (44_controller_commands.md rule R118). -/

namespace Sys2Proof.Machine

/-- The entry of the trace is a completed configuration of the pin `p` (R8, R13). -/
def TraceEntry.configures (p : Pin) (x : TraceEntry) : Bool :=
  decide (x = ⟨.pinCfg p true, .ok⟩ ∨ x = ⟨.pinCfg p false, .ok⟩)

/-- The pin has been configured: a `PinCfg` of it completed since power-on, which the trace says and the master holds nowhere else
(R8, R15, R18). Losing its level in a failed event does not undo this (R168; log entry 14). -/
def State.pinConfigured (s : State) (p : Pin) : Bool := s.trace.any (TraceEntry.configures p)

/-- RESET, INIT, WCMD, WBUF and the controller commands are admitted when the host calls them directly: on a constructed block, or
once the three pins are configured (R85, D27). -/
def State.internalAdmitted (s : State) : Bool :=
  decide (s.master.life = .init) || (s.pinConfigured .cs && s.pinConfigured .dc && s.pinConfigured .res)

/-- Why the slave cannot take a transmission, if it cannot (R118). -/
def Slave.receiveRefusal (S : Slave) (ps : Pins) : Option Refusal :=
  if S.phase ≠ .ready then some .slaveNotReady
  else if ps.res ≠ some true then some .slaveNotReady
  else if ps.cs ≠ some false then some .txWhileDeselected
  else none

end Sys2Proof.Machine
end

