-- ==== Sys2Proof/Machine/SlaveCommands.lean ====
section
/-! DEFINITION. Machine/SlaveCommands.lean: what each of the 17 commands does in the slave when its last byte arrives
(44_controller_commands.md rules R120 to R136). A command changes exactly the fields its rule names (R138). -/

namespace Sys2Proof.Machine

/-- R120. -/
def Slave.displayOff (S : Slave) : Slave := { S with dispOn := some false }
/-- R121. -/
def Slave.setContrast (a : Byte) (S : Slave) : Slave := { S with contrast := some a }
/-- R122. -/
def Slave.setPrecharge (a : Byte) (S : Slave) : Slave := { S with precharge := some a }
/-- R123. -/
def Slave.setVcomh (a : Byte) (S : Slave) : Slave := { S with vcomh := some a }
/-- R124. -/
def Slave.setStartLine0 (S : Slave) : Slave := { S with startLine := some 0 }
/-- R125. -/
def Slave.setDisplayOffset (a : Byte) (S : Slave) : Slave := { S with offset := some a }
/-- R126. -/
def Slave.setClockDiv (a : Byte) (S : Slave) : Slave := { S with clkdiv := some a }
/-- R127. -/
def Slave.setComPins (a : Byte) (S : Slave) : Slave := { S with compins := some a }
/-- R128. -/
def Slave.segRemapNormal (S : Slave) : Slave := { S with segRemap := some .normal }
/-- R129. -/
def Slave.comScanNormal (S : Slave) : Slave := { S with comScan := some .normal }
/-- R130. -/
def Slave.setMuxRatio (a : Byte) (S : Slave) : Slave := { S with mux := some a }
/-- R131: the register takes any operand; a later data byte needs it to be 0x00. -/
def Slave.setAddrMode (a : Byte) (S : Slave) : Slave := { S with addrMode := some a }
/-- R132. -/
def Slave.entireDisplayResume (S : Slave) : Slave := { S with entireOn := some .resume }
/-- R133. -/
def Slave.inverseOff (S : Slave) : Slave := { S with inverse := some .off }
/-- R134. -/
def Slave.displayOn (S : Slave) : Slave := { S with dispOn := some true }

/-- R135: the column window, and the pointer at its start. -/
def Slave.setColumnAddr (a b : Byte) (S : Slave) : Except Stop Slave :=
  if windowOk S.params.ramCols a b then
    .ok { S with colStart := some a.toNat, colEnd := some b.toNat, colPtr := some a.toNat }
  else .error (.refuse (.badColumnWindow a b))

/-- R136: the page window, and the pointer at its start. -/
def Slave.setPageAddr (a b : Byte) (S : Slave) : Except Stop Slave :=
  if windowOk S.params.ramPages a b then
    .ok { S with pageStart := some a.toNat, pageEnd := some b.toNat, pagePtr := some a.toNat }
  else .error (.refuse (.badPageWindow a b))

/-- `Execute(m, [])` for a C1 command (R119). -/
def Slave.executeC1 (m : C1) (S : Slave) : Slave :=
  match m with
  | .displayOff => S.displayOff
  | .setStartLine0 => S.setStartLine0
  | .segRemapNormal => S.segRemapNormal
  | .comScanNormal => S.comScanNormal
  | .entireDisplayResume => S.entireDisplayResume
  | .inverseOff => S.inverseOff
  | .displayOn => S.displayOn

/-- `Execute(m, [a])` for a C2 command (R119). -/
def Slave.executeC2 (m : C2) (a : Byte) (S : Slave) : Slave :=
  match m with
  | .setContrast => S.setContrast a
  | .setPrecharge => S.setPrecharge a
  | .setVcomh => S.setVcomh a
  | .setDisplayOffset => S.setDisplayOffset a
  | .setClockDiv => S.setClockDiv a
  | .setComPins => S.setComPins a
  | .setMuxRatio => S.setMuxRatio a
  | .setAddrMode => S.setAddrMode a

/-- `Execute(m, [a, b])` for a C3 command (R119). -/
def Slave.executeC3 (m : C3) (a b : Byte) (S : Slave) : Except Stop Slave :=
  match m with
  | .setColumnAddr => S.setColumnAddr a b
  | .setPageAddr => S.setPageAddr a b

end Sys2Proof.Machine
end

