-- ==== Sys2Proof/Machine/SlaveEvents.lean ====
section
/-! DEFINITION. Machine/SlaveEvents.lean: the slave's step on each wire event: reset line and waits
(44_controller_commands.md rules R115 to R117), transmissions (R118), the command decoder (R119), the data write and the
page/column address mapper (R137, 20_memory.md rule R49), and what a failed event leaves (60_exceptions.md rules R168,
R169). -/

namespace Sys2Proof.Machine

/-- The slave after a valid reset: Ready, decoder Idle, every register and RAM cell `_|_` (R43). S.res_low_us, which R43
does not list, is kept (log entry 12). -/
def Slave.afterReset (S : Slave) : Slave :=
  { Slave.powerOn S.params with phase := .ready, dec := some .idle, resLowUs := S.resLowUs }

/-- The reset line takes a level (R115). -/
def Slave.onReset (v : Level) (S : Slave) : Except Stop Slave :=
  match v, S.phase with
  | false, _ => .ok { S with phase := .inReset, resLowUs := some 0 }
  | true, .inReset =>
    match S.resLowUs with
    | none => .error (.fault (.unwrittenState .resLowUs))
    | some t => if S.params.tResLowCtrl ≤ t then .ok S.afterReset else .error (.refuse .resetPulseTooShort)
  | true, .unknown => .ok S
  | true, .ready => .ok S

/-- A line takes a level; the slave keeps no copy of chip-select and data/command-select (R115, R117). -/
def Slave.onPin (p : Pin) (v : Level) (S : Slave) : Except Stop Slave :=
  match p with
  | .res => S.onReset v
  | .cs => .ok S
  | .dc => .ok S

/-- Time passes (R116). -/
def Slave.onWait (us : Nat) (S : Slave) : Slave :=
  match S.phase with
  | .inReset => { S with resLowUs := S.resLowUs.map (· + us) }
  | .unknown => S
  | .ready => S

/-- One command-mode byte (R119). -/
def Slave.commandByte (b : Byte) (S : Slave) : Except Stop Slave :=
  match S.dec with
  | none => .error (.fault (.unwrittenState .dec))
  | some .idle =>
    match commandOfOpcode S.params b with
    | none => .error (.refuse (.unknownCommand b))
    | some (.c1 m) => .ok (S.executeC1 m)
    | some (.c2 m) => .ok { S with dec := some (.pendingOne m) }
    | some (.c3 m) => .ok { S with dec := some (.pendingTwo m) }
  | some (.pendingOne m) => .ok (Slave.executeC2 m b { S with dec := some .idle })
  | some (.pendingTwo m) => .ok { S with dec := some (.pendingEnd m b) }
  | some (.pendingEnd m a) => Slave.executeC3 m a b { S with dec := some .idle }

/-- The value of a field, or the fault of reading `_|_` (R39). -/
def need {α : Type} (f : Field) : Option α → Except Stop α
  | some v => .ok v
  | none => .error (.fault (.unwrittenState f))

/-- The registers the address mapper reads. -/
structure MapRegs where
  addrMode : Byte
  colStart : Nat
  colEnd : Nat
  colPtr : Nat
  pageStart : Nat
  pageEnd : Nat
  pagePtr : Nat
  deriving DecidableEq, Repr

/-- Reads the mapper's registers, in the order rule R137 lists them; of several that hold `_|_` the fault names the first (DESIGN
CHOICE, log entry 22). -/
def Slave.mapRegs (S : Slave) : Except Stop MapRegs := do
  let mode ← need .addrMode S.addrMode
  let cs ← need .colStart S.colStart
  let ce ← need .colEnd S.colEnd
  let cp ← need .colPtr S.colPtr
  let ps ← need .pageStart S.pageStart
  let pe ← need .pageEnd S.pageEnd
  let pp ← need .pagePtr S.pagePtr
  pure ⟨mode, cs, ce, cp, ps, pe, pp⟩

/-- The column after one data byte (R49). -/
def MapRegs.nextCol (r : MapRegs) : Nat :=
  if r.colPtr = r.colEnd then r.colStart else r.colPtr + 1

/-- The page after one data byte (R49). -/
def MapRegs.nextPage (r : MapRegs) : Nat :=
  if r.colPtr = r.colEnd then (if r.pagePtr = r.pageEnd then r.pageStart else r.pagePtr + 1)
  else r.pagePtr

/-- The pointer advances by one data byte (R49). -/
def Slave.advance (r : MapRegs) (S : Slave) : Slave :=
  { S with colPtr := some r.nextCol, pagePtr := some r.nextPage }

/-- One data-mode byte (R137). -/
def Slave.dataByte (b : Byte) (S : Slave) : Except Stop Slave :=
  match S.dec with
  | none => .error (.fault (.unwrittenState .dec))
  | some .idle =>
    match S.mapRegs with
    | .error e => .error e
    | .ok r =>
      if r.addrMode ≠ 0x00 then .error (.refuse .addrModeNotModelled)
      else if r.pagePtr < S.params.ramPages ∧ r.colPtr < S.params.ramCols then
        .ok (Slave.advance r { S with ram := S.ram.write (ramAddr S.params r.pagePtr r.colPtr) b })
      else .error (.fault (.noSuchRamCell r.pagePtr r.colPtr))
  | some (.pendingOne _) => .error (.refuse .dataWhilePending)
  | some (.pendingTwo _) => .error (.refuse .dataWhilePending)
  | some (.pendingEnd _ _) => .error (.refuse .dataWhilePending)

/-- One byte, in the mode the data/command-select line says (R118). -/
def Slave.takeByte (dc : Option Level) (b : Byte) (S : Slave) : Except Stop Slave :=
  match dc with
  | some false => S.commandByte b
  | some true => S.dataByte b
  | none => .error (.refuse .dcUnconfigured)

/-- The bytes of a transmission, one at a time in list order (R118). -/
def Slave.takeBytes (dc : Option Level) : List Byte → Slave → Except Stop Slave
  | [], S => .ok S
  | b :: bs, S =>
    match S.takeByte dc b with
    | .error e => .error e
    | .ok S' => Slave.takeBytes dc bs S'

/-- A transmission arrives (R118). -/
def Slave.receive (ps : Pins) (bs : List Byte) (S : Slave) : Except Stop Slave :=
  match S.receiveRefusal ps with
  | some r => .error (.refuse r)
  | none => S.takeBytes ps.dc bs

/-- A data byte that did not reach the slave leaves its cell as it was; the following bytes keep their positions
(R169). -/
def Slave.skipCell (S : Slave) : Slave :=
  match S.mapRegs with
  | .ok r => S.advance r
  | .error _ => S

/-- The pointer is `_|_` after a failed burst (R169). -/
def Slave.losePointer (S : Slave) : Slave := { S with colPtr := none, pagePtr := none }

/-- A failed data burst: each byte reached its cell or did not, as the environment drew, and the pointer is lost (R169;
log entry 6). -/
def Slave.failedBurst (ps : Pins) : List Byte → List Bool → Slave → Except Stop Slave
  | [], _, S => .ok S.losePointer
  | b :: bs, drawn, S =>
    if drawn.headD false then
      match S.receive ps [b] with
      | .error e => .error e
      | .ok S' => Slave.failedBurst ps bs drawn.tail S'
    else Slave.failedBurst ps bs drawn.tail S.skipCell

/-- The bytes of a failed transmission that reached the slave. -/
def reachedBytes : List Byte → List Bool → List Byte
  | [], _ => []
  | b :: bs, drawn => if drawn.headD false then b :: reachedBytes bs drawn.tail else reachedBytes bs drawn.tail

/-- A failed transmission: in data mode a failed burst (R169); in command mode the byte was received or it was not, as
the environment drew (R168; log entry 5). -/
def Slave.failedTx (ps : Pins) (bs : List Byte) (drawn : List Bool) (S : Slave) : Except Stop Slave :=
  if ps.dc = some true then S.failedBurst ps bs drawn
  else
    match reachedBytes bs drawn with
    | [] => .ok S
    | got => S.receive ps got

/-- A failed pin event: the slave sees the line at `_|_`. If the line is the reset line and the event reached the slave,
nothing is known of it until a valid reset; otherwise it is as before (R168, R170; log entry 7). -/
def Slave.failedPin (p : Pin) (drawn : List Bool) (S : Slave) : Slave :=
  match p with
  | .res => if drawn.headD false then Slave.powerOn S.params else S
  | .cs => S
  | .dc => S

end Sys2Proof.Machine
end

