-- ==== Sys2Proof/Machine/Ops.lean ====
section
/-! DEFINITION. Machine/Ops.lean: the shared operations of the master: emitting an event (60_exceptions.md rule R166),
performing an operation's list of events (10_state.md rule R17), taking an exception (R167), returning to the host (R16),
and reading the host's next call (log entry 10). There is no return from an exception (R170): nothing is saved and nothing
is restored. -/

namespace Sys2Proof.Machine

/-- The answer of one step or operation. -/
abbrev Answered := Host.Outcome State Fault Refusal

/-- How an operation in progress stands. -/
inductive Flow where
  /-- it goes on -/
  | run (s : State)
  /-- an exception ends it and every operation that called it (R167) -/
  | raised (x : Exception) (s : State)
  /-- an event never completes, so it never returns (R163) -/
  | hung (s : State)
  /-- a fault or a refusal: nothing more is claimed -/
  | stop (e : Stop)

/-- Goes on with `k` if the operation goes on. -/
def Flow.andThen (f : Flow) (k : State → Flow) : Flow :=
  match f with
  | .run s => k s
  | .raised x s => .raised x s
  | .hung s => .hung s
  | .stop e => .stop e

/-- The environment's answer to the next event: the next scripted one, or a free value (R166; log entry 3). -/
def State.nextAnswer (s : State) : Answer :=
  match s.answers with
  | a :: _ => a
  | [] => Config.freeAnswer s.trace.length

/-- The excess of the next wait over its minimum: the next scripted one, or a free value (R90; log entry 4). -/
def State.nextExcess (s : State) : Nat :=
  match s.waits with
  | d :: _ => d
  | [] => Config.freeWaitExcess s.trace.length

/-- The environment's answer is used up. -/
def State.popAnswer (s : State) : State := { s with answers := s.answers.tail }

/-- The wait's excess is used up. -/
def State.popWait (s : State) : State := { s with waits := s.waits.tail }

/-- Appends an event and its outcome to the trace (R18, R166). -/
def State.record (e : Event) (o : EventOutcome) (s : State) : State :=
  { s with trace := s.trace ++ [⟨e, o⟩] }

/-- The event takes effect: on the master's pins, then on the slave (R166). -/
def State.deliver (e : Event) (s : State) : Except Stop State :=
  match e with
  | .pinCfg p v =>
    match s.slave.onPin p v with
    | .ok S => .ok { s with master := { s.master with pins := s.master.pins.set p (some v) }, slave := S }
    | .error x => .error x
  | .pin p v =>
    match s.slave.onPin p v with
    | .ok S => .ok { s with master := { s.master with pins := s.master.pins.set p (some v) }, slave := S }
    | .error x => .error x
  | .wait us => .ok { s with slave := s.slave.onWait us }
  | .tx bs =>
    match s.slave.receive s.master.pins bs with
    | .ok S => .ok { s with slave := S }
    | .error x => .error x

/-- What a failed event leaves (R168, R169): the written pin is `_|_`; of the slave what the environment drew. -/
def State.deliverFailed (e : Event) (drawn : List Bool) (s : State) : Except Stop State :=
  match e with
  | .pinCfg p _ =>
    .ok { s with master := { s.master with pins := s.master.pins.set p none }, slave := s.slave.failedPin p drawn }
  | .pin p _ =>
    .ok { s with master := { s.master with pins := s.master.pins.set p none }, slave := s.slave.failedPin p drawn }
  | .wait _ => .ok s
  | .tx bs =>
    match s.slave.failedTx s.master.pins bs drawn with
    | .ok S => .ok { s with slave := S }
    | .error x => .error x

/-- `emit(e)` for a `PinCfg`, `Pin` or `Tx` event (R166). -/
def emit (e : Event) (s : State) : Flow :=
  match s.nextAnswer with
  | .ok =>
    match State.deliver e (s.popAnswer.record e .ok) with
    | .ok t => .run t
    | .error x => .stop x
  | .fail drawn =>
    match State.deliverFailed e drawn (s.popAnswer.record e .fail) with
    | .ok t => .raised (.transmissionError s.trace.length e) t
    | .error x => .stop x
  | .hang => .hung (s.popAnswer.record e .hang)

/-- `draw d >= k; emit(Wait(d))`: a wait neither fails nor hangs (R90, R166). -/
def holdFor (k : Nat) (s : State) : Flow :=
  let d := k + s.nextExcess
  match State.deliver (.wait d) (s.popWait.record (.wait d) .ok) with
  | .ok t => .run t
  | .error x => .stop x

/-- One element of an operation's event list (R17): an event, or a wait of a drawn length. -/
inductive Action where
  | event (e : Event)
  | hold (atLeast : Nat)
  deriving DecidableEq, Repr

/-- Performs one element. -/
def perform (a : Action) (s : State) : Flow :=
  match a with
  | .event e => emit e s
  | .hold k => holdFor k s

/-- Performs an operation's event list in order, each element after the one before it completed (R17, R57). -/
def performAll : List Action → State → Flow
  | [], s => .run s
  | a :: as, s => (perform a s).andThen (performAll as)

/-- Command frames, one for each byte (R65, R106, R107). -/
def commandFrames (bs : List Byte) : List Action := (bs.flatMap commandFrame).map .event

/-- One data frame with one burst (R65, R109). -/
def burstFrame (bs : List Byte) : List Action := (dataFrame bs).map .event

/-- The reset pulse: five elements, the waits of drawn length (R90). -/
def resetPulse : List Action :=
  [.event (.pin .res true), .hold Config.tResPre, .event (.pin .res false), .hold Config.tResLow,
   .event (.pin .res true)]

/-- The elements of RENDER for a geometry and a buffer content (R83). -/
def renderActions (P : Params) (w h : Nat) (content : List Byte) : List Action :=
  commandFrames (renderBytes P w h) ++ burstFrame content

/-- TAKING AN EXCEPTION (R167, R180): control returns to the host with the exception, which is logged; nothing is saved, no
mode changes, no handler runs. -/
def State.takeException (x : Exception) (s : State) : State :=
  { s with log := s.log ++ [.exception x], outcome := some (.raised x) }

/-- The operation returns to the host (R16). -/
def State.giveBack (r : Result) (s : State) : State := { s with outcome := some (.returned r) }

/-- The master is stuck: the operation never returns (R163). -/
def State.hang (s : State) : State := { s with hung := true, outcome := some .hangs }

/-- A fault or a refusal as the answer of a step. -/
def Stop.answer : Stop → Answered
  | .fault f => .fault f
  | .refuse r => .refused r

/-- An entry added to the fault log, nothing else changed (R180). -/
def State.note (x : Logged) (s : State) : State := { s with log := s.log ++ [x] }

/-- The fault log after a step from this state: the log of the next state, or the log of this one with the fault or the refusal
that ended the run (R180; log entry 20). -/
def State.logAfter (s : State) (r : Answered) : List Logged :=
  match r with
  | .next t => t.log
  | .fault f => s.log ++ [.fault f]
  | .refused x => s.log ++ [.refusal x]

/-- The end of an operation, as the host sees it (R16, R167). -/
def Flow.finish (r : Result) (f : Flow) : Answered :=
  match f with
  | .run s => .next (s.giveBack r)
  | .raised x s => .next (s.takeException x)
  | .hung s => .next s.hang
  | .stop e => e.answer

/-- A stuck master starts nothing: the host's one thread is still inside the operation that hangs (R57, R163; log
entry 8), so none of the call's own refusals is looked at (DESIGN CHOICE, log entry 13). -/
def whenFree (s : State) (k : Answered) : Answered := if s.hung then .next s else k

/-- An operation of the internal interface: admitted once the pins are configured (R85). -/
def runInternal (acts : List Action) (s : State) : Answered :=
  whenFree s (if s.internalAdmitted then (performAll acts s).finish .unit else .refused .pinsNotConfigured)

/-- The frame buffer's bytes 0 to N-1 (R83, R154); one that does not exist has no value to read (R7, R42; log entry 15). -/
def State.fbBytes (n : Nat) (s : State) : Except Stop (List Byte) :=
  match s.master.fb.readRange 0 n with
  | some bs => .ok bs
  | none => .error (.fault (.unwrittenState .frameBuffer))

/-- The geometry registers (R11); reading `_|_` is a fault (R7, R42; log entry 15). -/
def State.geometry (s : State) : Except Stop (Nat × Nat) :=
  match s.master.width, s.master.height with
  | some w, some h => .ok (w, h)
  | none, _ => .error (.fault (.unwrittenState .width))
  | some _, none => .error (.fault (.unwrittenState .height))

/-- The body of RENDER, without its lifecycle check (R83). -/
def renderBody (s : State) : Flow :=
  match s.geometry with
  | .error e => .stop e
  | .ok (w, h) =>
    match s.fbBytes (bufferSize w h) with
    | .error e => .stop e
    | .ok content => performAll (renderActions s.params w h content) s

/-- The refusal of an encoded line that is no instruction (R74). -/
def decodeRefusal : DecodeError → Refusal
  | .unknownCommand b => .unknownCommand b
  | .unknownHostOp _ => .unknownHostOp
  | .notAByte _ => .notAByte
  | .malformed => .malformedRequest

/-- What reading the host's next call gives. -/
inductive Fetched where
  | nothing
  | instr (i : Instr) (s : State)
  | reject (r : Refusal)

/-- Takes the host's next call off the queue and decodes it (log entry 10). A line that is no instruction is refused here, before the
admission of R85 and whatever the slave's decoder state (DESIGN CHOICE, log entries 16 and 26). -/
def State.fetch (s : State) : Fetched :=
  match s.requests with
  | [] => .nothing
  | p :: rest =>
    match decode s.params p with
    | .ok i => .instr i { s with requests := rest }
    | .error e => .reject (decodeRefusal e)

end Sys2Proof.Machine
end

