-- ==== Sys2Proof/Machine/Controller.lean ====
section
/-! DEFINITION. Machine/Controller.lean: the 17 controller commands and DATA as lines of a host program. Each command is
sent as its command frames (30_encoding.md rules R67 to R69, R76); what the slave then does with it is
Machine/SlaveEvents.lean (R119) and Machine/SlaveCommands.lean (R120 to R136). DATA is one data byte in a data frame
(R65, R70) and R137. DEDUCED (log entry 9). -/

namespace Sys2Proof.Machine

/-- A command sent as command frames, the opcode first (R76). -/
def sendCommand (bytes : List Byte) (s : State) : Answered := runInternal (commandFrames bytes) s

/-- DISPLAY_OFF, format C1 (R120, R67). -/
def execDisplayOff (s : State) : Answered := sendCommand [s.params.opcDisplayOff] s

/-- SET_CONTRAST A, format C2 (R121, R68). -/
def execSetContrast (a : Byte) (s : State) : Answered := sendCommand [s.params.opcSetContrast, a] s

/-- SET_PRECHARGE A, format C2 (R122, R68). -/
def execSetPrecharge (a : Byte) (s : State) : Answered := sendCommand [s.params.opcSetPrecharge, a] s

/-- SET_VCOMH A, format C2 (R123, R68). -/
def execSetVcomh (a : Byte) (s : State) : Answered := sendCommand [s.params.opcSetVcomh, a] s

/-- SET_START_LINE_0, format C1 (R124, R67). -/
def execSetStartLine0 (s : State) : Answered := sendCommand [s.params.opcSetStartLine0] s

/-- SET_DISPLAY_OFFSET A, format C2 (R125, R68). -/
def execSetDisplayOffset (a : Byte) (s : State) : Answered := sendCommand [s.params.opcSetDisplayOffset, a] s

/-- SET_CLOCK_DIV A, format C2 (R126, R68). -/
def execSetClockDiv (a : Byte) (s : State) : Answered := sendCommand [s.params.opcSetClockDiv, a] s

/-- SET_COM_PINS A, format C2 (R127, R68). -/
def execSetComPins (a : Byte) (s : State) : Answered := sendCommand [s.params.opcSetComPins, a] s

/-- SEG_REMAP_NORMAL, format C1 (R128, R67). -/
def execSegRemapNormal (s : State) : Answered := sendCommand [s.params.opcSegRemapNormal] s

/-- COM_SCAN_NORMAL, format C1 (R129, R67). -/
def execComScanNormal (s : State) : Answered := sendCommand [s.params.opcComScanNormal] s

/-- SET_MUX_RATIO A, format C2 (R130, R68). -/
def execSetMuxRatio (a : Byte) (s : State) : Answered := sendCommand [s.params.opcSetMuxRatio, a] s

/-- SET_ADDR_MODE A, format C2 (R131, R68). -/
def execSetAddrMode (a : Byte) (s : State) : Answered := sendCommand [s.params.opcSetAddrMode, a] s

/-- ENTIRE_DISPLAY_RESUME, format C1 (R132, R67). -/
def execEntireDisplayResume (s : State) : Answered := sendCommand [s.params.opcEntireDisplayResume] s

/-- INVERSE_OFF, format C1 (R133, R67). -/
def execInverseOff (s : State) : Answered := sendCommand [s.params.opcInverseOff] s

/-- DISPLAY_ON, format C1 (R134, R67). -/
def execDisplayOn (s : State) : Answered := sendCommand [s.params.opcDisplayOn] s

/-- SET_COLUMN_ADDR A B, format C3 (R135, R69). -/
def execSetColumnAddr (a b : Byte) (s : State) : Answered := sendCommand [s.params.opcSetColumnAddr, a, b] s

/-- SET_PAGE_ADDR A B, format C3 (R136, R69). -/
def execSetPageAddr (a b : Byte) (s : State) : Answered := sendCommand [s.params.opcSetPageAddr, a, b] s

/-- DATA b: one pixel byte in a data frame (R70, R137). -/
def execData (b : Byte) (s : State) : Answered := runInternal (burstFrame [b]) s

end Sys2Proof.Machine
end

