-- ==== Sys2Proof/Machine/Sequencer.lean ====
section
/-! DEFINITION. Machine/Sequencer.lean: RESET (41_reset_sequencer.md) and INIT (42_init_sequence.md). -/

namespace Sys2Proof.Machine

/-- RESET(): the reset line high, at least 1 ms, low, at least 10 ms, high (R90). -/
def execReset (s : State) : Answered := runInternal resetPulse s

/-- The elements of INIT: one command frame for each byte of `InitBytes(W, H)` (R95, R96). -/
def initActions (P : Params) (w h : Nat) : List Action := commandFrames (initBytes P w h)

/-- INIT(): the fixed stream of 15 commands (R95). It also needs the geometry registers (R85; log entry 15), looked at after the
pins (DESIGN CHOICE, log entry 13). DESIGN CHOICE (log entry 24): while the block is not constructed it runs with the geometry that a failed CONSTRUCT left, which R85 admits once M.W and
M.H are there and R168 calls not usable. -/
def execInit (s : State) : Answered :=
  whenFree s
    (if s.internalAdmitted then
       match s.geometry with
       | .ok (w, h) => (performAll (initActions s.params w h) s).finish .unit
       | .error _ => .refused .notConstructed
     else .refused .pinsNotConfigured)

end Sys2Proof.Machine
end

