-- ==== Sys2Proof/Machine/HostOps.lean ====
section
/-! DEFINITION. Machine/HostOps.lean: CONSTRUCT, RENDER and CLEAR (40_host_operations.md). -/

namespace Sys2Proof.Machine

/-- The elements of CONSTRUCT before its first RENDER: the three pins configured, the reset pulse, the init stream (R80). -/
def bringUpActions (P : Params) (w h : Nat) : List Action :=
  [.event (.pinCfg .cs true), .event (.pinCfg .dc false), .event (.pinCfg .res true)] ++ resetPulse ++ initActions P w h

/-- CONSTRUCT writes the geometry and creates the zeroed frame buffer before the first event (R80). -/
def State.allocate (w h : Nat) (s : State) : State :=
  { s with master :=
      { s.master with width := some w, height := some h, fb := Memory.filled (bufferSize w h) 0x00 } }

/-- CONSTRUCT ends by entering `Init` (R80, R10). -/
def State.enterInit (s : State) : State := { s with master := { s.master with life := .init } }

/-- The body of CONSTRUCT for a geometry that passed the checks (R80). -/
def constructBody (w h : Nat) (s : State) : Flow :=
  ((performAll (bringUpActions s.params w h) (s.allocate w h)).andThen renderBody).andThen (fun t => .run t.enterInit)

/-- CONSTRUCT(w, h, pins) (R80): admitted once (R85); the geometry checks raise ConfigError before anything is written or
emitted (R81, R161); a geometry larger than the RAM is refused (R82). The pin identifiers are opaque (R14). -/
def execConstruct (w h : Int) (_pins : PinAssignment) (s : State) : Answered :=
  whenFree s
    (match s.master.life with
     | .init => .refused .alreadyConstructed
     | .uninit =>
       match geometryError w h with
       | some (cause, arg) => .next (s.takeException (.configError cause arg))
       | none =>
         if exceedsRam s.params w h then .refused .geometryExceedsRam
         else (constructBody w.toNat h.toNat s).finish .unit)

/-- RENDER(): both windows, then the whole frame buffer as one burst (R83). -/
def execRender (s : State) : Answered :=
  whenFree s
    (match s.master.life with
     | .uninit => .refused .notConstructed
     | .init => (renderBody s).finish .unit)

/-- Every byte of the frame buffer takes the value `v` (R84, R150). -/
def State.fillBuffer (v : Byte) (s : State) : Except Stop State :=
  match s.geometry with
  | .error e => .error e
  | .ok (w, h) => .ok { s with master := { s.master with fb := Memory.filled (bufferSize w h) v } }

/-- CLEAR(): FILL(0), then RENDER (R84). -/
def execClear (s : State) : Answered :=
  whenFree s
    (match s.master.life with
     | .uninit => .refused .notConstructed
     | .init =>
       match s.fillBuffer 0x00 with
       | .error e => e.answer
       | .ok t => (renderBody t).finish .unit)

end Sys2Proof.Machine
end

