-- ==== Sys2Proof/Machine/FrameStore.lean ====
section
/-! DEFINITION. Machine/FrameStore.lean: the frame-store port FILL, PSET, PGET, FBWRITE, RAWBYTES (45_frame_store.md). None
emits an event; all require `M.life = Init` (40_host_operations.md rule R85). -/

namespace Sys2Proof.Machine

/-- A write of the port: not while a master operation has not returned (R62; log entry 8), and only on a constructed block
(R85). DESIGN CHOICE (log entry 13): FbWriteDuringOperation comes before NotConstructed, BadColour, PixelOutOfRange and
IndexOutOfRange, and NotConstructed before the other three. -/
def portWrite (s : State) (k : Answered) : Answered :=
  if s.hung then .refused .fbWriteDuringOperation
  else
    match s.master.life with
    | .uninit => .refused .notConstructed
    | .init => k

/-- A read of the port: only on a constructed block (R85). DESIGN CHOICE (log entry 13): NotConstructed comes before
PixelOutOfRange. -/
def portRead (s : State) (k : Answered) : Answered :=
  whenFree s
    (match s.master.life with
     | .uninit => .refused .notConstructed
     | .init => k)

/-- Writes one byte of the frame buffer. -/
def State.setByte (i : Nat) (v : Byte) (s : State) : State :=
  { s with master := { s.master with fb := s.master.fb.write i v } }

/-- A pixel that lies in the geometry: its frame-buffer index (R151, R152). -/
def State.pixelAt (x y : Int) (s : State) : Except Stop Nat :=
  match s.geometry with
  | .error e => .error e
  | .ok (w, h) =>
    if 0 ≤ x ∧ x < w ∧ 0 ≤ y ∧ y < h then .ok (pixelIndex w x.toNat y.toNat)
    else .error (.refuse .pixelOutOfRange)

/-- One byte of the frame buffer; one that does not exist has no value to read (R7, R42; log entry 15). -/
def State.byteAt (i : Nat) (s : State) : Except Stop Byte :=
  match s.master.fb.read i with
  | some b => .ok b
  | none => .error (.fault (.unwrittenState .frameBuffer))

/-- FILL(c) (R150). -/
def execFill (c : Int) (s : State) : Answered :=
  portWrite s
    (if isColour c then
       match s.fillBuffer (if c = 0 then 0x00 else 0xFF) with
       | .error e => e.answer
       | .ok t => .next (t.giveBack .unit)
     else .refused .badColour)

/-- PSET(x, y, c) (R151). The pixel's range is looked at before the colour's (log entry 13). -/
def execPset (x y c : Int) (s : State) : Answered :=
  portWrite s
    (match s.pixelAt x y with
     | .error e => e.answer
     | .ok i =>
       if isColour c then
         match s.byteAt i with
         | .error e => e.answer
         | .ok b => .next ((s.setByte i (setBit b (pixelBit y.toNat) (decide (c = 1)))).giveBack .unit)
       else .refused .badColour)

/-- PGET(x, y) (R152). -/
def execPget (x y : Int) (s : State) : Answered :=
  portRead s
    (match s.pixelAt x y with
     | .error e => e.answer
     | .ok i =>
       match s.byteAt i with
       | .error e => e.answer
       | .ok b => .next (s.giveBack (.bit (b.getLsbD (pixelBit y.toNat)))))

/-- FBWRITE(i, v) (R153). -/
def execFbwrite (i : Int) (v : Byte) (s : State) : Answered :=
  portWrite s
    (match s.geometry with
     | .error e => e.answer
     | .ok (w, h) =>
       if 0 ≤ i ∧ i < (bufferSize w h : Int) then .next ((s.setByte i.toNat v).giveBack .unit)
       else .refused .indexOutOfRange)

/-- RAWBYTES() (R154). -/
def execRawbytes (s : State) : Answered :=
  portRead s
    (match s.geometry with
     | .error e => e.answer
     | .ok (w, h) =>
       match s.fbBytes (bufferSize w h) with
       | .error e => e.answer
       | .ok bs => .next (s.giveBack (.bytes bs)))

end Sys2Proof.Machine
end

