-- ==== Sys2Proof/Machine/Framer.lean ====
section
/-! DEFINITION. Machine/Framer.lean: WCMD and WBUF (43_framer.md). A value that is no byte and an empty burst are refused
before the admission is looked at (R113; log entry 13). -/

namespace Sys2Proof.Machine

/-- The bytes WCMD transmits: the command byte and, if there is one, the operand (R106, R107). -/
def wcmdBytes (b : Int) (a : Option Int) : Option (List Byte) :=
  match a with
  | none => asBytes [b]
  | some a => asBytes [b, a]

/-- WCMD(b) and WCMD(b, a): one command frame for each byte (R106, R107). -/
def execWcmd (b : Int) (a : Option Int) (s : State) : Answered :=
  whenFree s
    (match wcmdBytes b a with
     | none => .refused .notAByte
     | some bytes => runInternal (commandFrames bytes) s)

/-- WBUF(bs): one data frame with the whole list as one burst (R109). -/
def execWbuf (bs : List Int) (s : State) : Answered :=
  whenFree s
    (match asBytes bs with
     | none => .refused .notAByte
     | some [] => .refused .emptyBurst
     | some (b :: bytes) => runInternal (burstFrame (b :: bytes)) s)

end Sys2Proof.Machine
end

