-- ==== Sys2Proof/Machine/Dispatch.lean ====
section
/-! DEFINITION. Machine/Dispatch.lean: the meaning of each instruction, one arm per row of the opcode table. -/

namespace Sys2Proof.Machine

def exec (i : Instr) (s : State) : Host.Outcome State Fault Refusal :=
  match i with
  -- controller commands (44_controller_commands.md)
  | .displayOff => Sys2Proof.Machine.execDisplayOff s
  | .setContrast a => Sys2Proof.Machine.execSetContrast a s
  | .setPrecharge a => Sys2Proof.Machine.execSetPrecharge a s
  | .setVcomh a => Sys2Proof.Machine.execSetVcomh a s
  | .setStartLine0 => Sys2Proof.Machine.execSetStartLine0 s
  | .setDisplayOffset a => Sys2Proof.Machine.execSetDisplayOffset a s
  | .setClockDiv a => Sys2Proof.Machine.execSetClockDiv a s
  | .setComPins a => Sys2Proof.Machine.execSetComPins a s
  | .segRemapNormal => Sys2Proof.Machine.execSegRemapNormal s
  | .comScanNormal => Sys2Proof.Machine.execComScanNormal s
  | .setMuxRatio a => Sys2Proof.Machine.execSetMuxRatio a s
  | .setAddrMode a => Sys2Proof.Machine.execSetAddrMode a s
  | .entireDisplayResume => Sys2Proof.Machine.execEntireDisplayResume s
  | .inverseOff => Sys2Proof.Machine.execInverseOff s
  | .displayOn => Sys2Proof.Machine.execDisplayOn s
  | .setColumnAddr a b => Sys2Proof.Machine.execSetColumnAddr a b s
  | .setPageAddr a b => Sys2Proof.Machine.execSetPageAddr a b s
  -- data write (44_controller_commands.md rule R137)
  | .data b => Sys2Proof.Machine.execData b s
  -- host operations (40 to 43)
  | .construct w h pins => Sys2Proof.Machine.execConstruct w h pins s
  | .reset => Sys2Proof.Machine.execReset s
  | .init => Sys2Proof.Machine.execInit s
  | .wcmd b a => Sys2Proof.Machine.execWcmd b a s
  | .wbuf bs => Sys2Proof.Machine.execWbuf bs s
  | .render => Sys2Proof.Machine.execRender s
  | .clear => Sys2Proof.Machine.execClear s
  -- frame-store port (45_frame_store.md)
  | .fill c => Sys2Proof.Machine.execFill c s
  | .pset x y c => Sys2Proof.Machine.execPset x y c s
  | .pget x y => Sys2Proof.Machine.execPget x y s
  | .fbwrite k v => Sys2Proof.Machine.execFbwrite k v s
  | .rawbytes => Sys2Proof.Machine.execRawbytes s

end Sys2Proof.Machine
end

