-- ==== Sys2Proof/Machine/Step.lean ====
section
/-! DEFINITION. Machine/Step.lean: one step of the machine: the host's next call is run to its end (20_memory.md rule R57).
A stuck master stays stuck (60_exceptions.md rule R163); with no call to come nothing happens. -/

namespace Sys2Proof.Machine

def step (s : State) : Host.Outcome State Fault Refusal :=
  if s.hung then .next s
  else
    match s.fetch with
    | .nothing => .next s
    | .instr i t => exec i t
    | .reject r => .refused r

/-- The state with the instruction of a table word as the host's very next call (log entry 10). -/
def State.withFetchWord (s : State) (nbits w : Nat) : State :=
  { s with hung := false, requests := tableWord s.params nbits w :: s.requests }

end Sys2Proof.Machine
end

