-- ==== Sys2Proof/Machine/Panel.lean ====
section
/-! DEFINITION. Machine/Panel.lean: the panel observation (20_memory.md rule R63), a function of the state and no step of
the machine. -/

namespace Sys2Proof.Machine

/-- What the panel observation says of a pixel (R63). -/
inductive PanelPixel where
  /-- the image is defined and the pixel is on or off -/
  | shown (on : Bool)
  /-- the configuration is not the one of the init stream for the geometry, or the pixel is outside it (R63, D21), or an operation
  is in progress or the first RENDER has not ended (U18, R54, R201): the image is not defined -/
  | notDefined
  deriving DecidableEq, Repr

/-- The registers the panel observation reads, each with whether it holds a value (R39, R63). -/
def Slave.panelRegs (S : Slave) : List (Field × Bool) :=
  [(.dispOn, S.dispOn.isSome), (.contrast, S.contrast.isSome), (.precharge, S.precharge.isSome), (.vcomh, S.vcomh.isSome),
   (.startLine, S.startLine.isSome), (.offset, S.offset.isSome), (.clkdiv, S.clkdiv.isSome), (.compins, S.compins.isSome),
   (.segRemap, S.segRemap.isSome)] ++
  [(.comScan, S.comScan.isSome), (.mux, S.mux.isSome), (.addrMode, S.addrMode.isSome), (.entireOn, S.entireOn.isSome),
   (.inverse, S.inverse.isSome), (.colStart, S.colStart.isSome), (.colEnd, S.colEnd.isSome), (.pageStart, S.pageStart.isSome),
   (.pageEnd, S.pageEnd.isSome)]

/-- The first register the panel observation reads that holds `_|_` (R39; the order of reading is log entry 25). -/
def Slave.panelUnwritten (S : Slave) : Option Field := (S.panelRegs.find? (fun p => !p.2)).map Prod.fst

/-- `InitConfig(S, W, H)` for a geometry that a block can have: Ready, the fourteen configuration registers at the values of rule
R44, the windows those of RENDER (R63). Of no other width and height does R44 give a value, or R63 an image. DESIGN CHOICE (log
entry 25): the registers alone decide, as R63 says, also where the 15 init commands were sent in another order with the same end
values, of which R193, R97 and U21 claim nothing. -/
def Slave.initConfig (S : Slave) (w h : Nat) : Bool :=
  decide (GeometryOk S.params w h) &&
  decide (S.phase = .ready ∧ S.dispOn = some true ∧ S.contrast = some 0xFF ∧ S.precharge = some 0xF1 ∧
    S.vcomh = some 0x40 ∧ S.startLine = some 0 ∧ S.offset = some 0x00 ∧ S.clkdiv = some 0x80) &&
  decide (S.compins = some (Sys2Proof.Machine.compins w h) ∧ S.segRemap = some .normal ∧ S.comScan = some .normal ∧
    S.mux = some (operandByte (h - 1)) ∧ S.addrMode = some 0x00 ∧ S.entireOn = some .resume ∧
    S.inverse = some .off) &&
  decide (S.colStart = some 0 ∧ S.colEnd = some (w - 1) ∧ S.pageStart = some 0 ∧ S.pageEnd = some (h / 8 - 1))

/-- The pixel the registers and the RAM give for the panel at column `x`, row `y` of a geometry (R63): a fault while a register it
reads, or the RAM cell of a defined image, holds `_|_` (R39). -/
def Slave.panelPixel (S : Slave) (w h x y : Nat) : Except Fault PanelPixel :=
  match S.panelUnwritten with
  | some f => .error (.unwrittenState f)
  | none =>
    if S.initConfig w h && decide (x < w ∧ y < h) then
      match S.ram.read (ramAddr S.params (y / 8) x) with
      | some b => .ok (.shown (b.getLsbD (y % 8)))
      | none => .error (.unwrittenState .ram)
    else .ok .notDefined

end Sys2Proof.Machine
end

