-- ==== Sys2Proof/Machine/FaultLog.lean ====
section
/-! DEFINITION. Machine/FaultLog.lean: the fault log of a run (60_exceptions.md rule R180): every exception, every fault and every
refusal of the run, never cleared. The model keeps it outside the hardware state: the exceptions and the faults of panel observations
stand in `State.log`, and the fault or refusal of a step, which ends the run, is added here, since no state follows it (log
entry 20). -/

namespace Sys2Proof.Machine

/-- The spec claims something of the panel image (U18, R54, R201, D28): no operation is in progress, and the block is
constructed, so that its first RENDER has ended. DESIGN CHOICE (log entry 25): "the first RENDER" is read as CONSTRUCT's own; and
the order in which the init commands were sent is not looked at (R193, U21). -/
def State.imageClaimed (s : State) : Bool := !s.hung && decide (s.master.life = .init)

/-- The geometry in which the panel of a block is observed: its own, M.W by M.H (R11, R63; log entry 25). A block that has none gives
0 by 0, which is no geometry, so that no image is defined. -/
def State.panelSize (s : State) : Nat × Nat := (s.master.width.getD 0, s.master.height.getD 0)

/-- The panel observation made in a run (R63), of the pixel at column `x`, row `y` of the block's own geometry: what it answers, and
the state after it, which differs only in the log: a fault of the observation enters it (R39, R180; V-DEC16). While an operation has
not returned, and before the first RENDER has ended, no image is defined, whatever the RAM holds (U18, R54, R201; log entry 25). -/
def State.observePanel (x y : Nat) (s : State) : Except Fault PanelPixel × State :=
  match s.slave.panelPixel s.panelSize.1 s.panelSize.2 x y with
  | .ok p => (.ok (if s.imageClaimed then p else .notDefined), s)
  | .error f => (.error f, s.note (.fault f))

/-- What a run is made of: steps of the machine, and observations of a pixel of the panel between them. -/
inductive Act where
  | step
  | observe (x y : Nat)
  deriving DecidableEq, Repr

/-- The fault log after the given acts from `s`. A fault or a refusal of a step ends the run; an observation never does, since it is
no step of the machine (log entry 20). -/
def faultLog : List Act → State → List Logged
  | [], s => s.log
  | .step :: acts, s =>
    match step s with
    | .next t => faultLog acts t
    | .fault f => s.logAfter (.fault f)
    | .refused r => s.logAfter (.refused r)
  | .observe x y :: acts, s => faultLog acts (s.observePanel x y).2

end Sys2Proof.Machine
end

