-- ==== Sys2Proof/Safety.lean ====
section
/-! DEFINITION. Safety.lean: the terms claims use: the invariant every step keeps, what it means that every event of an
operation completes, when the slave can take a command or a data byte, and the state an operation leaves when all its events
completed. -/

namespace Sys2Proof.Machine

/-! ## The invariant -/

/-- The master's registers fit together (R11, R12): no geometry and no buffer before the first CONSTRUCT that passed its
checks, else a legal geometry and exactly the N bytes of its buffer. -/
def Master.Inv (P : Params) (M : Master) : Prop :=
  (M.life = .uninit ∧ M.width = none ∧ M.height = none ∧ M.fb = []) ∨
  ∃ w h, M.width = some w ∧ M.height = some h ∧ GeometryOk P w h ∧
    M.fb.map Prod.fst = List.range (bufferSize w h)

/-- One of the two windows with its pointer (R36, R37): start and end are known together, and a known pointer lies in the
window. -/
def WindowInv (size : Nat) (start stop ptr : Option Nat) : Prop :=
  (start = none ∧ stop = none ∧ ptr = none) ∨
  ∃ a b, start = some a ∧ stop = some b ∧ a ≤ b ∧ b < size ∧ ∀ p, ptr = some p → a ≤ p ∧ p ≤ b

/-- The slave's registers fit together: both windows (R36, R37), a canonical RAM inside its size (R38), nothing known of a
slave that had no valid reset (R20, R42), a decoder state once ready (R21, R43). Every wire event keeps it. -/
def Slave.Inv (S : Slave) : Prop :=
  WindowInv S.params.ramCols S.colStart S.colEnd S.colPtr ∧
  WindowInv S.params.ramPages S.pageStart S.pageEnd S.pagePtr ∧
  S.ram.wf ∧ (∀ c ∈ S.ram, c.1 < S.params.ramPages * S.params.ramCols) ∧
  (S.phase = .unknown → S = Slave.powerOn S.params) ∧
  (S.phase = .ready → S.dec ≠ none)

/-- Between two operations a low phase of the reset line has lasted the master's minimum hold (R90, R116). -/
def Slave.LowPhaseHeld (S : Slave) : Prop :=
  S.phase = .inReset → ∃ t, S.resLowUs = some t ∧ Config.tResLow ≤ t

/-- The invariant of the block between operations. -/
def State.Inv (s : State) : Prop := s.master.Inv s.params ∧ s.slave.Inv ∧ s.slave.LowPhaseHeld

/-! ## When every event completes -/

/-- The master is not stuck, and the environment answers `ok` to the next `n` events: the premise rule R166 asks of a claim
that an operation returns. -/
abbrev State.Answers (s : State) (n : Nat) : Prop :=
  s.hung = false ∧ s.answers.take n = List.replicate n .ok

/-- The entries the trace gains from events that all completed. -/
def okEntries (es : List Event) : List TraceEntry := es.map (fun e => ⟨e, .ok⟩)

/-- The state after an operation whose events `es` all completed, leaving chip-select and data/command-select at `cs` and
`dc` and the slave at `S`, the operation having returned `r`. -/
def State.afterEvents (s : State) (es : List Event) (cs dc : Level) (S : Slave) (r : Result) : State :=
  { s with
    master := { s.master with pins := ⟨some cs, some dc, s.master.pins.res⟩ }
    trace := s.trace ++ okEntries es
    slave := S
    answers := s.answers.drop es.length
    outcome := some (.returned r) }

/-- The slave can take a transmission once it is selected: it is Ready and the reset line is high (R118). -/
abbrev State.LinkUp (s : State) : Prop :=
  s.internalAdmitted = true ∧ s.slave.phase = .ready ∧ s.master.pins.res = some true

/-- The slave will take the next command-mode byte as an opcode (R119). -/
abbrev State.CommandReady (s : State) : Prop := s.LinkUp ∧ s.slave.dec = some .idle

/-- The slave can take data bytes (R137): decoder Idle, mode 0x00, windows `[cs, ce]`, `[ps, pe]` inside the RAM, and the
pointer at (`pp`, `cp`) inside them. -/
abbrev Slave.MapAt (S : Slave) (cs ce cp ps pe pp : Nat) : Prop :=
  S.dec = some .idle ∧ S.addrMode = some 0x00 ∧
  S.colStart = some cs ∧ S.colEnd = some ce ∧ S.colPtr = some cp ∧
  S.pageStart = some ps ∧ S.pageEnd = some pe ∧ S.pagePtr = some pp ∧
  cs ≤ cp ∧ cp ≤ ce ∧ ce < S.params.ramCols ∧ ps ≤ pp ∧ pp ≤ pe ∧ pe < S.params.ramPages

/-- The block is constructed with geometry (`w`, `h`), its master is free, and its buffer has all its bytes (R11, R12). -/
abbrev State.Constructed (s : State) (w h : Nat) : Prop :=
  s.hung = false ∧ s.master.life = .init ∧ s.master.width = some w ∧ s.master.height = some h ∧ GeometryOk s.params w h ∧
    s.master.fb.map Prod.fst = List.range (bufferSize w h)

/-- The address of a cell of the window `[0, w-1]`, `[0, h/8-1]` that RENDER fills (R51). -/
def InWindow (P : Params) (w h a : Nat) : Prop := ∃ p c, p < h / 8 ∧ c < w ∧ a = ramAddr P p c

/-- The pixel (x, y) of a frame buffer (R47). -/
def pixelOf (fb : Memory) (w x y : Nat) : Option Bool :=
  (fb.read (x + w * (y / 8))).map (fun b => b.getLsbD (y % 8))

/-- The RAM cell of a page and a column (R48). -/
def Slave.cell (S : Slave) (page col : Nat) : Option Byte := S.ram.read (ramAddr S.params page col)

end Sys2Proof.Machine
end

