-- ==== Sys2Proof/Certificates/Slice0/Obligations.lean ====
section
/-! DEFINITION. Certificates/Slice0/Obligations.lean: the statements for the provers. Each docstring names the rules it
formalises. Where a statement rests on a decision the spec marks as its own, or on an entry of the assumption log, its docstring
says so. No statement rests on the value of a free value: event answers and wait lengths are quantified over. -/

open Sys2Proof Sys2Proof.Machine

/-! ## Encoding and decoding -/

/-- Decoding the encoded line of any instruction gives it back, with every operand, whatever legal opcode bytes the controller has
(rules R66 to R70, R77, R78; the form of an encoded line is the model's, log entry 10). -/
def Obligations.EncodeThenDecode : Prop := ∀ (P : Params) (i : Instr), decode P (encode P i) = .ok i

/-- Every encoded line has one meaning, whatever legal opcode bytes the controller has: what decodes is the encoding of what it
decodes to. The one call left aside, CONSTRUCT with fewer than five arguments, takes the defaults 128 and 64 (R4, R80) and the
opaque default pins, or is rejected (log entries 10, 11, 16). -/
def Obligations.DecodeThenEncode : Prop :=
  ∀ P : Params,
  (∀ (p : Packet) (i : Instr), decode P p = .ok i → (∀ args, p = .call 0x0 args → 5 ≤ args.length) → encode P i = p) ∧
  decode P (.call 0x0 []) = .ok (.construct 128 64 Config.defaultPins) ∧
  (∀ w, decode P (.call 0x0 [w]) = .ok (.construct w 64 Config.defaultPins)) ∧
  (∀ w h, decode P (.call 0x0 [w, h]) = .ok (.construct w h Config.defaultPins)) ∧
  (∀ args, args.length = 3 ∨ args.length = 4 → decode P (.call 0x0 args) = .error .malformed)

/-- From Idle the slave's byte decoder takes the bytes of a command as exactly that command, for every command and operand, and
then goes on with the bytes that follow (R73, R119; a command takes effect with its last byte by decision D12). -/
def Obligations.SlaveDecodesWholeCommands : Prop :=
  ∀ (S : Slave) (rest : List Byte), S.dec = some .idle →
    (∀ m : C1, S.takeBytes (some false) ((Command.c1 m).opcode S.params :: rest) = (S.executeC1 m).takeBytes (some false) rest) ∧
    (∀ (m : C2) (a : Byte),
      S.takeBytes (some false) ((Command.c2 m).opcode S.params :: a :: rest) = (S.executeC2 m a).takeBytes (some false) rest) ∧
    (∀ (m : C3) (a b : Byte),
      S.takeBytes (some false) ((Command.c3 m).opcode S.params :: a :: b :: rest) =
        (S.executeC3 m a b).bind (fun S' => S'.takeBytes (some false) rest))

/-- Words written out from rules R66 to R70 and R77 decode to what they stand for (the opcode bytes are the spec's defaults, log
entry 2; a line that begins with another byte is no instruction by log entry 26). -/
def Obligations.SpecWordsDecode : Prop :=
  decode Config.defaults (.command [0xAE]) = .ok .displayOff ∧
  decode Config.defaults (.command [0x81, 0xFF]) = .ok (.setContrast 0xFF) ∧
  decode Config.defaults (.command [0x21, 0x00, 0x7F]) = .ok (.setColumnAddr 0x00 0x7F) ∧
  decode Config.defaults (.data 0x80) = .ok (.data 0x80) ∧
  decode Config.defaults (.call 0x3 [0x81, 0xFF]) = .ok (.wcmd 0x81 (some 0xFF)) ∧
  decode Config.defaults (.call 0xC []) = .ok .rawbytes ∧
  decode Config.defaults (.command [0xE3]) = .error (.unknownCommand 0xE3) ∧
  decode Config.defaults (.call 0x7 []) = .error (.unknownHostOp 0x7)

/-- A choice of the OPEN parameters is admitted exactly if it is legal, and then as it stands: opcode bytes pairwise distinct, a RAM
whose bounds fit a byte, a minimum pulse the master's own hold meets; any other is refused (R4, R78, R82, V-RST4). A block has the
parameters it is given; when nothing is said it has the defaults of R4 and R66 (whose values are log entry 2's). -/
def Obligations.ParametersLegal : Prop :=
  (∀ Q : ParamSet, (∃ P : Params, Q.check = some P ∧ P.toParamSet = Q) ↔
    Q.opcodes.Nodup ∧ Q.ramCols ≤ 256 ∧ Q.ramPages ≤ 32 ∧ 0 < Q.tResLowCtrl ∧ Q.tResLowCtrl ≤ 10000) ∧
  (∀ Q : ParamSet, ¬Q.Legal → Q.check = none) ∧
  (∀ P : Params, (State.resetWith P).params = P) ∧ State.reset.params = Config.defaults ∧
  Config.defaults.tResLowCtrl = 10000 ∧ Config.defaults.ramCols = 128 ∧ Config.defaults.ramPages = 8 ∧
  Config.defaults.opcodes = [0xAE, 0x81, 0xD9, 0xDB, 0x40, 0xD3, 0xD5, 0xDA, 0xA0, 0xC0] ++
    [0xA8, 0x20, 0xA4, 0xA6, 0xAF, 0x21, 0x22]

/-! ## One step -/

/-- A step runs the host's next call: decoded, and taken off the queue (log entry 10). -/
def Obligations.StepRunsDecoded : Prop :=
  ∀ (s : State) (p : Packet) (rest : List Packet) (i : Instr), s.hung = false → s.requests = p :: rest →
    decode s.params p = .ok i → step s = exec i { s with requests := rest }

/-- The other steps: every line that is no instruction is refused by name: an unknown opcode, an op-select code that is not assigned
(R74), a command with operand bytes too few or too many, a call with a wrong number of arguments, FBWRITE of a value that is no
byte (the last three by log entry 16; the first, whatever the slave's decoder state and the admission, by log entry 26); a stuck
master never goes on (R163; log entry 8), and a block nobody calls does nothing (R57; the queue of calls is log entry 10). -/
def Obligations.StepOtherwise : Prop :=
  (∀ (s : State) (rest : List Packet) (p : Packet) (e : DecodeError), s.hung = false → s.requests = p :: rest →
    decode s.params p = .error e → step s = .refused (decodeRefusal e)) ∧
  (∀ (s : State) (rest : List Packet) (b : Byte) (bytes : List Byte), s.hung = false →
    s.requests = .command (b :: bytes) :: rest →
    (commandOfOpcode s.params b = none → step s = .refused (.unknownCommand b)) ∧
    (∀ m, commandOfOpcode s.params b = some m → bytes.length ≠ m.operands → step s = .refused .malformedRequest)) ∧
  (∀ (s : State) (rest : List Packet) (sel : BitVec 4) (args : List Int), s.hung = false →
    s.requests = .call sel args :: rest →
    (sel = 0x7 ∨ sel = 0xD ∨ sel = 0xE ∨ sel = 0xF → step s = .refused .unknownHostOp) ∧
    ((sel = 0x0 ∧ args.length ∉ [0, 1, 2, 5, 7]) ∨
     ((sel = 0x1 ∨ sel = 0x2 ∨ sel = 0x5 ∨ sel = 0x6 ∨ sel = 0xC) ∧ args.length ≠ 0) ∨
     (sel = 0x3 ∧ args.length ≠ 1 ∧ args.length ≠ 2) ∨ (sel = 0x8 ∧ args.length ≠ 1) ∨ (sel = 0x9 ∧ args.length ≠ 3) ∨
     ((sel = 0xA ∨ sel = 0xB) ∧ args.length ≠ 2) → step s = .refused .malformedRequest) ∧
    (∀ i v, sel = 0xB → args = [i, v] → v < 0 ∨ 255 < v → step s = .refused .notAByte)) ∧
  (∀ s : State, s.hung = true → step s = .next s) ∧ (∀ s : State, s.requests = [] → step s = .next s)

/-- A table word placed as the host's next call is what the next step runs, read with the block's opcode bytes; the words of the table
itself have the default ones (log entries 2 and 10). -/
def Obligations.TableWordRunsNext : Prop :=
  ∀ (s : State) (nbits w : Nat) (i : Instr),
    (decodeTableWordFor s.params nbits w = some i → step (s.withFetchWord nbits w) = exec i { s with hung := false }) ∧
    (s.params = Config.defaults → decodeTableWord nbits w = some i →
      step (s.withFetchWord nbits w) = exec i { s with hung := false })

/-! ## Power-on and the invariant -/

/-- Power-on (R42; the `_|_` values are decision D11's; the empty inputs are log entries 3, 4, 10): the master Uninit with no
geometry, no buffer and no pin level, nothing that the host saw, an empty trace and log, and a slave of which nothing is known, for
whatever parameters the block has; `State.reset` has the default ones (R4, log entry 2). -/
def Obligations.PowerOnState : Prop :=
  State.reset = State.resetWith Config.defaults ∧
  ∀ P : Params,
    (State.resetWith P).master = ⟨.uninit, none, none, [], ⟨none, none, none⟩⟩ ∧ (State.resetWith P).trace = [] ∧
    (State.resetWith P).log = [] ∧ (State.resetWith P).outcome = none ∧ (State.resetWith P).hung = false ∧
    (State.resetWith P).requests = [] ∧ (State.resetWith P).answers = [] ∧ (State.resetWith P).waits = [] ∧
    (State.resetWith P).slave =
      { params := P, phase := .unknown, resLowUs := none, dec := none, dispOn := none, contrast := none, precharge := none,
        vcomh := none, startLine := none, offset := none, clkdiv := none, compins := none, segRemap := none, comScan := none,
        mux := none, addrMode := none, entireOn := none, inverse := none, colStart := none, colEnd := none, colPtr := none,
        pageStart := none, pageEnd := none, pagePtr := none, ram := [] }

/-- The invariant holds at power-on, whatever the parameters (R42). -/
def Obligations.PowerOnMeetsInvariant : Prop := State.reset.Inv ∧ ∀ P : Params, (State.resetWith P).Inv

/-- Every step keeps the invariant: a legal geometry with exactly its N buffer bytes, windows and pointer inside the RAM, a
canonical RAM, nothing known of a slave without a valid reset, a decoder state once Ready (after a failed command byte by log entry
5, which does not use the `_|_` that R168 also allows), a reset pulse held long enough between operations (R11, R12, R20, R21, R36,
R37, R38; the pulse by R90 and R116). -/
def Obligations.StepKeepsInvariant : Prop := ∀ s t : State, s.Inv → step s = .next t → t.Inv

/-! ## The slave -/

/-- The reset line (R115; settling time and minimum pulse are decisions D9, D10; that the count of the low phase keeps its value at the
end of the pulse is log entry 12). -/
def Obligations.ResetLine : Prop :=
  ∀ S : Slave,
    S.onPin .res false = .ok { S with phase := .inReset, resLowUs := some 0 } ∧
    (S.phase ≠ .inReset → S.onPin .res true = .ok S) ∧
    (∀ t, S.phase = .inReset → S.resLowUs = some t → S.params.tResLowCtrl ≤ t →
      S.onPin .res true = .ok { Slave.powerOn S.params with phase := .ready, dec := some .idle, resLowUs := some t }) ∧
    (∀ t, S.phase = .inReset → S.resLowUs = some t → t < S.params.tResLowCtrl →
      S.onPin .res true = .error (.refuse .resetPulseTooShort))

/-- Rules R116 and R117: a wait lengthens the low phase of the reset line and does nothing else, at any other time nothing at all; a
level of chip-select or data/command-select, written or configured, reaches the wire and changes nothing in the slave; a
transmission reads the levels the wire then has. -/
def Obligations.WaitAndSelectLines : Prop :=
  ∀ s : State,
    (∀ d t, s.slave.phase = .inReset → s.slave.resLowUs = some t →
      s.deliver (.wait d) = .ok { s with slave := { s.slave with resLowUs := some (t + d) } }) ∧
    (∀ d, s.slave.phase ≠ .inReset → s.deliver (.wait d) = .ok s) ∧
    (∀ p v e, p = .cs ∨ p = .dc → e = .pin p v ∨ e = .pinCfg p v →
      s.deliver e = .ok { s with master := { s.master with pins := s.master.pins.set p (some v) } }) ∧
    (∀ bs, s.deliver (.tx bs) = (s.slave.receive s.master.pins bs).map (fun S => { s with slave := S }))

/-- The gate of a transmission (R118; the refusals are decision D15's). -/
def Obligations.TransmissionGate : Prop :=
  ∀ (S : Slave) (ps : Pins) (bs : List Byte),
    (S.phase ≠ .ready ∨ ps.res ≠ some true → S.receive ps bs = .error (.refuse .slaveNotReady)) ∧
    (S.phase = .ready → ps.res = some true → ps.cs ≠ some false → S.receive ps bs = .error (.refuse .txWhileDeselected)) ∧
    (S.phase = .ready → ps.res = some true → ps.cs = some false → S.receive ps bs = S.takeBytes ps.dc bs) ∧
    (∀ b, S.phase = .ready → ps = ⟨some false, none, some true⟩ → S.receive ps (b :: bs) = .error (.refuse .dcUnconfigured))

/-- The commands without operand, each one command-mode byte taken from Idle, each writing its one register (R120, R124, R128, R129,
R132, R133, R134) and nothing else (the frame rule R138, decision D12 of the spec, log entry 18). -/
def Obligations.NoOperandCommandEffects : Prop :=
  ∀ S : Slave, S.dec = some .idle →
    S.takeBytes (some false) [S.params.opcDisplayOff] = .ok { S with dispOn := some false } ∧
    S.takeBytes (some false) [S.params.opcSetStartLine0] = .ok { S with startLine := some 0 } ∧
    S.takeBytes (some false) [S.params.opcSegRemapNormal] = .ok { S with segRemap := some .normal } ∧
    S.takeBytes (some false) [S.params.opcComScanNormal] = .ok { S with comScan := some .normal } ∧
    S.takeBytes (some false) [S.params.opcEntireDisplayResume] = .ok { S with entireOn := some .resume } ∧
    S.takeBytes (some false) [S.params.opcInverseOff] = .ok { S with inverse := some .off } ∧
    S.takeBytes (some false) [S.params.opcDisplayOn] = .ok { S with dispOn := some true }

/-- The commands with one operand, two command-mode bytes taken from Idle, each writing the operand, whatever its value, to its one
register (R121, R122, R123, R125, R126, R127, R130, R131) and nothing else (the frame rule R138, decision D12 of the spec, log entry
18). -/
def Obligations.OperandCommandEffects : Prop :=
  ∀ (S : Slave) (a : Byte), S.dec = some .idle →
    S.takeBytes (some false) [S.params.opcSetContrast, a] = .ok { S with contrast := some a } ∧
    S.takeBytes (some false) [S.params.opcSetPrecharge, a] = .ok { S with precharge := some a } ∧
    S.takeBytes (some false) [S.params.opcSetVcomh, a] = .ok { S with vcomh := some a } ∧
    S.takeBytes (some false) [S.params.opcSetDisplayOffset, a] = .ok { S with offset := some a } ∧
    S.takeBytes (some false) [S.params.opcSetClockDiv, a] = .ok { S with clkdiv := some a } ∧
    S.takeBytes (some false) [S.params.opcSetComPins, a] = .ok { S with compins := some a } ∧
    S.takeBytes (some false) [S.params.opcSetMuxRatio, a] = .ok { S with mux := some a } ∧
    S.takeBytes (some false) [S.params.opcSetAddrMode, a] = .ok { S with addrMode := some a }

/-- The frame rule of command-mode bytes (R138, decision D12, log entry 18): never the RAM or the phase; the windows and the pointer
only with the last byte of a window command; at most the decoder state while operands are outstanding. -/
def Obligations.CommandByteFrame : Prop :=
  ∀ (S S' : Slave) (b : Byte), S.commandByte b = .ok S' →
    S'.ram = S.ram ∧ S'.phase = S.phase ∧ S'.resLowUs = S.resLowUs ∧
    ((∀ m a, S.dec ≠ some (.pendingEnd m a)) →
      S'.colStart = S.colStart ∧ S'.colEnd = S.colEnd ∧ S'.colPtr = S.colPtr ∧
      S'.pageStart = S.pageStart ∧ S'.pageEnd = S.pageEnd ∧ S'.pagePtr = S.pagePtr) ∧
    (S'.dec ≠ some .idle → S' = { S with dec := S'.dec })

/-- The data write (R137, R49; the advance is the spec's derived rule, decision D14): the cell under the pointer takes the byte,
every other cell is as before, the pointer advances inside the windows, nothing else changes. -/
def Obligations.DataWrite : Prop :=
  ∀ (S : Slave) (b : Byte) (cs ce cp ps pe pp : Nat), S.MapAt cs ce cp ps pe pp →
    ∃ S', S.dataByte b = .ok S' ∧
      S' = { S with
        ram := S.ram.write (ramAddr S.params pp cp) b
        colPtr := some (if cp = ce then cs else cp + 1)
        pagePtr := some (if cp = ce then (if pp = pe then ps else pp + 1) else pp) } ∧
      S'.cell pp cp = some b ∧ (∀ p c, c < S.params.ramCols → (p, c) ≠ (pp, cp) → S'.cell p c = S.cell p c)

/-- Where a data byte has no meaning (R137, R39; decisions D11, D14, D15): while an operand is pending, while a register of the
mapper holds `_|_`, in another addressing mode. That the fault names the addressing mode also where other mapper registers hold
`_|_`, as right after a reset, is the model's choice (log entry 22): R137 and R39 give no order. -/
def Obligations.DataWriteStops : Prop :=
  ∀ (S : Slave) (b : Byte),
    (∀ d, S.dec = some d → d ≠ .idle → S.dataByte b = .error (.refuse .dataWhilePending)) ∧
    (S.dec = some .idle → S.addrMode = none → S.dataByte b = .error (.fault (.unwrittenState .addrMode))) ∧
    (S.dec = some .idle →
      S.colStart = none ∨ S.colEnd = none ∨ S.colPtr = none ∨ S.pageStart = none ∨ S.pageEnd = none ∨ S.pagePtr = none →
      ∃ f, S.dataByte b = .error (.fault (.unwrittenState f))) ∧
    (∀ m cs ce cp ps pe pp, S.dec = some .idle → S.mapRegs = .ok ⟨m, cs, ce, cp, ps, pe, pp⟩ → m ≠ 0x00 →
      S.dataByte b = .error (.refuse .addrModeNotModelled))

/-- Burst mapping (R50 and the advance of R49, both derived by the spec; decision D14): with `w` columns and `h8` pages in the windows
and the pointer at position `j` of them (0 is their start), byte k goes to page ps + ((j + k) / w) mod h8 and column
cs + (j + k) mod w. So after n bytes the pointer is at position j + n, each cell of the windows holds the last byte sent to it,
every other cell is as before, and no other register changed. -/
def Obligations.BurstMapping : Prop :=
  ∀ (S : Slave) (bs : List Byte) (cs ce ps pe j : Nat),
    S.MapAt cs ce (cs + j % (ce - cs + 1)) ps pe (ps + j / (ce - cs + 1) % (pe - ps + 1)) →
    ∃ S', S.takeBytes (some true) bs = .ok S' ∧
      S' = { S with
        ram := S'.ram
        colPtr := some (cs + (j + bs.length) % (ce - cs + 1))
        pagePtr := some (ps + (j + bs.length) / (ce - cs + 1) % (pe - ps + 1)) } ∧
      (∀ k b, bs[k]? = some b → bs.length ≤ k + (ce - cs + 1) * (pe - ps + 1) →
        S'.cell (ps + (j + k) / (ce - cs + 1) % (pe - ps + 1)) (cs + (j + k) % (ce - cs + 1)) = some b) ∧
      (∀ p c, c < S.params.ramCols →
        (∀ k, k < bs.length →
          (p, c) ≠ (ps + (j + k) / (ce - cs + 1) % (pe - ps + 1), cs + (j + k) % (ce - cs + 1))) →
        S'.cell p c = S.cell p c)

/-! ## The controller commands and DATA as lines of a host program -/

/-- A command without operand, sent to a slave that takes it as an opcode, when its four events complete: one command frame, its
register, nothing else (R67, R76, R120, R124, R128, R129, R132, R133, R134; nothing else by decision D12, log entry 18; sent by the
master by log entry 9). -/
def Obligations.NoOperandCommandsRun : Prop :=
  ∀ s : State, s.CommandReady → s.Answers 4 →
    exec .displayOff s = .next (s.afterEvents (commandFrame s.params.opcDisplayOff) true false
      { s.slave with dispOn := some false } .unit) ∧
    exec .setStartLine0 s = .next (s.afterEvents (commandFrame s.params.opcSetStartLine0) true false
      { s.slave with startLine := some 0 } .unit) ∧
    exec .segRemapNormal s = .next (s.afterEvents (commandFrame s.params.opcSegRemapNormal) true false
      { s.slave with segRemap := some .normal } .unit) ∧
    exec .comScanNormal s = .next (s.afterEvents (commandFrame s.params.opcComScanNormal) true false
      { s.slave with comScan := some .normal } .unit) ∧
    exec .entireDisplayResume s = .next (s.afterEvents (commandFrame s.params.opcEntireDisplayResume) true false
      { s.slave with entireOn := some .resume } .unit) ∧
    exec .inverseOff s = .next (s.afterEvents (commandFrame s.params.opcInverseOff) true false
      { s.slave with inverse := some .off } .unit) ∧
    exec .displayOn s = .next (s.afterEvents (commandFrame s.params.opcDisplayOn) true false
      { s.slave with dispOn := some true } .unit)

/-- A command with one operand, when its eight events complete: two command frames, its register takes the operand, nothing else
(R68, R76, R121, R122, R123, R125, R126, R127, R130, R131; nothing else by decision D12, log entry 18; sent by the master by log
entry 9). -/
def Obligations.OperandCommandsRun : Prop :=
  ∀ (s : State) (a : Byte), s.CommandReady → s.Answers 8 →
    exec (.setContrast a) s = .next (s.afterEvents (commandFrame s.params.opcSetContrast ++ commandFrame a) true false
      { s.slave with contrast := some a } .unit) ∧
    exec (.setPrecharge a) s = .next (s.afterEvents (commandFrame s.params.opcSetPrecharge ++ commandFrame a) true false
      { s.slave with precharge := some a } .unit) ∧
    exec (.setVcomh a) s = .next (s.afterEvents (commandFrame s.params.opcSetVcomh ++ commandFrame a) true false
      { s.slave with vcomh := some a } .unit) ∧
    exec (.setDisplayOffset a) s = .next (s.afterEvents (commandFrame s.params.opcSetDisplayOffset ++ commandFrame a) true false
      { s.slave with offset := some a } .unit) ∧
    exec (.setClockDiv a) s = .next (s.afterEvents (commandFrame s.params.opcSetClockDiv ++ commandFrame a) true false
      { s.slave with clkdiv := some a } .unit) ∧
    exec (.setComPins a) s = .next (s.afterEvents (commandFrame s.params.opcSetComPins ++ commandFrame a) true false
      { s.slave with compins := some a } .unit) ∧
    exec (.setMuxRatio a) s = .next (s.afterEvents (commandFrame s.params.opcSetMuxRatio ++ commandFrame a) true false
      { s.slave with mux := some a } .unit) ∧
    exec (.setAddrMode a) s = .next (s.afterEvents (commandFrame s.params.opcSetAddrMode ++ commandFrame a) true false
      { s.slave with addrMode := some a } .unit)

/-- A window command, when its twelve events complete: three command frames; with legal bounds it sets the window and its pointer
and nothing else, with other bounds the slave gives it no meaning (R69, R76, R135, R136; the pointer load is derived, decision
D13; windows that do not start at 0 are decision D29's, inferred; the refusal is decision D15's; nothing else by decision D12, log
entry 18; sent by the master by log entry 9). -/
def Obligations.WindowCommandsRun : Prop :=
  ∀ (s : State) (a b : Byte), s.CommandReady → s.Answers 12 →
    (a.toNat ≤ b.toNat → b.toNat < s.params.ramCols →
      exec (.setColumnAddr a b) s =
        .next (s.afterEvents (commandFrame s.params.opcSetColumnAddr ++ commandFrame a ++ commandFrame b) true false
          { s.slave with colStart := some a.toNat, colEnd := some b.toNat, colPtr := some a.toNat } .unit)) ∧
    (¬(a.toNat ≤ b.toNat ∧ b.toNat < s.params.ramCols) →
      exec (.setColumnAddr a b) s = .refused (.badColumnWindow a b)) ∧
    (a.toNat ≤ b.toNat → b.toNat < s.params.ramPages →
      exec (.setPageAddr a b) s =
        .next (s.afterEvents (commandFrame s.params.opcSetPageAddr ++ commandFrame a ++ commandFrame b) true false
          { s.slave with pageStart := some a.toNat, pageEnd := some b.toNat, pagePtr := some a.toNat } .unit)) ∧
    (¬(a.toNat ≤ b.toNat ∧ b.toNat < s.params.ramPages) →
      exec (.setPageAddr a b) s = .refused (.badPageWindow a b))

/-- While operands are outstanding the slave takes the next command-mode byte as the next of them, whatever its value: the operand of a
command with one, the start bound and the end bound of a window command, the states of hazard H9 (R73, R119, R197); and a command of
one byte sent as a line is that byte (log entry 9). The commands' own effects leave the rest by decision D12 (log entry 18); the
pointer load and the refusal of a window are decisions D13 and D15, windows that do not start at 0 decision D29. -/
def Obligations.PendingTakesOpcodeAsOperand : Prop :=
  ∀ (s : State) (b : Byte), s.LinkUp → s.Answers 4 →
    (∀ m, s.slave.dec = some (.pendingOne m) →
      exec (.wcmd b.toNat none) s = .next (s.afterEvents (commandFrame b) true false
        (Slave.executeC2 m b { s.slave with dec := some .idle }) .unit)) ∧
    (∀ m, s.slave.dec = some (.pendingTwo m) →
      exec (.wcmd b.toNat none) s = .next (s.afterEvents (commandFrame b) true false
        { s.slave with dec := some (.pendingEnd m b) } .unit)) ∧
    (∀ a, s.slave.dec = some (.pendingEnd .setColumnAddr a) →
      (a.toNat ≤ b.toNat → b.toNat < s.params.ramCols →
        exec (.wcmd b.toNat none) s = .next (s.afterEvents (commandFrame b) true false
          { s.slave with dec := some .idle, colStart := some a.toNat, colEnd := some b.toNat, colPtr := some a.toNat } .unit)) ∧
      (¬(a.toNat ≤ b.toNat ∧ b.toNat < s.params.ramCols) → exec (.wcmd b.toNat none) s = .refused (.badColumnWindow a b))) ∧
    (∀ a, s.slave.dec = some (.pendingEnd .setPageAddr a) →
      (a.toNat ≤ b.toNat → b.toNat < s.params.ramPages →
        exec (.wcmd b.toNat none) s = .next (s.afterEvents (commandFrame b) true false
          { s.slave with dec := some .idle, pageStart := some a.toNat, pageEnd := some b.toNat, pagePtr := some a.toNat }
          .unit)) ∧
      (¬(a.toNat ≤ b.toNat ∧ b.toNat < s.params.ramPages) → exec (.wcmd b.toNat none) s = .refused (.badPageWindow a b))) ∧
    (∀ i, encode s.params i = .command [b] → exec i s = exec (.wcmd b.toNat none) s)

/-- A transmission to a slave that is not Ready, or whose reset line is not high, is refused, for every command and for DATA, when
the pin events before it complete (R118; the refusal is decision D15's; sent by the master by log entry 9). -/
def Obligations.UnreadySlaveRefused : Prop :=
  ∀ s : State, s.internalAdmitted = true → s.slave.phase ≠ .ready ∨ s.master.pins.res ≠ some true →
    (s.Answers 3 → ∀ (i : Instr) (bytes : List Byte), encode s.params i = .command bytes → exec i s = .refused .slaveNotReady) ∧
    (s.Answers 4 → ∀ b, exec (.data b) s = .refused .slaveNotReady)

/-- DATA, when its five events complete: one data frame, the cell under the pointer takes the byte, the pointer advances, nothing
else changes; and where the slave gives the byte no meaning, the step stops as it does (R70, R137, R49; in a data frame of one
byte by log entry 9; the advance is decision D14's). -/
def Obligations.DataRuns : Prop :=
  ∀ (s : State) (b : Byte), s.LinkUp → s.Answers 5 →
   (∀ e, s.slave.dataByte b = .error e → exec (.data b) s = e.answer) ∧
   ∀ cs ce cp ps pe pp : Nat, s.slave.MapAt cs ce cp ps pe pp →
    ∃ t, exec (.data b) s = .next t ∧
      t = s.afterEvents (dataFrame [b]) true true
        { s.slave with
          ram := s.slave.ram.write (ramAddr s.params pp cp) b
          colPtr := some (if cp = ce then cs else cp + 1)
          pagePtr := some (if cp = ce then (if pp = pe then ps else pp + 1) else pp) } .unit ∧
      t.slave.ram.read (ramAddr s.params pp cp) = some b ∧
      ∀ a, a ≠ ramAddr s.params pp cp → t.slave.ram.read a = s.slave.ram.read a

/-! ## The framer -/

/-- WCMD of one byte and with an operand, when its events complete: one command frame for each byte, the slave decodes each, and
nothing else changes; where the slave gives a byte no meaning the step stops as it does (R106, R107, R118). A first or second
argument outside [0,255] is refused on any free block, whatever its lifecycle, its pins and its slave (R113, decision D26; before the
admission by log entry 13). -/
def Obligations.WcmdRuns : Prop :=
  (∀ (s : State) (b a : Byte) (S : Slave), s.LinkUp →
    (s.Answers 4 → s.slave.commandByte b = .ok S →
      exec (.wcmd b.toNat none) s = .next (s.afterEvents (commandFrame b) true false S .unit)) ∧
    (s.Answers 8 → s.slave.takeBytes (some false) [b, a] = .ok S →
      exec (.wcmd b.toNat (some a.toNat)) s =
        .next (s.afterEvents (commandFrame b ++ commandFrame a) true false S .unit)) ∧
    (∀ e, s.Answers 4 → s.slave.commandByte b = .error e → exec (.wcmd b.toNat none) s = e.answer) ∧
    (∀ e, s.Answers 8 → s.slave.takeBytes (some false) [b, a] = .error e →
      exec (.wcmd b.toNat (some a.toNat)) s = e.answer)) ∧
  (∀ (s : State) (v : Int) (w : Option Int), s.hung = false →
    (v < 0 ∨ 255 < v) ∨ (∃ x, w = some x ∧ (x < 0 ∨ 255 < x)) → exec (.wcmd v w) s = .refused .notAByte)

/-- WBUF of a non-empty list of bytes, when its events complete: one data frame with the whole list as one burst, each byte a
data write in order, and nothing else changes; where the slave gives a byte no meaning the step stops as it does (R109, R118). An
empty list and a list with an element outside [0,255] are refused on any free block, whatever its lifecycle, its pins and its slave
(R113, decision D26; before the admission by log entry 13). -/
def Obligations.WbufRuns : Prop :=
  (∀ (s : State) (bs : List Byte) (S : Slave), s.LinkUp → s.Answers 5 →
    (bs ≠ [] → s.slave.takeBytes (some true) bs = .ok S →
      exec (.wbuf (bs.map (fun b => (b.toNat : Int)))) s = .next (s.afterEvents (dataFrame bs) true true S .unit)) ∧
    (∀ e, bs ≠ [] → s.slave.takeBytes (some true) bs = .error e →
      exec (.wbuf (bs.map (fun b => (b.toNat : Int)))) s = e.answer)) ∧
  (∀ s : State, s.hung = false →
    exec (.wbuf []) s = .refused .emptyBurst ∧
    (∀ (vs : List Int) (v : Int), v ∈ vs → v < 0 ∨ 255 < v → exec (.wbuf vs) s = .refused .notAByte))

/-- Every transmission of every instruction stands in a frame, whatever the outcome: it follows directly on chip-select low, that
on the level of data/command-select, with one byte if that level is low, and the next event, if there is one, is chip-select high
(R110). -/
def Obligations.TransmissionsAreFramed : Prop :=
  ∀ (i : Instr) (s t : State), s.Inv → exec i s = .next t →
    ∃ es, t.trace = s.trace ++ es ∧
      ∀ k bs o, es[k]? = some ⟨.tx bs, o⟩ →
        ∃ j v, k = j + 2 ∧ es[j]? = some ⟨.pin .dc v, .ok⟩ ∧ es[j + 1]? = some ⟨.pin .cs false, .ok⟩ ∧
          bs ≠ [] ∧ (v = false → bs.length = 1) ∧
          ∀ x, es[k + 1]? = some x → x.event = .pin .cs true

/-! ## RESET and INIT -/

/-- RESET, when its three pin events complete: the levels 1, 0, 1 with waits of at least 1 ms and 10 ms between them, any such
waits being possible (the inputs of log entry 4); the slave ends as after a valid reset; nothing else changes (R90, R91, R43; no
wait after the release by decision D9; the count of the low phase is kept by log entry 12). -/
def Obligations.ResetRuns : Prop :=
  ∀ s : State, s.internalAdmitted = true → s.Answers 3 → s.slave.LowPhaseHeld →
    ∃ d1 d2, 1000 ≤ d1 ∧ 10000 ≤ d2 ∧
      (∀ e1 e2 rest, s.waits = e1 :: e2 :: rest → d1 = 1000 + e1 ∧ d2 = 10000 + e2) ∧
      exec .reset s = .next { s with
        master := { s.master with pins := { s.master.pins with res := some true } }
        trace := s.trace ++
          okEntries [.pin .res true, .wait d1, .pin .res false, .wait d2, .pin .res true]
        slave := { Slave.powerOn s.params with phase := .ready, dec := some .idle, resLowUs := some d2 }
        answers := s.answers.drop 3
        waits := s.waits.drop 2
        outcome := some (.returned .unit) }

/-- Rule R93: whatever its outcome, RESET leaves chip-select, data/command-select, the frame buffer, the geometry and the lifecycle,
and all it emits are writes of the reset line and waits: it transmits no byte, reads nothing back and drives no supply. -/
def Obligations.ResetLeavesTheMaster : Prop :=
  ∀ s t : State, exec .reset s = .next t →
    t.master.pins.cs = s.master.pins.cs ∧ t.master.pins.dc = s.master.pins.dc ∧ t.master.fb = s.master.fb ∧
    t.master.width = s.master.width ∧ t.master.height = s.master.height ∧ t.master.life = s.master.life ∧
    ∃ es, t.trace = s.trace ++ es ∧ ∀ x ∈ es, (∃ v, x.event = .pin .res v) ∨ ∃ d, x.event = .wait d

/-- Rule R96: the 23 bytes of INIT, in order; and rule R72 for the COM-pins operand among them. -/
def Obligations.InitByteList : Prop :=
  (∀ (P : Params) (w h : Nat), initBytes P w h =
    [P.opcDisplayOff, P.opcSetContrast, 0xFF, P.opcSetPrecharge, 0xF1, P.opcSetVcomh, 0x40,
     P.opcSetStartLine0, P.opcSetDisplayOffset, 0x00, P.opcSetClockDiv, 0x80, P.opcSetComPins,
     Sys2Proof.Machine.compins w h, P.opcSegRemapNormal, P.opcComScanNormal, P.opcSetMuxRatio,
     BitVec.ofNat 8 (h - 1), P.opcSetAddrMode, 0x00, P.opcEntireDisplayResume, P.opcInverseOff,
     P.opcDisplayOn]) ∧
  (∀ w h : Nat, Sys2Proof.Machine.compins w h = if w ≠ 64 ∧ (h = 16 ∨ h = 32) then 0x02 else 0x12)

/-- INIT, when its 92 events complete: one command frame for each byte of InitBytes(W,H); the fourteen configuration registers
take the values of rule R44, the windows, the pointer and the RAM are left, nothing else changes (R95, R96, R44; decision D12, log
entry 18; on a block that a failed CONSTRUCT left unconstructed by log entry 24). -/
def Obligations.InitRuns : Prop :=
  ∀ (s : State) (w h : Nat), s.CommandReady → s.master.width = some w → s.master.height = some h → s.Answers 92 →
    exec .init s = .next (s.afterEvents ((initBytes s.params w h).flatMap commandFrame) true false
      { s.slave with
        dispOn := some true, contrast := some 0xFF, precharge := some 0xF1, vcomh := some 0x40, startLine := some 0,
        offset := some 0x00, clkdiv := some 0x80, compins := some (Sys2Proof.Machine.compins w h), segRemap := some .normal,
        comScan := some .normal, mux := some (BitVec.ofNat 8 (h - 1)), addrMode := some 0x00, entireOn := some .resume,
        inverse := some .off } .unit)

/-! ## CONSTRUCT, RENDER, CLEAR -/

/-- RENDER mirrors the buffer, when its 29 events complete: on a constructed block whose slave is Ready in mode 0x00 with its
decoder Idle, whatever the windows, the pointer and the RAM were before (also after a failed burst). The trace gains the two window
commands and the buffer verbatim as one burst; every cell of the window holds its buffer byte, every other cell is as before, the
pointer is back at (0,0), nothing else changes (R83, R51, R61, R170; the pointer rules are decisions D13 and D14; that the window
commands leave the other registers is decision D12, log entry 18). -/
def Obligations.RenderMirrorsBuffer : Prop :=
  ∀ (s : State) (w h : Nat), s.Constructed w h → s.CommandReady → s.slave.addrMode = some 0x00 → s.Answers 29 →
    ∃ t content, exec .render s = .next t ∧
      content.length = bufferSize w h ∧ (∀ k, k < bufferSize w h → content[k]? = s.master.fb.read k) ∧
      t = s.afterEvents
        ([s.params.opcSetColumnAddr, 0x00, BitVec.ofNat 8 (w - 1), s.params.opcSetPageAddr, 0x00,
          BitVec.ofNat 8 (h / 8 - 1)].flatMap commandFrame ++ dataFrame content) true true
        { s.slave with
          colStart := some 0, colEnd := some (w - 1), colPtr := some 0,
          pageStart := some 0, pageEnd := some (h / 8 - 1), pagePtr := some 0,
          ram := t.slave.ram } .unit ∧
      (∀ p c, p < h / 8 → c < w → t.slave.cell p c = s.master.fb.read (c + w * p)) ∧
      (∀ a, ¬InWindow s.params w h a → t.slave.ram.read a = s.slave.ram.read a)

/-- CLEAR, when its 29 events complete: the buffer is all zero and so is every cell of the window; the trace gains what RENDER
sends; nothing else changes (R84, R83; decisions D13 and D14; that the window commands leave the other registers is decision D12,
log entry 18). -/
def Obligations.ClearIsTotal : Prop :=
  ∀ (s : State) (w h : Nat), s.Constructed w h → s.CommandReady → s.slave.addrMode = some 0x00 → s.Answers 29 →
    ∃ t, exec .clear s = .next t ∧
      t = { s.afterEvents
        ([s.params.opcSetColumnAddr, 0x00, BitVec.ofNat 8 (w - 1), s.params.opcSetPageAddr, 0x00,
          BitVec.ofNat 8 (h / 8 - 1)].flatMap commandFrame ++ dataFrame (List.replicate (bufferSize w h) 0x00)) true true
        { s.slave with
          colStart := some 0, colEnd := some (w - 1), colPtr := some 0,
          pageStart := some 0, pageEnd := some (h / 8 - 1), pagePtr := some 0,
          ram := t.slave.ram } .unit with
        master := { s.master with
          pins := ⟨some true, some true, s.master.pins.res⟩, fb := Memory.filled (bufferSize w h) 0x00 } } ∧
      (∀ i, i < bufferSize w h → t.master.fb.read i = some 0x00) ∧
      (∀ p c, p < h / 8 → c < w → t.slave.cell p c = some 0x00) ∧
      (∀ a, ¬InWindow s.params w h a → t.slave.ram.read a = s.slave.ram.read a)

/-- CLEAR is total also when it fails: the buffer is all zero whatever became of its events (R84). -/
def Obligations.ClearZeroesEvenWhenItFails : Prop :=
  ∀ (s t : State) (w h : Nat), s.Constructed w h → exec .clear s = .next t →
    t.master.fb = Memory.filled (bufferSize w h) 0x00

/-- CONSTRUCT of a legal geometry, when its 127 pin and transmit events complete, from any block that is not constructed, whatever
an earlier failure left: it ends in the state of rule R44, with the trace of rule R80 (R80, R44, R90, R95, R83, R170, R187; the
reset, command, pointer and addressing decisions D9, D11, D12, D13, D14 of the spec; the count of the low phase, which R44 does not
list, is log entry 12). -/
def Obligations.ConstructBringsUp : Prop :=
  ∀ (s : State) (w h : Nat) (pins : PinAssignment), s.master.life = .uninit → s.slave.LowPhaseHeld → GeometryOk s.params w h →
    s.Answers 127 →
    ∃ t d1 d2, exec (.construct w h pins) s = .next t ∧ 1000 ≤ d1 ∧ 10000 ≤ d2 ∧
      t = { s with
        master := { life := .init, width := some w, height := some h, fb := Memory.filled (bufferSize w h) 0x00,
                    pins := ⟨some true, some true, some true⟩ }
        trace := s.trace ++ okEntries
          ([.pinCfg .cs true, .pinCfg .dc false, .pinCfg .res true] ++
           [.pin .res true, .wait d1, .pin .res false, .wait d2, .pin .res true] ++
           (initBytes s.params w h).flatMap commandFrame ++
           [s.params.opcSetColumnAddr, 0x00, BitVec.ofNat 8 (w - 1), s.params.opcSetPageAddr, 0x00,
            BitVec.ofNat 8 (h / 8 - 1)].flatMap commandFrame ++
           dataFrame (List.replicate (bufferSize w h) 0x00))
        slave :=
          { params := s.params, phase := .ready, resLowUs := some d2, dec := some .idle, dispOn := some true, contrast := some 0xFF,
            precharge := some 0xF1, vcomh := some 0x40, startLine := some 0, offset := some 0x00, clkdiv := some 0x80,
            compins := some (Sys2Proof.Machine.compins w h), segRemap := some .normal, comScan := some .normal,
            mux := some (BitVec.ofNat 8 (h - 1)), addrMode := some 0x00, entireOn := some .resume, inverse := some .off,
            colStart := some 0, colEnd := some (w - 1), colPtr := some 0, pageStart := some 0,
            pageEnd := some (h / 8 - 1), pagePtr := some 0, ram := t.slave.ram }
        answers := s.answers.drop 127
        waits := s.waits.drop 2
        outcome := some (.returned .unit) } ∧
      (∀ p c, p < h / 8 → c < w → t.slave.cell p c = some 0x00) ∧
      (∀ a, ¬InWindow s.params w h a → t.slave.ram.read a = none)

/-- The panel after a completed RENDER on a block in the configuration of the init stream: each pixel is lit exactly if its bit in
the buffer is 1 (R63, R47, R51; decisions D13, D14, D21). While a register the observation reads holds `_|_`, or in a defined image
the pixel's RAM cell does, the observation is the fault UnwrittenState (R39, decision D11; that the registers are read before
anything else is log entry 25). A pixel is shown only in the configuration of a geometry that a block can have, and inside it, and
by the observation only in the block's own (R63, D21; M.W and M.H by log entry 25). While an operation has not returned, and before
the first RENDER has ended, no pixel is shown (R54, R201, U18, decision D28; that the first RENDER has ended exactly when the block
is constructed, and that the registers alone decide, in whatever order the init commands were sent, of which U21 claims nothing, is
log entry 25). -/
def Obligations.PanelShowsBuffer : Prop :=
  (∀ (s t : State) (w h x y : Nat), s.Constructed w h → s.CommandReady → s.slave.initConfig w h = true → s.Answers 29 →
    exec .render s = .next t → x < w → y < h →
    ∃ b, pixelOf s.master.fb w x y = some b ∧ t.slave.panelPixel w h x y = .ok (.shown b) ∧
      t.observePanel x y = (.ok (.shown b), t)) ∧
  (∀ (S : Slave) (w h x y : Nat),
    S.dispOn = none ∨ S.contrast = none ∨ S.precharge = none ∨ S.vcomh = none ∨ S.startLine = none ∨ S.offset = none ∨
      S.clkdiv = none ∨ S.compins = none ∨ S.segRemap = none ∨ S.comScan = none ∨ S.mux = none ∨ S.addrMode = none ∨
      S.entireOn = none ∨ S.inverse = none ∨ S.colStart = none ∨ S.colEnd = none ∨ S.pageStart = none ∨ S.pageEnd = none →
    ∃ f, S.panelPixel w h x y = .error (.unwrittenState f)) ∧
  (∀ (S : Slave) (w h x y : Nat), S.initConfig w h = true → x < w → y < h →
    S.ram.read (ramAddr S.params (y / 8) x) = none → S.panelPixel w h x y = .error (.unwrittenState .ram)) ∧
  (∀ (S : Slave) (w h x y : Nat) (b : Bool), S.panelPixel w h x y = .ok (.shown b) →
    GeometryOk S.params w h ∧ S.initConfig w h = true ∧ x < w ∧ y < h) ∧
  (∀ (s : State) (x y : Nat) (b : Bool), (s.observePanel x y).1 = .ok (.shown b) →
    ∃ w h, s.master.width = some w ∧ s.master.height = some h ∧ GeometryOk s.params w h ∧ x < w ∧ y < h ∧
      s.slave.initConfig w h = true ∧ s.hung = false ∧ s.master.life = .init) ∧
  (∀ (s : State) (x y : Nat), s.hung = true ∨ s.master.life = .uninit →
    (s.observePanel x y).1 = .ok .notDefined ∨ ∃ f, (s.observePanel x y).1 = .error (.unwrittenState f))

/-! ## The frame-store port -/

/-- FILL (R150; its colour domain is decision D22's): every byte of the buffer, hence every pixel, takes the colour; nothing else
changes; another colour is refused. -/
def Obligations.FillRuns : Prop :=
  ∀ (s : State) (w h : Nat), s.Constructed w h →
    (∀ c : Bool, ∃ t, exec (.fill (if c then 1 else 0)) s = .next t ∧
      t = { s with
        master := { s.master with fb := Memory.filled (bufferSize w h) (if c then 0xFF else 0x00) }
        outcome := some (.returned .unit) } ∧
      ∀ x y, x < w → y < h → pixelOf t.master.fb w x y = some c) ∧
    (∀ c : Int, c ≠ 0 → c ≠ 1 → exec (.fill c) s = .refused .badColour)

/-- PSET (R151, R47; decision D22): the pixel takes the colour, every other pixel of the geometry and every other byte of the buffer
keeps its value, nothing else changes. -/
def Obligations.PsetRuns : Prop :=
  ∀ (s : State) (w h x y : Nat) (c : Bool), s.Constructed w h → x < w → y < h →
    ∃ t, exec (.pset x y (if c then 1 else 0)) s = .next t ∧
      t = { s with master := { s.master with fb := t.master.fb }, outcome := some (.returned .unit) } ∧
      pixelOf t.master.fb w x y = some c ∧
      (∀ x' y', x' < w → y' < h → (x', y') ≠ (x, y) → pixelOf t.master.fb w x' y' = pixelOf s.master.fb w x' y') ∧
      (∀ a, a ≠ pixelIndex w x y → t.master.fb.read a = s.master.fb.read a)

/-- PGET (R152, R47; decision D22) returns the pixel and changes nothing. -/
def Obligations.PgetRuns : Prop :=
  ∀ (s : State) (w h x y : Nat), s.Constructed w h → x < w → y < h →
    ∃ b, pixelOf s.master.fb w x y = some b ∧
      exec (.pget x y) s = .next { s with outcome := some (.returned (.bit b)) }

/-- FBWRITE (R153; decision D22): the byte at the index takes the value, every other byte keeps its own, nothing else changes; an
index outside the buffer is refused. -/
def Obligations.FbwriteRuns : Prop :=
  ∀ (s : State) (w h : Nat) (v : Byte), s.Constructed w h →
    (∀ i : Nat, i < bufferSize w h → ∃ t, exec (.fbwrite i v) s = .next t ∧
      t = { s with master := { s.master with fb := t.master.fb }, outcome := some (.returned .unit) } ∧
      t.master.fb.read i = some v ∧ ∀ a, a ≠ i → t.master.fb.read a = s.master.fb.read a) ∧
    (∀ i : Int, i < 0 ∨ (bufferSize w h : Int) ≤ i → exec (.fbwrite i v) s = .refused .indexOutOfRange)

/-- RAWBYTES (R154; decision D22) returns the N bytes of the buffer in ascending index and changes nothing. -/
def Obligations.RawbytesRuns : Prop :=
  ∀ (s : State) (w h : Nat), s.Constructed w h →
    ∃ bs : List Byte, bs.length = w * h / 8 ∧ (∀ i, i < w * h / 8 → bs[i]? = s.master.fb.read i) ∧
      exec .rawbytes s = .next { s with outcome := some (.returned (.bytes bs)) }

/-- What the port refuses: a pixel outside the geometry, a colour other than 0 and 1 (R151, R152; decision D22; the pixel before the
colour by log entry 13), and a write of the buffer while an operation has not returned, before any other refusal of the port (R62; a
stuck master is log entry 8's, the order log entry 13's). -/
def Obligations.PortRefusals : Prop :=
  ∀ s : State,
    (∀ (w h : Nat) (x y c : Int), s.Constructed w h → x < 0 ∨ (w : Int) ≤ x ∨ y < 0 ∨ (h : Int) ≤ y →
      exec (.pset x y c) s = .refused .pixelOutOfRange ∧ exec (.pget x y) s = .refused .pixelOutOfRange) ∧
    (∀ (w h x y : Nat) (c : Int), s.Constructed w h → x < w → y < h → c ≠ 0 → c ≠ 1 →
      exec (.pset x y c) s = .refused .badColour) ∧
    (s.hung = true →
      (∀ c, exec (.fill c) s = .refused .fbWriteDuringOperation) ∧
      (∀ x y c, exec (.pset x y c) s = .refused .fbWriteDuringOperation) ∧
      (∀ i v, exec (.fbwrite i v) s = .refused .fbWriteDuringOperation))

/-- The port never reaches the wire or the slave: a write of the buffer is not visible in the RAM until the next RENDER (R58). -/
def Obligations.PortLeavesTheWire : Prop :=
  ∀ (i : Instr) (s t : State),
    (∃ c, i = .fill c) ∨ (∃ x y c, i = .pset x y c) ∨ (∃ x y, i = .pget x y) ∨ (∃ k v, i = .fbwrite k v) ∨ i = .rawbytes →
    exec i s = .next t →
    t.trace = s.trace ∧ t.slave = s.slave ∧ t.master.pins = s.master.pins ∧ t.master.life = s.master.life ∧
    t.master.width = s.master.width ∧ t.master.height = s.master.height ∧ t.log = s.log ∧ t.hung = s.hung ∧
    t.answers = s.answers ∧ t.waits = s.waits

/-! ## Admission -/

/-- The lifecycle table (R85; decisions D19, D27): who is refused on a constructed block, on one that is not, and on one with a pin
that no completed PinCfg of the trace configured (log entry 14); and once all three pins are configured the direct operations are
admitted. NotConstructed comes before BadColour, PixelOutOfRange and IndexOutOfRange by log entry 13; for the controller commands
and DATA see log entry 9, for INIT without a geometry log entry 15. -/
def Obligations.LifecycleTable : Prop :=
  ∀ s : State, s.hung = false →
    (s.master.life = .init → ∀ w h pins, exec (.construct w h pins) s = .refused .alreadyConstructed) ∧
    (s.master.life = .uninit →
      exec .render s = .refused .notConstructed ∧ exec .clear s = .refused .notConstructed ∧
      exec .rawbytes s = .refused .notConstructed ∧
      (∀ c, exec (.fill c) s = .refused .notConstructed) ∧ (∀ x y c, exec (.pset x y c) s = .refused .notConstructed) ∧
      (∀ x y, exec (.pget x y) s = .refused .notConstructed) ∧
      (∀ i v, exec (.fbwrite i v) s = .refused .notConstructed)) ∧
    (∀ p : Pin, s.master.life = .uninit → (∀ x ∈ s.trace, ∀ v, x ≠ ⟨.pinCfg p v, .ok⟩) →
      exec .reset s = .refused .pinsNotConfigured ∧ exec .init s = .refused .pinsNotConfigured ∧
      (∀ b : Byte, exec (.wcmd b.toNat none) s = .refused .pinsNotConfigured) ∧
      (∀ b a : Byte, exec (.wcmd b.toNat (some a.toNat)) s = .refused .pinsNotConfigured) ∧
      (∀ bs : List Byte, bs ≠ [] →
        exec (.wbuf (bs.map (fun b => (b.toNat : Int)))) s = .refused .pinsNotConfigured) ∧
      (∀ b, exec (.data b) s = .refused .pinsNotConfigured) ∧
      (∀ i bytes, encode s.params i = .command bytes → exec i s = .refused .pinsNotConfigured)) ∧
    (s.master.life = .init ∨ (∀ p : Pin, ∃ v, ⟨.pinCfg p v, .ok⟩ ∈ s.trace) → s.internalAdmitted = true) ∧
    (s.internalAdmitted = true → s.master.width = none ∨ s.master.height = none → exec .init s = .refused .notConstructed)

/-- A geometry larger than the RAM, when it passes the checks (R82; decision D5). -/
def Obligations.GeometryBoundRefused : Prop :=
  ∀ (s : State) (w h : Int) (pins : PinAssignment), s.hung = false → s.master.life = .uninit →
    0 < w → 0 < h → h % 8 = 0 → (s.params.ramCols : Int) < w ∨ 8 * (s.params.ramPages : Int) < h →
    exec (.construct w h pins) s = .refused .geometryExceedsRam

/-! ## Exceptions and hangs -/

/-- The three configuration errors and their order (R81, R161, R164, R165; the order is decision D6's): the exception is taken with
its cause and argument, before anything is written and before any event. -/
def Obligations.ConfigErrorsTaken : Prop :=
  ∀ (s : State) (w h : Int) (pins : PinAssignment), s.hung = false → s.master.life = .uninit →
    (w ≤ 0 → exec (.construct w h pins) s = .next { s with
      log := s.log ++ [.exception (.configError .widthNonpositive w)]
      outcome := some (.raised (.configError .widthNonpositive w)) }) ∧
    (0 < w → h ≤ 0 → exec (.construct w h pins) s = .next { s with
      log := s.log ++ [.exception (.configError .heightNonpositive h)]
      outcome := some (.raised (.configError .heightNonpositive h)) }) ∧
    (0 < w → 0 < h → h % 8 ≠ 0 → exec (.construct w h pins) s = .next { s with
      log := s.log ++ [.exception (.configError .heightNotMultipleOf8 h)]
      outcome := some (.raised (.configError .heightNotMultipleOf8 h)) })

/-- Rule R161: a configuration error comes only from CONSTRUCT, only from its three checks, with its cause and offending argument,
and changes nothing but the log and the outcome the host sees. -/
def Obligations.ConfigErrorOnlyFromConstruct : Prop :=
  ∀ (i : Instr) (s t : State) (cause : ConfigCause) (arg : Int), exec i s = .next t →
    t.log = s.log ++ [.exception (.configError cause arg)] →
    t = { s with log := t.log, outcome := some (.raised (.configError cause arg)) } ∧
    ∃ w h pins, i = .construct w h pins ∧
      ((cause = .widthNonpositive ∧ arg = w ∧ w ≤ 0) ∨ (cause = .heightNonpositive ∧ arg = h ∧ h ≤ 0) ∨
       (cause = .heightNotMultipleOf8 ∧ arg = h ∧ h % 8 ≠ 0))

/-- How every instruction of a free master ends (R16, R162, R163, R165, R166, R167, R180): the events before the last all
completed; it returned and nothing is logged; or a configuration error was taken without any event; or the last event failed, the
TransmissionError with its position is logged and no event follows it; or the last event hangs and the master is stuck. -/
def Obligations.OperationOutcomes : Prop :=
  ∀ (i : Instr) (s t : State), s.hung = false → exec i s = .next t →
    ∃ es, (∀ x ∈ es, x.outcome = EventOutcome.ok) ∧
      ((∃ r, t.outcome = some (.returned r) ∧ t.trace = s.trace ++ es ∧ t.log = s.log ∧ t.hung = false) ∨
       (∃ c a, t.outcome = some (.raised (.configError c a)) ∧ t.trace = s.trace ∧
          t.log = s.log ++ [.exception (.configError c a)] ∧ t.hung = false) ∨
       (∃ e, t.outcome = some (.raised (.transmissionError (s.trace ++ es).length e)) ∧
          t.trace = s.trace ++ es ++ [⟨e, .fail⟩] ∧
          t.log = s.log ++ [.exception (.transmissionError (s.trace ++ es).length e)] ∧ t.hung = false) ∨
       (∃ e, t.outcome = some .hangs ∧ t.trace = s.trace ++ es ++ [⟨e, .hang⟩] ∧ t.log = s.log ∧ t.hung = true))

/-- After a hang no exception was raised, no later event is emitted, and the operation never returns (R163); a step, and every call the
host might still make that is not refused, answers the same stuck state (log entry 8). -/
def Obligations.HangNeverReturns : Prop :=
  ∀ (i : Instr) (s t : State), s.hung = false → exec i s = .next t → t.outcome = some .hangs →
    t.log = s.log ∧ step t = .next t ∧ ∀ j u, exec j t = .next u → u = t

/-- What a failed event leaves (R168; decision D16): the written pin is `_|_`, a failed transmission leaves chip-select asserted, and
the geometry, the buffer and the lifecycle of a constructed block are untouched but for CLEAR's zeros. After a failed write of the
reset line the slave is as at power-on or as before, as the environment drew, after one of another line it is as before, in any
operation and, as the case of its first event, in RESET (log entry 7). -/
def Obligations.FailedEventLines : Prop :=
  (∀ (i : Instr) (s t : State) (pos : Nat) (e : Event), s.hung = false → exec i s = .next t →
    t.outcome = some (.raised (.transmissionError pos e)) →
    (∀ p v, e = .pin p v ∨ e = .pinCfg p v → t.master.pins.get p = none) ∧
    (∀ bs, e = .tx bs → t.master.pins.cs = some false) ∧
    t.master.life = s.master.life ∧
    (s.master.life = .init → t.master.width = s.master.width ∧ t.master.height = s.master.height) ∧
    (s.master.life = .init → i ≠ .clear → t.master.fb = s.master.fb)) ∧
  (∀ (s : State) (p : Pin) (v : Level) (e : Event) (drawn : List Bool) (rest : List Answer), e = .pin p v ∨ e = .pinCfg p v →
    s.answers = .fail drawn :: rest →
    emit e s = .raised (.transmissionError s.trace.length e) { s with
      master := { s.master with pins := s.master.pins.set p none }
      trace := s.trace ++ [⟨e, .fail⟩]
      slave := if p = .res ∧ drawn.head? = some true then Slave.powerOn s.params else s.slave
      answers := rest }) ∧
  (∀ (s : State) (drawn : List Bool) (rest : List Answer), s.hung = false → s.internalAdmitted = true →
    s.answers = .fail drawn :: rest →
    exec .reset s = .next { s with
      master := { s.master with pins := { s.master.pins with res := none } }
      trace := s.trace ++ [⟨.pin .res true, .fail⟩]
      slave := if drawn.head? = some true then Slave.powerOn s.params else s.slave
      log := s.log ++ [.exception (.transmissionError s.trace.length (.pin .res true))]
      outcome := some (.raised (.transmissionError s.trace.length (.pin .res true)))
      answers := rest })

/-- A failed transmission of a command byte (R168; decision D16, log entry 5): the byte was not received, or it was, as the
environment drew; chip-select is left asserted. -/
def Obligations.FailedCommandByte : Prop :=
  ∀ (s : State) (b : Byte) (drawn : List Bool) (rest : List Answer) (S : Slave), s.LinkUp → s.hung = false →
    s.answers = .ok :: .ok :: .fail drawn :: rest →
    (drawn.head? = some true → s.slave.commandByte b = .ok S) → (drawn.head? ≠ some true → S = s.slave) →
    exec (.wcmd b.toNat none) s = .next { s with
      master := { s.master with pins := ⟨some false, some false, s.master.pins.res⟩ }
      trace := s.trace ++ okEntries [.pin .dc false, .pin .cs false] ++ [⟨.tx [b], .fail⟩]
      slave := S
      log := s.log ++ [.exception (.transmissionError (s.trace.length + 2) (.tx [b]))]
      outcome := some (.raised (.transmissionError (s.trace.length + 2) (.tx [b])))
      answers := rest }

/-- What a RENDER that fails leaves of the RAM, in the three cases of R169 (decision D16): its burst fails (log entry 6), and every
cell of the window holds its old value or the new byte for its position, every other cell is as before, the pointer is `_|_`, the
windows are those of RENDER, chip-select is left asserted, the buffer is untouched and the exception is logged; an earlier event
fails, and the RAM is unchanged; the closing chip-select write fails, and the RAM is mirrored but chip-select is `_|_`. And a burst
of WBUF or DATA that fails, which log entry 6 treats alike: every cell keeps its value or takes a byte sent to it, the pointer is
`_|_`, nothing else of the slave changes. (What RENDER's window commands do and leave, and where each byte goes, are decisions D12,
D13 and D14; log entry 18.) -/
def Obligations.FailedBurstMixesFrame : Prop :=
  (∀ (s : State) (w h : Nat) (drawn : List Bool) (rest : List Answer), s.Constructed w h → s.CommandReady →
    s.slave.addrMode = some 0x00 → s.answers = List.replicate 27 .ok ++ .fail drawn :: rest →
    ∃ t content, exec .render s = .next t ∧ s.fbBytes (bufferSize w h) = .ok content ∧
      t.slave = { s.slave with
        colStart := some 0, colEnd := some (w - 1), colPtr := none,
        pageStart := some 0, pageEnd := some (h / 8 - 1), pagePtr := none, ram := t.slave.ram } ∧
      (∀ p c, p < h / 8 → c < w →
        t.slave.cell p c = s.slave.cell p c ∨ t.slave.cell p c = s.master.fb.read (c + w * p)) ∧
      (∀ a, ¬InWindow s.params w h a → t.slave.ram.read a = s.slave.ram.read a) ∧
      t.master = { s.master with pins := ⟨some false, some true, s.master.pins.res⟩ } ∧
      t.log = s.log ++ [.exception (.transmissionError (s.trace.length + 27) (.tx content))]) ∧
  (∀ (s t : State) (w h pos : Nat) (e : Event), s.Constructed w h → exec .render s = .next t →
    t.outcome = some (.raised (.transmissionError pos e)) → pos < s.trace.length + 27 → t.slave.ram = s.slave.ram) ∧
  (∀ (s : State) (w h : Nat) (drawn : List Bool) (rest : List Answer), s.Constructed w h → s.CommandReady →
    s.slave.addrMode = some 0x00 → s.answers = List.replicate 28 .ok ++ .fail drawn :: rest →
    ∃ t, exec .render s = .next t ∧
      t.outcome = some (.raised (.transmissionError (s.trace.length + 28) (.pin .cs true))) ∧
      (∀ p c, p < h / 8 → c < w → t.slave.cell p c = s.master.fb.read (c + w * p)) ∧
      (∀ a, ¬InWindow s.params w h a → t.slave.ram.read a = s.slave.ram.read a) ∧
      t.master = { s.master with pins := ⟨none, some true, s.master.pins.res⟩ }) ∧
  (∀ (s : State) (bs : List Byte) (cs ce ps pe j : Nat) (drawn : List Bool) (rest : List Answer), s.LinkUp → s.hung = false →
    bs ≠ [] → s.slave.MapAt cs ce (cs + j % (ce - cs + 1)) ps pe (ps + j / (ce - cs + 1) % (pe - ps + 1)) →
    s.answers = .ok :: .ok :: .ok :: .fail drawn :: rest →
    ∃ t, exec (.wbuf (bs.map (fun b => (b.toNat : Int)))) s = .next t ∧ (∀ b, bs = [b] → exec (.data b) s = .next t) ∧
      t = { s with
        master := { s.master with pins := ⟨some false, some true, s.master.pins.res⟩ }
        trace := s.trace ++ okEntries [.pin .cs true, .pin .dc true, .pin .cs false] ++ [⟨.tx bs, .fail⟩]
        slave := { s.slave with colPtr := none, pagePtr := none, ram := t.slave.ram }
        log := s.log ++ [.exception (.transmissionError (s.trace.length + 3) (.tx bs))]
        outcome := some (.raised (.transmissionError (s.trace.length + 3) (.tx bs)))
        answers := rest } ∧
      (∀ p c, c < s.params.ramCols → t.slave.cell p c = s.slave.cell p c ∨
        ∃ k b, bs[k]? = some b ∧ p = ps + (j + k) / (ce - cs + 1) % (pe - ps + 1) ∧ c = cs + (j + k) % (ce - cs + 1) ∧
          t.slave.cell p c = some b))

/-! ## Rules of the whole machine -/

/-- Rule R10: the block is Uninit at power-on, becomes Init exactly when a CONSTRUCT returns without exception, and nothing sets it
back. -/
def Obligations.LifecycleRule : Prop :=
  State.reset.master.life = .uninit ∧
  ∀ (i : Instr) (s t : State), exec i s = .next t →
    (t.master.life = .init ↔ s.master.life = .init ∨
      (s.hung = false ∧ t.outcome = some (.returned .unit) ∧ ∃ w h pins, i = .construct w h pins))

/-- The geometry of a constructed block never changes, and its buffer never changes length (R11, R12); and no instruction changes the
parameters of the block, which are no state of it (R4). -/
def Obligations.GeometryIsImmutable : Prop :=
  (∀ (i : Instr) (s t : State), exec i s = .next t → t.params = s.params) ∧
  ∀ (i : Instr) (s t : State), s.Inv → s.master.life = .init → exec i s = .next t →
    t.master.width = s.master.width ∧ t.master.height = s.master.height ∧
    t.master.fb.map Prod.fst = s.master.fb.map Prod.fst

/-- Only CONSTRUCT, CLEAR, FILL, PSET and FBWRITE write the frame buffer, whatever the outcome (R12, R62). -/
def Obligations.BufferWriters : Prop :=
  ∀ (i : Instr) (s t : State), exec i s = .next t → t.master.fb ≠ s.master.fb →
    (∃ w h pins, i = .construct w h pins) ∨ i = .clear ∨ (∃ c, i = .fill c) ∨ (∃ x y c, i = .pset x y c) ∨
    (∃ k v, i = .fbwrite k v)

/-- Only data bytes and a reset pulse change the display RAM, whatever the outcome: no command, no WCMD, no INIT and no operation of
the frame-store port (R38, R45, R138; decision D12, log entry 7). -/
def Obligations.RamWriters : Prop :=
  ∀ (i : Instr) (s t : State), exec i s = .next t → t.slave.ram ≠ s.slave.ram →
    (∃ b, i = .data b) ∨ (∃ bs, i = .wbuf bs) ∨ i = .render ∨ i = .clear ∨ i = .reset ∨
    (∃ w h pins, i = .construct w h pins)

/-- The trace only grows (R18). The fault log is never cleared, and gains every exception that an instruction of a free master raises
(and in a step nothing but that one), every fault of a panel observation (which changes nothing else, R39), and every fault and every
refusal of a step (R180, decision D16; that a step's fault or refusal is the last entry, the run being over, and that a run goes on
after an observation that faults, is log entry 20). An observation that does not fault changes nothing; that it answers notDefined
where no image is claimed (`State.imageClaimed`), in the stuck state and on a block that is not constructed, is the model's choice
(log entry 25): U18, R54 and R201 make no claim there. -/
def Obligations.TraceAndLogOnlyGrow : Prop :=
  (∀ (s t : State), step s = .next t → (∃ es, t.trace = s.trace ++ es) ∧ ∃ xs, t.log = s.log ++ xs ∧ xs.length ≤ 1 ∧
    ∀ x ∈ xs, ∃ y, x = .exception y ∧ t.outcome = some (.raised y)) ∧
  (∀ (i : Instr) (s t : State) (y : Exception), s.hung = false → exec i s = .next t → t.outcome = some (.raised y) →
    t.log = s.log ++ [.exception y]) ∧
  (∀ (s : State) (x y : Nat),
    (∀ p, s.slave.panelPixel s.panelSize.1 s.panelSize.2 x y = .ok p →
      s.observePanel x y = (.ok (if s.imageClaimed then p else .notDefined), s)) ∧
    (∀ f, s.slave.panelPixel s.panelSize.1 s.panelSize.2 x y = .error f →
      s.observePanel x y = (.error f, { s with log := s.log ++ [.fault f] }))) ∧
  (∀ (s : State) (before after : List Act), ∃ xs, faultLog (before ++ after) s = faultLog before s ++ xs) ∧
  (∀ (s : State) (acts : List Act),
    (∀ f, step s = .fault f → faultLog (.step :: acts) s = s.log ++ [.fault f]) ∧
    (∀ r, step s = .refused r → faultLog (.step :: acts) s = s.log ++ [.refusal r]) ∧
    (∀ x y f, s.slave.panelPixel s.panelSize.1 s.panelSize.2 x y = .error f →
      ∃ xs, faultLog (.observe x y :: acts) s = s.log ++ [.fault f] ++ xs))

/-- The pin levels after an operation that transmitted and returned (R86, derived by the spec): chip-select and reset high,
data/command-select high after a data frame, low after command frames. -/
def Obligations.PinLevelsAfterReturn : Prop :=
  ∀ (i : Instr) (s t : State) (r : Result), s.hung = false → exec i s = .next t → t.outcome = some (.returned r) →
    ((∃ b a, i = .wcmd b a) ∨ i = .init → t.master.pins = ⟨some true, some false, some true⟩) ∧
    (i = .render ∨ i = .clear ∨ (∃ bs, i = .wbuf bs) ∨ (∃ w h pins, i = .construct w h pins) →
      t.master.pins = ⟨some true, some true, some true⟩)
end

