-- ==== Sys2Proof/Laws/Encoding.lean ====
section
/-! SUPPORT. Laws/Encoding.lean: the opcode bytes select the commands, whatever legal values the parameters give them
(30_encoding.md rules R66, R73, R78). -/

namespace Sys2Proof

/-- The opcode parameters are the opcodes of the 17 commands, in the order of rule R66. -/
theorem opcodes_eq (P : Params) : P.opcodes = Command.all.map (Command.opcode P) := rfl

/-- Every command is one of the 17. -/
theorem Command.mem_all (m : Command) : m ∈ Command.all := by
  rcases m with m | m | m <;> cases m <;> decide

/-- Looking up the key of an element finds that element, where keys are pairwise distinct. -/
theorem find_key {α β : Type} [BEq β] [LawfulBEq β] {f : α → β} {l : List α} (hn : (l.map f).Nodup) {a : α} (ha : a ∈ l) :
    l.find? (fun x => f x == f a) = some a := by
  induction l with
  | nil => cases ha
  | cons x l ih =>
    rw [List.map_cons, List.nodup_cons] at hn
    rcases List.mem_cons.mp ha with rfl | ha
    · simp
    · have hne : f x ≠ f a := fun h => hn.1 (h ▸ List.mem_map_of_mem ha)
      simpa [hne] using ih hn.2 ha

/-- The opcode of a command selects that command (R78). -/
@[simp] theorem commandOfOpcode_opcode (P : Params) (m : Command) : commandOfOpcode P (m.opcode P) = some m :=
  find_key (by rw [← opcodes_eq]; exact P.legal.1) m.mem_all

theorem opcode_of_commandOfOpcode {P : Params} {b : Byte} {m : Command} (h : commandOfOpcode P b = some m) : m.opcode P = b := by
  simpa using List.find?_some h

/-! Each parameter selects its command. -/

@[simp] theorem commandOfOpcode_displayOff (P : Params) : commandOfOpcode P P.opcDisplayOff = some (.c1 .displayOff) :=
  commandOfOpcode_opcode P (.c1 .displayOff)
@[simp] theorem commandOfOpcode_setStartLine0 (P : Params) : commandOfOpcode P P.opcSetStartLine0 = some (.c1 .setStartLine0) :=
  commandOfOpcode_opcode P (.c1 .setStartLine0)
@[simp] theorem commandOfOpcode_segRemapNormal (P : Params) : commandOfOpcode P P.opcSegRemapNormal = some (.c1 .segRemapNormal) :=
  commandOfOpcode_opcode P (.c1 .segRemapNormal)
@[simp] theorem commandOfOpcode_comScanNormal (P : Params) : commandOfOpcode P P.opcComScanNormal = some (.c1 .comScanNormal) :=
  commandOfOpcode_opcode P (.c1 .comScanNormal)
@[simp] theorem commandOfOpcode_entireDisplayResume (P : Params) : commandOfOpcode P P.opcEntireDisplayResume = some (.c1 .entireDisplayResume) :=
  commandOfOpcode_opcode P (.c1 .entireDisplayResume)
@[simp] theorem commandOfOpcode_inverseOff (P : Params) : commandOfOpcode P P.opcInverseOff = some (.c1 .inverseOff) :=
  commandOfOpcode_opcode P (.c1 .inverseOff)
@[simp] theorem commandOfOpcode_displayOn (P : Params) : commandOfOpcode P P.opcDisplayOn = some (.c1 .displayOn) :=
  commandOfOpcode_opcode P (.c1 .displayOn)
@[simp] theorem commandOfOpcode_setContrast (P : Params) : commandOfOpcode P P.opcSetContrast = some (.c2 .setContrast) :=
  commandOfOpcode_opcode P (.c2 .setContrast)
@[simp] theorem commandOfOpcode_setPrecharge (P : Params) : commandOfOpcode P P.opcSetPrecharge = some (.c2 .setPrecharge) :=
  commandOfOpcode_opcode P (.c2 .setPrecharge)
@[simp] theorem commandOfOpcode_setVcomh (P : Params) : commandOfOpcode P P.opcSetVcomh = some (.c2 .setVcomh) :=
  commandOfOpcode_opcode P (.c2 .setVcomh)
@[simp] theorem commandOfOpcode_setDisplayOffset (P : Params) : commandOfOpcode P P.opcSetDisplayOffset = some (.c2 .setDisplayOffset) :=
  commandOfOpcode_opcode P (.c2 .setDisplayOffset)
@[simp] theorem commandOfOpcode_setClockDiv (P : Params) : commandOfOpcode P P.opcSetClockDiv = some (.c2 .setClockDiv) :=
  commandOfOpcode_opcode P (.c2 .setClockDiv)
@[simp] theorem commandOfOpcode_setComPins (P : Params) : commandOfOpcode P P.opcSetComPins = some (.c2 .setComPins) :=
  commandOfOpcode_opcode P (.c2 .setComPins)
@[simp] theorem commandOfOpcode_setMuxRatio (P : Params) : commandOfOpcode P P.opcSetMuxRatio = some (.c2 .setMuxRatio) :=
  commandOfOpcode_opcode P (.c2 .setMuxRatio)
@[simp] theorem commandOfOpcode_setAddrMode (P : Params) : commandOfOpcode P P.opcSetAddrMode = some (.c2 .setAddrMode) :=
  commandOfOpcode_opcode P (.c2 .setAddrMode)
@[simp] theorem commandOfOpcode_setColumnAddr (P : Params) : commandOfOpcode P P.opcSetColumnAddr = some (.c3 .setColumnAddr) :=
  commandOfOpcode_opcode P (.c3 .setColumnAddr)
@[simp] theorem commandOfOpcode_setPageAddr (P : Params) : commandOfOpcode P P.opcSetPageAddr = some (.c3 .setPageAddr) :=
  commandOfOpcode_opcode P (.c3 .setPageAddr)

end Sys2Proof
end

