-- ==== Sys2Proof/Laws/Memory.lean ====
section
/-! SUPPORT. Laws/Memory.lean: the memory's laws: read after write, the canonical form is kept, filled buffers, ranges. -/

namespace Sys2Proof.Machine

@[simp] theorem Memory.read_nil (a : Nat) : Memory.read [] a = none := rfl

theorem Memory.read_cons (k : Nat) (v : Byte) (m : Memory) (a : Nat) :
    Memory.read ((k, v) :: m) a = if k = a then some v else Memory.read m a := rfl

@[simp] theorem Memory.read_write_same (m : Memory) (a : Nat) (v : Byte) : (m.write a v).read a = some v := by
  induction m with
  | nil => simp [Memory.write, Memory.read]
  | cons c m ih =>
    obtain ⟨k, w⟩ := c
    simp only [Memory.write]
    split
    · simp [Memory.read]
    · split
      · simp [Memory.read]
      · rename_i h1 h2
        simp [Memory.read, Ne.symm h2, ih]

theorem Memory.read_write_other {m : Memory} {a b : Nat} (v : Byte) (h : b ≠ a) : (m.write a v).read b = m.read b := by
  induction m with
  | nil => simp [Memory.write, Memory.read, Ne.symm h]
  | cons c m ih =>
    obtain ⟨k, w⟩ := c
    simp only [Memory.write]
    split
    · simp [Memory.read, Ne.symm h]
    · split
      · rename_i h1 h2
        subst h2
        simp [Memory.read, Ne.symm h]
      · simp [Memory.read, ih]

theorem Memory.read_write (m : Memory) (a b : Nat) (v : Byte) :
    (m.write a v).read b = if b = a then some v else m.read b := by
  split
  · subst_vars; simp
  · exact read_write_other v ‹_›

theorem Memory.mem_write {m : Memory} {a : Nat} {v : Byte} {c : Host.Cell} (h : c ∈ m.write a v) :
    c = (a, v) ∨ c ∈ m := by
  induction m with
  | nil => simpa [Memory.write] using h
  | cons d m ih =>
    obtain ⟨k, w⟩ := d
    simp only [Memory.write] at h
    split at h
    · simpa using h
    · split at h
      · rcases List.mem_cons.mp h with rfl | h
        · exact .inl rfl
        · exact .inr (List.mem_cons_of_mem _ h)
      · rcases List.mem_cons.mp h with rfl | h
        · exact .inr List.mem_cons_self
        · exact (ih h).imp id (List.mem_cons_of_mem _)

theorem Memory.write_wf {m : Memory} (a : Nat) (v : Byte) (h : m.wf) : (m.write a v).wf := by
  induction m with
  | nil => simp [Memory.write, Memory.wf]
  | cons d m ih =>
    obtain ⟨k, w⟩ := d
    obtain ⟨hd, hm⟩ := List.pairwise_cons.mp h
    simp only [Memory.write]
    split
    · rename_i hk
      refine List.pairwise_cons.mpr ⟨?_, h⟩
      intro c hc
      rcases List.mem_cons.mp hc with rfl | hc
      · exact hk
      · exact lt_trans hk (hd c hc)
    · split
      · rename_i hk
        subst hk
        exact List.pairwise_cons.mpr ⟨hd, hm⟩
      · rename_i h1 h2
        refine List.pairwise_cons.mpr ⟨?_, ih hm⟩
        intro c hc
        rcases mem_write hc with rfl | hc
        · show k < a
          omega
        · exact hd c hc

/-- Writing an address that is listed keeps the list of addresses. -/
theorem Memory.keys_write {m : Memory} {a : Nat} (v : Byte) (hw : m.wf) (h : a ∈ m.map Prod.fst) :
    (m.write a v).map Prod.fst = m.map Prod.fst := by
  induction m with
  | nil => simp at h
  | cons d m ih =>
    obtain ⟨k, w⟩ := d
    obtain ⟨hd, hm⟩ := List.pairwise_cons.mp hw
    simp only [Memory.write]
    split
    · rename_i hk
      exfalso
      rcases List.mem_cons.mp h with h | h
      · simp at h; omega
      · obtain ⟨c, hc, rfl⟩ := List.mem_map.mp h
        have := hd c hc
        simp at this
        omega
    · split
      · rename_i hk
        simp [hk]
      · rename_i h1 h2
        have : a ∈ m.map Prod.fst := by
          rcases List.mem_cons.mp h with h | h
          · exact absurd h (by simpa using h2)
          · exact h
        simp [ih hm this]

theorem Memory.read_none_of_not_mem {m : Memory} {a : Nat} (h : a ∉ m.map Prod.fst) : m.read a = none := by
  induction m with
  | nil => rfl
  | cons d m ih =>
    obtain ⟨k, w⟩ := d
    simp only [List.map_cons, List.mem_cons, not_or] at h
    simp [Memory.read, Ne.symm h.1, ih h.2]

theorem Memory.read_isSome_of_mem {m : Memory} {a : Nat} (h : a ∈ m.map Prod.fst) : ∃ v, m.read a = some v := by
  induction m with
  | nil => simp at h
  | cons d m ih =>
    obtain ⟨k, w⟩ := d
    simp only [Memory.read]
    split
    · exact ⟨w, rfl⟩
    · rename_i hk
      rcases List.mem_cons.mp h with h | h
      · exact absurd h.symm hk
      · exact ih h

/-- A memory listed at addresses in strictly rising order is canonical. -/
theorem Memory.wf_of_keys_range {m : Memory} {n : Nat} (h : m.map Prod.fst = List.range n) : m.wf := by
  have h1 : (m.map Prod.fst).Pairwise (· < ·) := by
    rw [h]; exact List.pairwise_lt_range
  simpa [Memory.wf, List.pairwise_map] using h1

/-- Canonical memories that read the same are the same list. -/
theorem Memory.ext_read {m m' : Memory} (hw : m.wf) (hw' : m'.wf) (h : ∀ a, m.read a = m'.read a) : m = m' := by
  induction m generalizing m' with
  | nil =>
    cases m' with
    | nil => rfl
    | cons d m' =>
      obtain ⟨k, w⟩ := d
      have := h k
      simp [Memory.read] at this
  | cons d m ih =>
    obtain ⟨k, w⟩ := d
    obtain ⟨hd, hm⟩ := List.pairwise_cons.mp hw
    cases m' with
    | nil =>
      have := h k
      simp [Memory.read] at this
    | cons d' m' =>
      obtain ⟨k', w'⟩ := d'
      obtain ⟨hd', hm'⟩ := List.pairwise_cons.mp hw'
      have notIn : ∀ {k : Nat} {l : Memory}, (∀ c ∈ l, k < c.1) → ∀ j, j ≤ k → l.read j = none := by
        intro k l hl j hj
        apply read_none_of_not_mem
        intro hmem
        obtain ⟨c, hc, rfl⟩ := List.mem_map.mp hmem
        have := hl c hc
        omega
      have hkk : k = k' := by
        rcases lt_trichotomy k k' with hlt | heq | hgt
        · have := h k
          simp [Memory.read, Nat.ne_of_gt hlt, notIn hd' k (le_of_lt hlt)] at this
        · exact heq
        · have := h k'
          simp [Memory.read, Nat.ne_of_gt hgt, notIn hd k' (le_of_lt hgt)] at this
      subst hkk
      have hww : w = w' := by simpa [Memory.read] using h k
      subst hww
      have : m = m' := by
        apply ih hm hm'
        intro a
        by_cases hka : k = a
        · subst hka
          rw [notIn hd k le_rfl, notIn hd' k le_rfl]
        · simpa [Memory.read, hka] using h a
      rw [this]

@[simp] theorem Memory.keys_filled (n : Nat) (v : Byte) : (Memory.filled n v).map Prod.fst = List.range n := by
  simp [Memory.filled, Function.comp_def]

theorem Memory.filled_wf (n : Nat) (v : Byte) : (Memory.filled n v).wf := wf_of_keys_range (keys_filled n v)

theorem Memory.read_filled (n : Nat) (v : Byte) (a : Nat) :
    (Memory.filled n v).read a = if a < n then some v else none := by
  split
  · rename_i h
    obtain ⟨x, hx⟩ := read_isSome_of_mem (m := Memory.filled n v) (a := a) (by simpa using h)
    have : ∀ (l : List Nat), Memory.read (l.map (fun i => (i, v))) a = some x → x = v := by
      intro l
      induction l with
      | nil => simp
      | cons i l ih =>
        simp only [List.map_cons, Memory.read]
        split
        · intro h; simpa using h.symm
        · exact ih
    rw [hx, this _ hx]
  · rename_i h
    exact read_none_of_not_mem (by simpa using h)

/-- A range reads as a list exactly when every byte of it holds the list's value. -/
theorem Memory.readRange_eq_some {m : Memory} {a n : Nat} {bs : List Byte} :
    m.readRange a n = some bs ↔ bs.length = n ∧ ∀ i, i < n → m.read (a + i) = bs[i]? := by
  induction n generalizing a bs with
  | zero =>
    simp only [Memory.readRange, Option.some.injEq]
    constructor
    · rintro rfl; simp
    · rintro ⟨h, -⟩; exact (List.eq_nil_of_length_eq_zero h).symm
  | succ n ih =>
    simp only [Memory.readRange]
    constructor
    · intro h
      split at h
      · rename_i b bs' hb hbs
        obtain ⟨hl, hr⟩ := ih.mp hbs
        simp only [Option.some.injEq] at h
        subst h
        refine ⟨by simp [hl], ?_⟩
        intro i hi
        cases i with
        | zero => simpa using hb
        | succ i =>
          have := hr i (by omega)
          simpa [Nat.add_assoc, Nat.add_comm 1 i] using this
      · simp at h
    · rintro ⟨hl, hr⟩
      cases bs with
      | nil => simp at hl
      | cons b bs =>
        have h0 := hr 0 (by omega)
        have hrest : m.readRange (a + 1) n = some bs := by
          refine ih.mpr ⟨by simpa using hl, ?_⟩
          intro i hi
          have := hr (i + 1) (by omega)
          simpa [Nat.add_assoc, Nat.add_comm 1 i] using this
        simp only [Nat.add_zero, List.getElem?_cons_zero] at h0
        rw [h0, hrest]

/-- A memory listed at 0 to n-1 has all its n bytes. -/
theorem Memory.readRange_of_keys {m : Memory} {n : Nat} (h : m.map Prod.fst = List.range n) :
    ∃ bs, m.readRange 0 n = some bs := by
  have key : ∀ k a, a + k ≤ n → ∃ bs, m.readRange a k = some bs := by
    intro k
    induction k with
    | zero => intro a _; exact ⟨[], rfl⟩
    | succ k ih =>
      intro a ha
      obtain ⟨b, hb⟩ := read_isSome_of_mem (m := m) (a := a) (by rw [h]; simp; omega)
      obtain ⟨bs, hbs⟩ := ih (a + 1) (by omega)
      exact ⟨b :: bs, by simp [Memory.readRange, hb, hbs]⟩
  exact key n 0 (by omega)

theorem Memory.readRange_filled (n : Nat) (v : Byte) :
    (Memory.filled n v).readRange 0 n = some (List.replicate n v) := by
  rw [readRange_eq_some]
  refine ⟨by simp, ?_⟩
  intro i hi
  simp [read_filled, hi]

end Sys2Proof.Machine
end

