-- ==== Sys2Proof/Laws/State.lean ====
section
/-! SUPPORT. Laws/State.lean: one lemma for each field an update of the state leaves or writes, true by rfl. -/

namespace Sys2Proof.Machine

@[simp] theorem State.popAnswer_master (s : State) : s.popAnswer.master = s.master := rfl
@[simp] theorem State.popAnswer_trace (s : State) : s.popAnswer.trace = s.trace := rfl
@[simp] theorem State.popAnswer_slave (s : State) : s.popAnswer.slave = s.slave := rfl
@[simp] theorem State.popAnswer_log (s : State) : s.popAnswer.log = s.log := rfl
@[simp] theorem State.popAnswer_outcome (s : State) : s.popAnswer.outcome = s.outcome := rfl
@[simp] theorem State.popAnswer_hung (s : State) : s.popAnswer.hung = s.hung := rfl
@[simp] theorem State.popAnswer_requests (s : State) : s.popAnswer.requests = s.requests := rfl
@[simp] theorem State.popAnswer_answers (s : State) : s.popAnswer.answers = s.answers.tail := rfl
@[simp] theorem State.popAnswer_waits (s : State) : s.popAnswer.waits = s.waits := rfl

@[simp] theorem State.popWait_master (s : State) : s.popWait.master = s.master := rfl
@[simp] theorem State.popWait_trace (s : State) : s.popWait.trace = s.trace := rfl
@[simp] theorem State.popWait_slave (s : State) : s.popWait.slave = s.slave := rfl
@[simp] theorem State.popWait_log (s : State) : s.popWait.log = s.log := rfl
@[simp] theorem State.popWait_outcome (s : State) : s.popWait.outcome = s.outcome := rfl
@[simp] theorem State.popWait_hung (s : State) : s.popWait.hung = s.hung := rfl
@[simp] theorem State.popWait_requests (s : State) : s.popWait.requests = s.requests := rfl
@[simp] theorem State.popWait_answers (s : State) : s.popWait.answers = s.answers := rfl
@[simp] theorem State.popWait_waits (s : State) : s.popWait.waits = s.waits.tail := rfl

@[simp] theorem State.record_master (e : Event) (o : EventOutcome) (s : State) : (State.record e o s).master = s.master := rfl
@[simp] theorem State.record_trace (e : Event) (o : EventOutcome) (s : State) : (State.record e o s).trace = s.trace ++ [⟨e, o⟩] := rfl
@[simp] theorem State.record_slave (e : Event) (o : EventOutcome) (s : State) : (State.record e o s).slave = s.slave := rfl
@[simp] theorem State.record_log (e : Event) (o : EventOutcome) (s : State) : (State.record e o s).log = s.log := rfl
@[simp] theorem State.record_outcome (e : Event) (o : EventOutcome) (s : State) : (State.record e o s).outcome = s.outcome := rfl
@[simp] theorem State.record_hung (e : Event) (o : EventOutcome) (s : State) : (State.record e o s).hung = s.hung := rfl
@[simp] theorem State.record_requests (e : Event) (o : EventOutcome) (s : State) : (State.record e o s).requests = s.requests := rfl
@[simp] theorem State.record_answers (e : Event) (o : EventOutcome) (s : State) : (State.record e o s).answers = s.answers := rfl
@[simp] theorem State.record_waits (e : Event) (o : EventOutcome) (s : State) : (State.record e o s).waits = s.waits := rfl

@[simp] theorem State.takeException_master (x : Exception) (s : State) : (State.takeException x s).master = s.master := rfl
@[simp] theorem State.takeException_trace (x : Exception) (s : State) : (State.takeException x s).trace = s.trace := rfl
@[simp] theorem State.takeException_slave (x : Exception) (s : State) : (State.takeException x s).slave = s.slave := rfl
@[simp] theorem State.takeException_log (x : Exception) (s : State) : (State.takeException x s).log = s.log ++ [.exception x] := rfl
@[simp] theorem State.takeException_outcome (x : Exception) (s : State) : (State.takeException x s).outcome = some (.raised x) := rfl
@[simp] theorem State.takeException_hung (x : Exception) (s : State) : (State.takeException x s).hung = s.hung := rfl
@[simp] theorem State.takeException_requests (x : Exception) (s : State) : (State.takeException x s).requests = s.requests := rfl
@[simp] theorem State.takeException_answers (x : Exception) (s : State) : (State.takeException x s).answers = s.answers := rfl
@[simp] theorem State.takeException_waits (x : Exception) (s : State) : (State.takeException x s).waits = s.waits := rfl

@[simp] theorem State.note_master (x : Logged) (s : State) : (State.note x s).master = s.master := rfl
@[simp] theorem State.note_trace (x : Logged) (s : State) : (State.note x s).trace = s.trace := rfl
@[simp] theorem State.note_slave (x : Logged) (s : State) : (State.note x s).slave = s.slave := rfl
@[simp] theorem State.note_log (x : Logged) (s : State) : (State.note x s).log = s.log ++ [x] := rfl
@[simp] theorem State.note_outcome (x : Logged) (s : State) : (State.note x s).outcome = s.outcome := rfl
@[simp] theorem State.note_hung (x : Logged) (s : State) : (State.note x s).hung = s.hung := rfl
@[simp] theorem State.note_requests (x : Logged) (s : State) : (State.note x s).requests = s.requests := rfl
@[simp] theorem State.note_answers (x : Logged) (s : State) : (State.note x s).answers = s.answers := rfl
@[simp] theorem State.note_waits (x : Logged) (s : State) : (State.note x s).waits = s.waits := rfl

@[simp] theorem State.giveBack_master (r : Result) (s : State) : (State.giveBack r s).master = s.master := rfl
@[simp] theorem State.giveBack_trace (r : Result) (s : State) : (State.giveBack r s).trace = s.trace := rfl
@[simp] theorem State.giveBack_slave (r : Result) (s : State) : (State.giveBack r s).slave = s.slave := rfl
@[simp] theorem State.giveBack_log (r : Result) (s : State) : (State.giveBack r s).log = s.log := rfl
@[simp] theorem State.giveBack_outcome (r : Result) (s : State) : (State.giveBack r s).outcome = some (.returned r) := rfl
@[simp] theorem State.giveBack_hung (r : Result) (s : State) : (State.giveBack r s).hung = s.hung := rfl
@[simp] theorem State.giveBack_requests (r : Result) (s : State) : (State.giveBack r s).requests = s.requests := rfl
@[simp] theorem State.giveBack_answers (r : Result) (s : State) : (State.giveBack r s).answers = s.answers := rfl
@[simp] theorem State.giveBack_waits (r : Result) (s : State) : (State.giveBack r s).waits = s.waits := rfl

@[simp] theorem State.hang_master (s : State) : (State.hang s).master = s.master := rfl
@[simp] theorem State.hang_trace (s : State) : (State.hang s).trace = s.trace := rfl
@[simp] theorem State.hang_slave (s : State) : (State.hang s).slave = s.slave := rfl
@[simp] theorem State.hang_log (s : State) : (State.hang s).log = s.log := rfl
@[simp] theorem State.hang_outcome (s : State) : (State.hang s).outcome = some .hangs := rfl
@[simp] theorem State.hang_hung (s : State) : (State.hang s).hung = true := rfl
@[simp] theorem State.hang_requests (s : State) : (State.hang s).requests = s.requests := rfl
@[simp] theorem State.hang_answers (s : State) : (State.hang s).answers = s.answers := rfl
@[simp] theorem State.hang_waits (s : State) : (State.hang s).waits = s.waits := rfl

@[simp] theorem State.allocate_master (w h : Nat) (s : State) : (State.allocate w h s).master = { s.master with width := some w, height := some h, fb := Memory.filled (bufferSize w h) 0x00 } := rfl
@[simp] theorem State.allocate_trace (w h : Nat) (s : State) : (State.allocate w h s).trace = s.trace := rfl
@[simp] theorem State.allocate_slave (w h : Nat) (s : State) : (State.allocate w h s).slave = s.slave := rfl
@[simp] theorem State.allocate_log (w h : Nat) (s : State) : (State.allocate w h s).log = s.log := rfl
@[simp] theorem State.allocate_outcome (w h : Nat) (s : State) : (State.allocate w h s).outcome = s.outcome := rfl
@[simp] theorem State.allocate_hung (w h : Nat) (s : State) : (State.allocate w h s).hung = s.hung := rfl
@[simp] theorem State.allocate_requests (w h : Nat) (s : State) : (State.allocate w h s).requests = s.requests := rfl
@[simp] theorem State.allocate_answers (w h : Nat) (s : State) : (State.allocate w h s).answers = s.answers := rfl
@[simp] theorem State.allocate_waits (w h : Nat) (s : State) : (State.allocate w h s).waits = s.waits := rfl

@[simp] theorem State.enterInit_master (s : State) : (State.enterInit s).master = { s.master with life := .init } := rfl
@[simp] theorem State.enterInit_trace (s : State) : (State.enterInit s).trace = s.trace := rfl
@[simp] theorem State.enterInit_slave (s : State) : (State.enterInit s).slave = s.slave := rfl
@[simp] theorem State.enterInit_log (s : State) : (State.enterInit s).log = s.log := rfl
@[simp] theorem State.enterInit_outcome (s : State) : (State.enterInit s).outcome = s.outcome := rfl
@[simp] theorem State.enterInit_hung (s : State) : (State.enterInit s).hung = s.hung := rfl
@[simp] theorem State.enterInit_requests (s : State) : (State.enterInit s).requests = s.requests := rfl
@[simp] theorem State.enterInit_answers (s : State) : (State.enterInit s).answers = s.answers := rfl
@[simp] theorem State.enterInit_waits (s : State) : (State.enterInit s).waits = s.waits := rfl

@[simp] theorem State.setByte_master (i : Nat) (v : Byte) (s : State) : (State.setByte i v s).master = { s.master with fb := s.master.fb.write i v } := rfl
@[simp] theorem State.setByte_trace (i : Nat) (v : Byte) (s : State) : (State.setByte i v s).trace = s.trace := rfl
@[simp] theorem State.setByte_slave (i : Nat) (v : Byte) (s : State) : (State.setByte i v s).slave = s.slave := rfl
@[simp] theorem State.setByte_log (i : Nat) (v : Byte) (s : State) : (State.setByte i v s).log = s.log := rfl
@[simp] theorem State.setByte_outcome (i : Nat) (v : Byte) (s : State) : (State.setByte i v s).outcome = s.outcome := rfl
@[simp] theorem State.setByte_hung (i : Nat) (v : Byte) (s : State) : (State.setByte i v s).hung = s.hung := rfl
@[simp] theorem State.setByte_requests (i : Nat) (v : Byte) (s : State) : (State.setByte i v s).requests = s.requests := rfl
@[simp] theorem State.setByte_answers (i : Nat) (v : Byte) (s : State) : (State.setByte i v s).answers = s.answers := rfl
@[simp] theorem State.setByte_waits (i : Nat) (v : Byte) (s : State) : (State.setByte i v s).waits = s.waits := rfl

@[simp] theorem Slave.advance_params (r : MapRegs) (S : Slave) : (Slave.advance r S).params = S.params := rfl
@[simp] theorem Slave.advance_phase (r : MapRegs) (S : Slave) : (Slave.advance r S).phase = S.phase := rfl
@[simp] theorem Slave.advance_resLowUs (r : MapRegs) (S : Slave) : (Slave.advance r S).resLowUs = S.resLowUs := rfl
@[simp] theorem Slave.advance_dec (r : MapRegs) (S : Slave) : (Slave.advance r S).dec = S.dec := rfl
@[simp] theorem Slave.advance_dispOn (r : MapRegs) (S : Slave) : (Slave.advance r S).dispOn = S.dispOn := rfl
@[simp] theorem Slave.advance_contrast (r : MapRegs) (S : Slave) : (Slave.advance r S).contrast = S.contrast := rfl
@[simp] theorem Slave.advance_precharge (r : MapRegs) (S : Slave) : (Slave.advance r S).precharge = S.precharge := rfl
@[simp] theorem Slave.advance_vcomh (r : MapRegs) (S : Slave) : (Slave.advance r S).vcomh = S.vcomh := rfl
@[simp] theorem Slave.advance_startLine (r : MapRegs) (S : Slave) : (Slave.advance r S).startLine = S.startLine := rfl
@[simp] theorem Slave.advance_offset (r : MapRegs) (S : Slave) : (Slave.advance r S).offset = S.offset := rfl
@[simp] theorem Slave.advance_clkdiv (r : MapRegs) (S : Slave) : (Slave.advance r S).clkdiv = S.clkdiv := rfl
@[simp] theorem Slave.advance_compins (r : MapRegs) (S : Slave) : (Slave.advance r S).compins = S.compins := rfl
@[simp] theorem Slave.advance_segRemap (r : MapRegs) (S : Slave) : (Slave.advance r S).segRemap = S.segRemap := rfl
@[simp] theorem Slave.advance_comScan (r : MapRegs) (S : Slave) : (Slave.advance r S).comScan = S.comScan := rfl
@[simp] theorem Slave.advance_mux (r : MapRegs) (S : Slave) : (Slave.advance r S).mux = S.mux := rfl
@[simp] theorem Slave.advance_addrMode (r : MapRegs) (S : Slave) : (Slave.advance r S).addrMode = S.addrMode := rfl
@[simp] theorem Slave.advance_entireOn (r : MapRegs) (S : Slave) : (Slave.advance r S).entireOn = S.entireOn := rfl
@[simp] theorem Slave.advance_inverse (r : MapRegs) (S : Slave) : (Slave.advance r S).inverse = S.inverse := rfl
@[simp] theorem Slave.advance_colStart (r : MapRegs) (S : Slave) : (Slave.advance r S).colStart = S.colStart := rfl
@[simp] theorem Slave.advance_colEnd (r : MapRegs) (S : Slave) : (Slave.advance r S).colEnd = S.colEnd := rfl
@[simp] theorem Slave.advance_colPtr (r : MapRegs) (S : Slave) : (Slave.advance r S).colPtr = some r.nextCol := rfl
@[simp] theorem Slave.advance_pageStart (r : MapRegs) (S : Slave) : (Slave.advance r S).pageStart = S.pageStart := rfl
@[simp] theorem Slave.advance_pageEnd (r : MapRegs) (S : Slave) : (Slave.advance r S).pageEnd = S.pageEnd := rfl
@[simp] theorem Slave.advance_pagePtr (r : MapRegs) (S : Slave) : (Slave.advance r S).pagePtr = some r.nextPage := rfl
@[simp] theorem Slave.advance_ram (r : MapRegs) (S : Slave) : (Slave.advance r S).ram = S.ram := rfl

@[simp] theorem Slave.losePointer_params (S : Slave) : (Slave.losePointer S).params = S.params := rfl
@[simp] theorem Slave.losePointer_phase (S : Slave) : (Slave.losePointer S).phase = S.phase := rfl
@[simp] theorem Slave.losePointer_resLowUs (S : Slave) : (Slave.losePointer S).resLowUs = S.resLowUs := rfl
@[simp] theorem Slave.losePointer_dec (S : Slave) : (Slave.losePointer S).dec = S.dec := rfl
@[simp] theorem Slave.losePointer_dispOn (S : Slave) : (Slave.losePointer S).dispOn = S.dispOn := rfl
@[simp] theorem Slave.losePointer_contrast (S : Slave) : (Slave.losePointer S).contrast = S.contrast := rfl
@[simp] theorem Slave.losePointer_precharge (S : Slave) : (Slave.losePointer S).precharge = S.precharge := rfl
@[simp] theorem Slave.losePointer_vcomh (S : Slave) : (Slave.losePointer S).vcomh = S.vcomh := rfl
@[simp] theorem Slave.losePointer_startLine (S : Slave) : (Slave.losePointer S).startLine = S.startLine := rfl
@[simp] theorem Slave.losePointer_offset (S : Slave) : (Slave.losePointer S).offset = S.offset := rfl
@[simp] theorem Slave.losePointer_clkdiv (S : Slave) : (Slave.losePointer S).clkdiv = S.clkdiv := rfl
@[simp] theorem Slave.losePointer_compins (S : Slave) : (Slave.losePointer S).compins = S.compins := rfl
@[simp] theorem Slave.losePointer_segRemap (S : Slave) : (Slave.losePointer S).segRemap = S.segRemap := rfl
@[simp] theorem Slave.losePointer_comScan (S : Slave) : (Slave.losePointer S).comScan = S.comScan := rfl
@[simp] theorem Slave.losePointer_mux (S : Slave) : (Slave.losePointer S).mux = S.mux := rfl
@[simp] theorem Slave.losePointer_addrMode (S : Slave) : (Slave.losePointer S).addrMode = S.addrMode := rfl
@[simp] theorem Slave.losePointer_entireOn (S : Slave) : (Slave.losePointer S).entireOn = S.entireOn := rfl
@[simp] theorem Slave.losePointer_inverse (S : Slave) : (Slave.losePointer S).inverse = S.inverse := rfl
@[simp] theorem Slave.losePointer_colStart (S : Slave) : (Slave.losePointer S).colStart = S.colStart := rfl
@[simp] theorem Slave.losePointer_colEnd (S : Slave) : (Slave.losePointer S).colEnd = S.colEnd := rfl
@[simp] theorem Slave.losePointer_colPtr (S : Slave) : (Slave.losePointer S).colPtr = none := rfl
@[simp] theorem Slave.losePointer_pageStart (S : Slave) : (Slave.losePointer S).pageStart = S.pageStart := rfl
@[simp] theorem Slave.losePointer_pageEnd (S : Slave) : (Slave.losePointer S).pageEnd = S.pageEnd := rfl
@[simp] theorem Slave.losePointer_pagePtr (S : Slave) : (Slave.losePointer S).pagePtr = none := rfl
@[simp] theorem Slave.losePointer_ram (S : Slave) : (Slave.losePointer S).ram = S.ram := rfl

@[simp] theorem Slave.afterReset_params (S : Slave) : S.afterReset.params = S.params := rfl
@[simp] theorem Slave.afterReset_phase (S : Slave) : S.afterReset.phase = .ready := rfl
@[simp] theorem Slave.afterReset_resLowUs (S : Slave) : S.afterReset.resLowUs = S.resLowUs := rfl
@[simp] theorem Slave.afterReset_dec (S : Slave) : S.afterReset.dec = some .idle := rfl
@[simp] theorem Slave.afterReset_dispOn (S : Slave) : S.afterReset.dispOn = none := rfl
@[simp] theorem Slave.afterReset_contrast (S : Slave) : S.afterReset.contrast = none := rfl
@[simp] theorem Slave.afterReset_precharge (S : Slave) : S.afterReset.precharge = none := rfl
@[simp] theorem Slave.afterReset_vcomh (S : Slave) : S.afterReset.vcomh = none := rfl
@[simp] theorem Slave.afterReset_startLine (S : Slave) : S.afterReset.startLine = none := rfl
@[simp] theorem Slave.afterReset_offset (S : Slave) : S.afterReset.offset = none := rfl
@[simp] theorem Slave.afterReset_clkdiv (S : Slave) : S.afterReset.clkdiv = none := rfl
@[simp] theorem Slave.afterReset_compins (S : Slave) : S.afterReset.compins = none := rfl
@[simp] theorem Slave.afterReset_segRemap (S : Slave) : S.afterReset.segRemap = none := rfl
@[simp] theorem Slave.afterReset_comScan (S : Slave) : S.afterReset.comScan = none := rfl
@[simp] theorem Slave.afterReset_mux (S : Slave) : S.afterReset.mux = none := rfl
@[simp] theorem Slave.afterReset_addrMode (S : Slave) : S.afterReset.addrMode = none := rfl
@[simp] theorem Slave.afterReset_entireOn (S : Slave) : S.afterReset.entireOn = none := rfl
@[simp] theorem Slave.afterReset_inverse (S : Slave) : S.afterReset.inverse = none := rfl
@[simp] theorem Slave.afterReset_colStart (S : Slave) : S.afterReset.colStart = none := rfl
@[simp] theorem Slave.afterReset_colEnd (S : Slave) : S.afterReset.colEnd = none := rfl
@[simp] theorem Slave.afterReset_colPtr (S : Slave) : S.afterReset.colPtr = none := rfl
@[simp] theorem Slave.afterReset_pageStart (S : Slave) : S.afterReset.pageStart = none := rfl
@[simp] theorem Slave.afterReset_pageEnd (S : Slave) : S.afterReset.pageEnd = none := rfl
@[simp] theorem Slave.afterReset_pagePtr (S : Slave) : S.afterReset.pagePtr = none := rfl
@[simp] theorem Slave.afterReset_ram (S : Slave) : S.afterReset.ram = [] := rfl

@[simp] theorem Pins.get_set_same (ps : Pins) (p : Pin) (v : Option Level) : (ps.set p v).get p = v := by
  cases p <;> rfl

theorem Pins.get_set_other {ps : Pins} {p q : Pin} (v : Option Level) (h : q ≠ p) : (ps.set p v).get q = ps.get q := by
  cases p <;> cases q <;> first | rfl | exact absurd rfl h

@[simp] theorem Pins.set_cs_cs (ps : Pins) (v : Option Level) : (ps.set .cs v).cs = v := rfl
@[simp] theorem Pins.set_cs_dc (ps : Pins) (v : Option Level) : (ps.set .cs v).dc = ps.dc := rfl
@[simp] theorem Pins.set_cs_res (ps : Pins) (v : Option Level) : (ps.set .cs v).res = ps.res := rfl
@[simp] theorem Pins.set_dc_cs (ps : Pins) (v : Option Level) : (ps.set .dc v).cs = ps.cs := rfl
@[simp] theorem Pins.set_dc_dc (ps : Pins) (v : Option Level) : (ps.set .dc v).dc = v := rfl
@[simp] theorem Pins.set_dc_res (ps : Pins) (v : Option Level) : (ps.set .dc v).res = ps.res := rfl
@[simp] theorem Pins.set_res_cs (ps : Pins) (v : Option Level) : (ps.set .res v).cs = ps.cs := rfl
@[simp] theorem Pins.set_res_dc (ps : Pins) (v : Option Level) : (ps.set .res v).dc = ps.dc := rfl
@[simp] theorem Pins.set_res_res (ps : Pins) (v : Option Level) : (ps.set .res v).res = v := rfl

end Sys2Proof.Machine
end

