-- ==== Sys2Proof/Laws/Slave.lean ====
section
/-! SUPPORT. Laws/Slave.lean: what each step of the slave can do, said once: the decoder, the mapper, the data write, a
transmission, a failed transmission. -/

namespace Sys2Proof

namespace Machine

/-! ## Transmissions byte by byte -/

@[simp] theorem Slave.takeBytes_nil (dc : Option Level) (S : Slave) : S.takeBytes dc [] = .ok S := rfl

theorem Slave.takeBytes_cons (dc : Option Level) (b : Byte) (bs : List Byte) (S : Slave) :
    S.takeBytes dc (b :: bs) = (S.takeByte dc b).bind (fun S' => S'.takeBytes dc bs) := by
  simp only [Slave.takeBytes]
  cases S.takeByte dc b <;> rfl

theorem Slave.takeBytes_append (dc : Option Level) (bs cs : List Byte) (S : Slave) :
    S.takeBytes dc (bs ++ cs) = (S.takeBytes dc bs).bind (fun S' => S'.takeBytes dc cs) := by
  induction bs generalizing S with
  | nil => rfl
  | cons b bs ih =>
    simp only [List.cons_append, Slave.takeBytes_cons]
    cases S.takeByte dc b with
    | error e => rfl
    | ok S' => simpa [Except.bind] using ih S'

@[simp] theorem Slave.takeByte_command (b : Byte) (S : Slave) : S.takeByte (some false) b = S.commandByte b := rfl

@[simp] theorem Slave.takeByte_data (b : Byte) (S : Slave) : S.takeByte (some true) b = S.dataByte b := rfl

theorem Slave.receiveRefusal_none {S : Slave} {ps : Pins} :
    S.receiveRefusal ps = none ↔ S.phase = .ready ∧ ps.res = some true ∧ ps.cs = some false := by
  unfold Slave.receiveRefusal
  split_ifs with h1 h2 h3 <;> simp_all

theorem Slave.receive_eq {S : Slave} {ps : Pins} (bs : List Byte) (hp : S.phase = .ready)
    (hr : ps.res = some true) (hc : ps.cs = some false) : S.receive ps bs = S.takeBytes ps.dc bs := by
  simp [Slave.receive, Slave.receiveRefusal_none.mpr ⟨hp, hr, hc⟩]

theorem Slave.receive_ok {S S' : Slave} {ps : Pins} {bs : List Byte} (h : S.receive ps bs = .ok S') :
    S.phase = .ready ∧ ps.res = some true ∧ ps.cs = some false ∧ S.takeBytes ps.dc bs = .ok S' := by
  unfold Slave.receive at h
  split at h
  · cases h
  · rename_i hn
    obtain ⟨h1, h2, h3⟩ := Slave.receiveRefusal_none.mp hn
    exact ⟨h1, h2, h3, h⟩

/-! ## The decoder -/

/-- Everything one command-mode byte can do (R119). -/
theorem Slave.commandByte_ok {S S' : Slave} {b : Byte} (h : S.commandByte b = .ok S') :
    (∃ m, S.dec = some .idle ∧ commandOfOpcode S.params b = some (.c1 m) ∧ S' = S.executeC1 m) ∨
    (∃ m, S.dec = some .idle ∧ commandOfOpcode S.params b = some (.c2 m) ∧ S' = { S with dec := some (.pendingOne m) }) ∨
    (∃ m, S.dec = some .idle ∧ commandOfOpcode S.params b = some (.c3 m) ∧ S' = { S with dec := some (.pendingTwo m) }) ∨
    (∃ m, S.dec = some (.pendingOne m) ∧ S' = Slave.executeC2 m b { S with dec := some .idle }) ∨
    (∃ m, S.dec = some (.pendingTwo m) ∧ S' = { S with dec := some (.pendingEnd m b) }) ∨
    (∃ m a, S.dec = some (.pendingEnd m a) ∧ Slave.executeC3 m a b { S with dec := some .idle } = .ok S') := by
  unfold Slave.commandByte at h
  split at h
  · cases h
  · rename_i hd
    split at h
    · cases h
    · rename_i m hm
      exact .inl ⟨m, hd, hm, (Except.ok.inj h).symm⟩
    · rename_i m hm
      exact .inr (.inl ⟨m, hd, hm, (Except.ok.inj h).symm⟩)
    · rename_i m hm
      exact .inr (.inr (.inl ⟨m, hd, hm, (Except.ok.inj h).symm⟩))
  · rename_i m hd
    exact .inr (.inr (.inr (.inl ⟨m, hd, (Except.ok.inj h).symm⟩)))
  · rename_i m hd
    exact .inr (.inr (.inr (.inr (.inl ⟨m, hd, (Except.ok.inj h).symm⟩))))
  · rename_i m a hd
    exact .inr (.inr (.inr (.inr (.inr ⟨m, a, hd, h⟩))))

/-- Everything a window command can do (R135, R136). -/
theorem Slave.executeC3_ok {S S' : Slave} {m : C3} {a b : Byte} (h : S.executeC3 m a b = .ok S') :
    (m = .setColumnAddr ∧ windowOk S.params.ramCols a b = true ∧
      S' = { S with colStart := some a.toNat, colEnd := some b.toNat, colPtr := some a.toNat }) ∨
    (m = .setPageAddr ∧ windowOk S.params.ramPages a b = true ∧
      S' = { S with pageStart := some a.toNat, pageEnd := some b.toNat, pagePtr := some a.toNat }) := by
  cases m with
  | setColumnAddr =>
    simp only [Slave.executeC3, Slave.setColumnAddr] at h
    split at h
    · exact .inl ⟨rfl, ‹_›, (Except.ok.inj h).symm⟩
    · cases h
  | setPageAddr =>
    simp only [Slave.executeC3, Slave.setPageAddr] at h
    split at h
    · exact .inr ⟨rfl, ‹_›, (Except.ok.inj h).symm⟩
    · cases h

/-! A command without window operands leaves the RAM, the windows, the decoder and the phase (R138). -/

@[simp] theorem Slave.executeC1_params (m : C1) (S : Slave) : (S.executeC1 m).params = S.params := by
  cases m <;> rfl
@[simp] theorem Slave.executeC2_params (m : C2) (a : Byte) (S : Slave) : (S.executeC2 m a).params = S.params := by
  cases m <;> rfl
@[simp] theorem Slave.executeC1_phase (m : C1) (S : Slave) : (S.executeC1 m).phase = S.phase := by
  cases m <;> rfl
@[simp] theorem Slave.executeC1_resLowUs (m : C1) (S : Slave) : (S.executeC1 m).resLowUs = S.resLowUs := by
  cases m <;> rfl
@[simp] theorem Slave.executeC1_dec (m : C1) (S : Slave) : (S.executeC1 m).dec = S.dec := by
  cases m <;> rfl
@[simp] theorem Slave.executeC1_ram (m : C1) (S : Slave) : (S.executeC1 m).ram = S.ram := by
  cases m <;> rfl
@[simp] theorem Slave.executeC1_colStart (m : C1) (S : Slave) : (S.executeC1 m).colStart = S.colStart := by
  cases m <;> rfl
@[simp] theorem Slave.executeC1_colEnd (m : C1) (S : Slave) : (S.executeC1 m).colEnd = S.colEnd := by
  cases m <;> rfl
@[simp] theorem Slave.executeC1_colPtr (m : C1) (S : Slave) : (S.executeC1 m).colPtr = S.colPtr := by
  cases m <;> rfl
@[simp] theorem Slave.executeC1_pageStart (m : C1) (S : Slave) : (S.executeC1 m).pageStart = S.pageStart := by
  cases m <;> rfl
@[simp] theorem Slave.executeC1_pageEnd (m : C1) (S : Slave) : (S.executeC1 m).pageEnd = S.pageEnd := by
  cases m <;> rfl
@[simp] theorem Slave.executeC1_pagePtr (m : C1) (S : Slave) : (S.executeC1 m).pagePtr = S.pagePtr := by
  cases m <;> rfl
@[simp] theorem Slave.executeC1_addrMode (m : C1) (S : Slave) : (S.executeC1 m).addrMode = S.addrMode := by
  cases m <;> rfl
@[simp] theorem Slave.executeC2_phase (m : C2) (a : Byte) (S : Slave) : (S.executeC2 m a).phase = S.phase := by
  cases m <;> rfl
@[simp] theorem Slave.executeC2_resLowUs (m : C2) (a : Byte) (S : Slave) : (S.executeC2 m a).resLowUs = S.resLowUs := by
  cases m <;> rfl
@[simp] theorem Slave.executeC2_dec (m : C2) (a : Byte) (S : Slave) : (S.executeC2 m a).dec = S.dec := by
  cases m <;> rfl
@[simp] theorem Slave.executeC2_ram (m : C2) (a : Byte) (S : Slave) : (S.executeC2 m a).ram = S.ram := by
  cases m <;> rfl
@[simp] theorem Slave.executeC2_colStart (m : C2) (a : Byte) (S : Slave) : (S.executeC2 m a).colStart = S.colStart := by
  cases m <;> rfl
@[simp] theorem Slave.executeC2_colEnd (m : C2) (a : Byte) (S : Slave) : (S.executeC2 m a).colEnd = S.colEnd := by
  cases m <;> rfl
@[simp] theorem Slave.executeC2_colPtr (m : C2) (a : Byte) (S : Slave) : (S.executeC2 m a).colPtr = S.colPtr := by
  cases m <;> rfl
@[simp] theorem Slave.executeC2_pageStart (m : C2) (a : Byte) (S : Slave) : (S.executeC2 m a).pageStart = S.pageStart := by
  cases m <;> rfl
@[simp] theorem Slave.executeC2_pageEnd (m : C2) (a : Byte) (S : Slave) : (S.executeC2 m a).pageEnd = S.pageEnd := by
  cases m <;> rfl
@[simp] theorem Slave.executeC2_pagePtr (m : C2) (a : Byte) (S : Slave) : (S.executeC2 m a).pagePtr = S.pagePtr := by
  cases m <;> rfl

/-- A command-mode byte leaves the RAM, the phase and the count of the low phase (R138). -/
theorem Slave.commandByte_frame {S S' : Slave} {b : Byte} (h : S.commandByte b = .ok S') :
    S'.ram = S.ram ∧ S'.phase = S.phase ∧ S'.resLowUs = S.resLowUs ∧ S'.dec ≠ none := by
  rcases Slave.commandByte_ok h with ⟨m, hd, -, rfl⟩ | ⟨m, hd, -, rfl⟩ | ⟨m, hd, -, rfl⟩ | ⟨m, hd, rfl⟩ |
    ⟨m, hd, rfl⟩ | ⟨m, a, hd, h⟩
  · simp [hd]
  · exact ⟨rfl, rfl, rfl, by simp⟩
  · exact ⟨rfl, rfl, rfl, by simp⟩
  · simp
  · exact ⟨rfl, rfl, rfl, by simp⟩
  · rcases Slave.executeC3_ok h with ⟨-, -, rfl⟩ | ⟨-, -, rfl⟩ <;> exact ⟨rfl, rfl, rfl, by simp⟩

/-! ## The mapper and the data write -/

@[simp] theorem need_ok {α : Type} {f : Field} {o : Option α} {v : α} : need f o = .ok v ↔ o = some v := by
  cases o <;> simp [need]

theorem Slave.mapRegs_ok {S : Slave} {r : MapRegs} :
    S.mapRegs = .ok r ↔
      S.addrMode = some r.addrMode ∧ S.colStart = some r.colStart ∧ S.colEnd = some r.colEnd ∧
      S.colPtr = some r.colPtr ∧ S.pageStart = some r.pageStart ∧ S.pageEnd = some r.pageEnd ∧
      S.pagePtr = some r.pagePtr := by
  obtain ⟨m, a, b, c, d, e, f⟩ := r
  cases hm : S.addrMode <;> cases h1 : S.colStart <;> cases h2 : S.colEnd <;> cases h3 : S.colPtr <;>
    cases h4 : S.pageStart <;> cases h5 : S.pageEnd <;> cases h6 : S.pagePtr <;>
    simp [Slave.mapRegs, need, hm, h1, h2, h3, h4, h5, h6, bind, Except.bind, pure, Except.pure]

/-- Everything one data-mode byte can do (R137). -/
theorem Slave.dataByte_ok {S S' : Slave} {b : Byte} :
    S.dataByte b = .ok S' ↔
      ∃ r, S.dec = some .idle ∧ S.mapRegs = .ok r ∧ r.addrMode = 0x00 ∧ r.pagePtr < S.params.ramPages ∧
        r.colPtr < S.params.ramCols ∧
        S' = Slave.advance r { S with ram := S.ram.write (ramAddr S.params r.pagePtr r.colPtr) b } := by
  constructor
  · intro h
    unfold Slave.dataByte at h
    split at h
    · cases h
    · rename_i hd
      split at h
      · cases h
      · rename_i r hr
        split_ifs at h with h1 h2
        exact ⟨r, hd, hr, by simpa using h1, h2.1, h2.2, (Except.ok.inj h).symm⟩
    all_goals cases h
  · rintro ⟨r, hd, hr, hm, h1, h2, rfl⟩
    simp [Slave.dataByte, hd, hr, hm, h1, h2]

/-- A pointer inside its window stays inside it (R49, R64). -/
theorem MapRegs.next_inside {r : MapRegs} (hc : r.colStart ≤ r.colPtr ∧ r.colPtr ≤ r.colEnd)
    (hp : r.pageStart ≤ r.pagePtr ∧ r.pagePtr ≤ r.pageEnd) :
    (r.colStart ≤ r.nextCol ∧ r.nextCol ≤ r.colEnd) ∧ (r.pageStart ≤ r.nextPage ∧ r.nextPage ≤ r.pageEnd) := by
  unfold MapRegs.nextCol MapRegs.nextPage
  split_ifs <;> omega

/-! ## Failed events -/

theorem Slave.skipCell_eq (S : Slave) :
    S.skipCell = S ∨ ∃ r, S.mapRegs = .ok r ∧ S.skipCell = S.advance r := by
  unfold Slave.skipCell
  split
  · rename_i r hr
    exact .inr ⟨r, hr, rfl⟩
  · exact .inl rfl

/-- A failed burst changes nothing but RAM cells and the pointer, which is lost; every cell holds its old value or a byte of
the burst (R169). -/
theorem Slave.failedBurst_ok {ps : Pins} (hdc : ps.dc = some true) {bs : List Byte} {drawn : List Bool} {S S' : Slave}
    (h : S.failedBurst ps bs drawn = .ok S') :
    S' = { S with ram := S'.ram, colPtr := none, pagePtr := none } ∧
    ∀ a, S'.ram.read a = S.ram.read a ∨ ∃ b ∈ bs, S'.ram.read a = some b := by
  induction bs generalizing drawn S with
  | nil =>
    simp only [Slave.failedBurst] at h
    obtain rfl := (Except.ok.inj h).symm
    exact ⟨rfl, fun a => .inl rfl⟩
  | cons b bs ih =>
    simp only [Slave.failedBurst] at h
    split at h
    · split at h
      · cases h
      · rename_i T hT
        obtain ⟨-, -, -, hb⟩ := Slave.receive_ok hT
        rw [hdc, Slave.takeBytes_cons] at hb
        cases hd : S.takeByte (some true) b with
        | error e => simp [hd, Except.bind] at hb
        | ok U =>
          simp only [hd, Except.bind, Slave.takeBytes_nil, Except.ok.injEq] at hb
          subst hb
          obtain ⟨r, -, -, -, -, -, rfl⟩ := Slave.dataByte_ok.mp hd
          obtain ⟨h1, h2⟩ := ih h
          refine ⟨?_, ?_⟩
          · rw [h1]; rfl
          · intro a
            rcases h2 a with h2 | ⟨c, hc, h2⟩
            · rw [h2, Slave.advance_ram, Memory.read_write]
              split
              · exact .inr ⟨b, List.mem_cons_self, rfl⟩
              · exact .inl rfl
            · exact .inr ⟨c, List.mem_cons_of_mem _ hc, h2⟩
    · obtain ⟨h1, h2⟩ := ih h
      rcases Slave.skipCell_eq S with hs | ⟨r, -, hs⟩
      · rw [hs] at h1 h2
        exact ⟨h1, fun a => (h2 a).imp id (fun ⟨c, hc, e⟩ => ⟨c, List.mem_cons_of_mem _ hc, e⟩)⟩
      · rw [hs] at h1 h2
        refine ⟨?_, fun a => (h2 a).imp id (fun ⟨c, hc, e⟩ => ⟨c, List.mem_cons_of_mem _ hc, e⟩)⟩
        rw [h1]; rfl

/-! ## The parameters: no event changes them (R4) -/

@[simp] theorem Slave.onWait_params (us : Nat) (S : Slave) : (S.onWait us).params = S.params := by
  unfold Slave.onWait; split <;> rfl

@[simp] theorem Slave.skipCell_params (S : Slave) : S.skipCell.params = S.params := by
  obtain h | ⟨r, -, h⟩ := Slave.skipCell_eq S
  · rw [h]
  · rw [h]; rfl

@[simp] theorem Slave.failedPin_params (p : Pin) (drawn : List Bool) (S : Slave) : (S.failedPin p drawn).params = S.params := by
  cases p <;> simp only [Slave.failedPin]
  split <;> rfl

theorem Slave.onPin_params {S S' : Slave} {p : Pin} {v : Level} (h : S.onPin p v = .ok S') : S'.params = S.params := by
  cases p with
  | res =>
    simp only [Slave.onPin, Slave.onReset] at h
    split at h
    · obtain rfl := (Except.ok.inj h).symm; rfl
    · split at h
      · cases h
      · split at h
        · obtain rfl := (Except.ok.inj h).symm; rfl
        · cases h
    · obtain rfl := (Except.ok.inj h).symm; rfl
    · obtain rfl := (Except.ok.inj h).symm; rfl
  | cs => obtain rfl := (Except.ok.inj h).symm; rfl
  | dc => obtain rfl := (Except.ok.inj h).symm; rfl

theorem Slave.commandByte_params {S S' : Slave} {b : Byte} (h : S.commandByte b = .ok S') : S'.params = S.params := by
  rcases Slave.commandByte_ok h with ⟨m, -, -, rfl⟩ | ⟨m, -, -, rfl⟩ | ⟨m, -, -, rfl⟩ | ⟨m, -, rfl⟩ | ⟨m, -, rfl⟩ | ⟨m, a, -, h⟩
  · simp
  · rfl
  · rfl
  · simp
  · rfl
  · rcases Slave.executeC3_ok h with ⟨-, -, rfl⟩ | ⟨-, -, rfl⟩ <;> rfl

theorem Slave.dataByte_params {S S' : Slave} {b : Byte} (h : S.dataByte b = .ok S') : S'.params = S.params := by
  obtain ⟨r, -, -, -, -, -, rfl⟩ := Slave.dataByte_ok.mp h; rfl

theorem Slave.takeByte_params {S S' : Slave} {dc : Option Level} {b : Byte} (h : S.takeByte dc b = .ok S') : S'.params = S.params := by
  match dc, h with
  | some false, h => exact Slave.commandByte_params h
  | some true, h => exact Slave.dataByte_params h
  | none, h => cases h

theorem Slave.takeBytes_params {dc : Option Level} {bs : List Byte} {S S' : Slave} (h : S.takeBytes dc bs = .ok S') :
    S'.params = S.params := by
  induction bs generalizing S with
  | nil => obtain rfl := (Except.ok.inj h).symm; rfl
  | cons b bs ih =>
    rw [Slave.takeBytes_cons] at h
    cases hd : S.takeByte dc b with
    | error e => simp [hd, Except.bind] at h
    | ok T =>
      simp only [hd, Except.bind] at h
      exact (ih h).trans (Slave.takeByte_params hd)

theorem Slave.receive_params {ps : Pins} {bs : List Byte} {S S' : Slave} (h : S.receive ps bs = .ok S') : S'.params = S.params :=
  Slave.takeBytes_params (Slave.receive_ok h).2.2.2

theorem Slave.failedBurst_params {ps : Pins} {bs : List Byte} {drawn : List Bool} {S S' : Slave}
    (h : S.failedBurst ps bs drawn = .ok S') : S'.params = S.params := by
  induction bs generalizing drawn S with
  | nil => obtain rfl := (Except.ok.inj h).symm; rfl
  | cons b bs ih =>
    simp only [Slave.failedBurst] at h
    split at h
    · split at h
      · cases h
      · rename_i T hT
        exact (ih h).trans (Slave.receive_params hT)
    · exact (ih h).trans (Slave.skipCell_params S)

theorem Slave.failedTx_params {ps : Pins} {bs : List Byte} {drawn : List Bool} {S S' : Slave}
    (h : S.failedTx ps bs drawn = .ok S') : S'.params = S.params := by
  unfold Slave.failedTx at h
  split at h
  · exact Slave.failedBurst_params h
  · split at h
    · obtain rfl := (Except.ok.inj h).symm; rfl
    · exact Slave.receive_params h

end Machine
end Sys2Proof
end

