-- ==== Sys2Proof/Laws/Ops.lean ====
section
/-! SUPPORT. Laws/Ops.lean: what each shared operation of the master can do, said once: emitting an event, holding, performing
a list of events, sending command frames and a burst, ending an operation. -/

namespace Sys2Proof.Machine

/-! ## One event -/

/-- An event goes on only by completing (R166). -/
theorem emit_run {e : Event} {s t : State} :
    emit e s = .run t ↔ s.nextAnswer = .ok ∧ (s.popAnswer.record e .ok).deliver e = .ok t := by
  unfold emit
  cases ha : s.nextAnswer with
  | ok => cases hd : (s.popAnswer.record e .ok).deliver e <;> simp
  | fail drawn => cases hd : (s.popAnswer.record e .fail).deliverFailed e drawn <;> simp [hd]
  | hang => simp

/-- An exception out of an event is a TransmissionError with its position, and leaves what a failed event leaves (R162,
R168). -/
theorem emit_raised {e : Event} {s t : State} {x : Exception} :
    emit e s = .raised x t ↔
      x = .transmissionError s.trace.length e ∧ ∃ drawn, s.nextAnswer = .fail drawn ∧
        (s.popAnswer.record e .fail).deliverFailed e drawn = .ok t := by
  unfold emit
  cases ha : s.nextAnswer with
  | ok => cases hd : (s.popAnswer.record e .ok).deliver e <;> simp
  | fail drawn => cases hd : (s.popAnswer.record e .fail).deliverFailed e drawn <;> simp [hd, eq_comm]
  | hang => simp

/-- An event hangs only on the answer `hang`, and changes nothing but the trace (R163). -/
theorem emit_hung {e : Event} {s t : State} :
    emit e s = .hung t ↔ s.nextAnswer = .hang ∧ t = s.popAnswer.record e .hang := by
  unfold emit
  cases ha : s.nextAnswer with
  | ok => cases hd : (s.popAnswer.record e .ok).deliver e <;> simp
  | fail drawn => cases hd : (s.popAnswer.record e .fail).deliverFailed e drawn <;> simp [hd]
  | hang => simp [eq_comm]

/-- A wait always completes (R166). -/
theorem holdFor_eq (k : Nat) (s : State) :
    holdFor k s = .run { s with
      trace := s.trace ++ [⟨.wait (k + s.nextExcess), .ok⟩]
      slave := s.slave.onWait (k + s.nextExcess)
      waits := s.waits.tail } := rfl

/-! ## Lists of events -/

@[simp] theorem performAll_nil (s : State) : performAll [] s = .run s := rfl

theorem performAll_cons (a : Action) (as : List Action) (s : State) :
    performAll (a :: as) s = (perform a s).andThen (performAll as) := rfl

@[simp] theorem Flow.andThen_run (s : State) (k : State → Flow) : (Flow.run s).andThen k = k s := rfl
@[simp] theorem Flow.andThen_raised (x : Exception) (s : State) (k : State → Flow) :
    (Flow.raised x s).andThen k = .raised x s := rfl
@[simp] theorem Flow.andThen_hung (s : State) (k : State → Flow) : (Flow.hung s).andThen k = .hung s := rfl
@[simp] theorem Flow.andThen_stop (e : Stop) (k : State → Flow) : (Flow.stop e).andThen k = .stop e := rfl

theorem Flow.andThen_assoc (f : Flow) (g h : State → Flow) :
    (f.andThen g).andThen h = f.andThen (fun s => (g s).andThen h) := by
  cases f <;> rfl

theorem performAll_append (as bs : List Action) (s : State) :
    performAll (as ++ bs) s = (performAll as s).andThen (performAll bs) := by
  induction as generalizing s with
  | nil => rfl
  | cons a as ih =>
    rw [List.cons_append, performAll_cons, performAll_cons, Flow.andThen_assoc]
    congr 1
    funext t
    exact ih t

/-! ## Every event completes -/

theorem State.nextAnswer_of_take {s : State} {n : Nat} (h : s.answers.take (n + 1) = List.replicate (n + 1) .ok) :
    s.nextAnswer = .ok ∧ s.answers.tail.take n = List.replicate n .ok ∧ s.answers.tail = s.answers.drop 1 := by
  cases ha : s.answers with
  | nil => simp [ha] at h
  | cons a as =>
    simp only [ha, List.take_succ_cons, List.replicate_succ, List.cons.injEq] at h
    simp [State.nextAnswer, ha, h.1, h.2]

/-- The effect of a list of events that all complete: each is recorded and delivered, in order (R57, R166). -/
def State.deliverAll : List Event → State → Except Stop State
  | [], s => .ok s
  | e :: es, s => ((s.popAnswer.record e .ok).deliver e).bind (State.deliverAll es)

/-- A list of events that the environment lets complete runs to its end, unless the slave gives it no meaning. -/
theorem performAll_events {es : List Event} {s : State} (h : s.answers.take es.length = List.replicate es.length .ok) :
    performAll (es.map .event) s =
      match State.deliverAll es s with
      | .ok t => .run t
      | .error x => .stop x := by
  induction es generalizing s with
  | nil => rfl
  | cons e es ih =>
    obtain ⟨h1, h2, -⟩ := State.nextAnswer_of_take h
    have hd : ∀ t, (s.popAnswer.record e .ok).deliver e = .ok t →
        t.answers = s.answers.tail := by
      intro t ht
      cases e with
      | wait us => simp only [State.deliver, Except.ok.injEq] at ht; subst ht; rfl
      | tx bs =>
        simp only [State.deliver] at ht
        split at ht
        · simp only [Except.ok.injEq] at ht; subst ht; rfl
        · cases ht
      | pin p v =>
        simp only [State.deliver] at ht
        split at ht
        · simp only [Except.ok.injEq] at ht; subst ht; rfl
        · cases ht
      | pinCfg p v =>
        simp only [State.deliver] at ht
        split at ht
        · simp only [Except.ok.injEq] at ht; subst ht; rfl
        · cases ht
    simp only [List.map_cons, performAll_cons, perform, emit, h1, State.deliverAll]
    cases hq : (s.popAnswer.record e .ok).deliver e with
    | error x => rfl
    | ok t =>
      simp only [Flow.andThen_run, Except.bind]
      exact ih (by rw [hd t hq]; exact h2)

theorem tail_four {α : Type} (l : List α) : l.tail.tail.tail.tail = l.drop 4 := by
  match l with
  | [] => rfl
  | [_] => rfl
  | [_, _] => rfl
  | [_, _, _] => rfl
  | _ :: _ :: _ :: _ :: _ => rfl

theorem tail_five {α : Type} (l : List α) : l.tail.tail.tail.tail.tail = l.drop 5 := by
  rw [tail_four]; simp

/-- One command frame that completes: the slave takes the byte, chip-select is released, data/command-select is low
(R106). -/
theorem deliverAll_commandFrame {s : State} (b : Byte) (hp : s.slave.phase = .ready)
    (hr : s.master.pins.res = some true) :
    State.deliverAll (commandFrame b) s =
      match s.slave.commandByte b with
      | .ok S => .ok { s with
          master := { s.master with pins := ⟨some true, some false, s.master.pins.res⟩ }
          trace := s.trace ++ okEntries (commandFrame b)
          slave := S
          answers := s.answers.drop 4 }
      | .error x => .error x := by
  have hrec : s.slave.receive ⟨some false, some false, s.master.pins.res⟩ [b] = s.slave.commandByte b := by
    rw [Slave.receive_eq (ps := ⟨some false, some false, s.master.pins.res⟩) [b] hp hr rfl]
    simp only [Slave.takeBytes, Slave.takeByte]
    cases s.slave.commandByte b <;> rfl
  simp only [commandFrame, State.deliverAll, State.deliver, Slave.onPin, Except.bind, State.record, State.popAnswer, Pins.set, hrec]
  cases s.slave.commandByte b with
  | error x => rfl
  | ok S => simp [okEntries, tail_four]

/-- Command frames that all complete: the slave takes the bytes one after the other (R106, R107, R118). -/
theorem deliverAll_commandFrames {s : State} (bytes : List Byte) (hne : bytes ≠ []) (hp : s.slave.phase = .ready)
    (hr : s.master.pins.res = some true) :
    State.deliverAll (bytes.flatMap commandFrame) s =
      match s.slave.takeBytes (some false) bytes with
      | .ok S => .ok { s with
          master := { s.master with pins := ⟨some true, some false, s.master.pins.res⟩ }
          trace := s.trace ++ okEntries (bytes.flatMap commandFrame)
          slave := S
          answers := s.answers.drop (4 * bytes.length) }
      | .error x => .error x := by
  induction bytes generalizing s with
  | nil => exact absurd rfl hne
  | cons b bytes ih =>
    have happ : ∀ (es fs : List Event) (s : State),
        State.deliverAll (es ++ fs) s = (State.deliverAll es s).bind (State.deliverAll fs) := by
      intro es fs
      induction es with
      | nil => intro s; rfl
      | cons e es ihe =>
        intro s
        simp only [List.cons_append, State.deliverAll]
        cases (s.popAnswer.record e .ok).deliver e with
        | error x => rfl
        | ok t => exact ihe t
    rw [List.flatMap_cons, happ, deliverAll_commandFrame b hp hr, Slave.takeBytes_cons, Slave.takeByte_command]
    cases hb : s.slave.commandByte b with
    | error x => rfl
    | ok S =>
      obtain ⟨-, hph, -, -⟩ := Slave.commandByte_frame hb
      simp only [Except.bind]
      by_cases hn : bytes = []
      · subst hn
        simp [State.deliverAll]
      · rw [ih hn (by simpa [hph] using hp) (by simpa using hr)]
        cases S.takeBytes (some false) bytes with
        | error x => rfl
        | ok S' =>
          simp only [List.length_cons, List.drop_drop, okEntries, List.map_append, List.append_assoc]
          congr 2
          congr 1
          omega

/-- A data frame that completes: the slave takes the bytes of the burst one after the other, chip-select is released,
data/command-select is high (R109, R118). -/
theorem deliverAll_dataFrame {s : State} (bytes : List Byte) (hp : s.slave.phase = .ready)
    (hr : s.master.pins.res = some true) :
    State.deliverAll (dataFrame bytes) s =
      match s.slave.takeBytes (some true) bytes with
      | .ok S => .ok { s with
          master := { s.master with pins := ⟨some true, some true, s.master.pins.res⟩ }
          trace := s.trace ++ okEntries (dataFrame bytes)
          slave := S
          answers := s.answers.drop 5 }
      | .error x => .error x := by
  have hrec : s.slave.receive ⟨some false, some true, s.master.pins.res⟩ bytes = s.slave.takeBytes (some true) bytes :=
    Slave.receive_eq bytes hp hr rfl
  simp only [dataFrame, State.deliverAll, State.deliver, Slave.onPin, Except.bind, State.record, State.popAnswer, Pins.set, hrec]
  cases s.slave.takeBytes (some true) bytes with
  | error x => rfl
  | ok S => simp [okEntries, tail_five]

/-! ## The end of an operation -/

@[simp] theorem Flow.finish_run (r : Result) (s : State) : (Flow.run s).finish r = .next (s.giveBack r) := rfl
@[simp] theorem Flow.finish_raised (r : Result) (x : Exception) (s : State) :
    (Flow.raised x s).finish r = .next (s.takeException x) := rfl
@[simp] theorem Flow.finish_hung (r : Result) (s : State) : (Flow.hung s).finish r = .next s.hang := rfl
@[simp] theorem Flow.finish_stop (r : Result) (e : Stop) : (Flow.stop e).finish r = e.answer := rfl

/-- An operation ends with a next state in one of three ways: it returned, it raised, it hangs (R16). -/
theorem Flow.finish_next {r : Result} {f : Flow} {t : State} (h : f.finish r = .next t) :
    (∃ s, f = .run s ∧ t = s.giveBack r) ∨ (∃ x s, f = .raised x s ∧ t = s.takeException x) ∨
    (∃ s, f = .hung s ∧ t = s.hang) := by
  cases f with
  | run s => exact .inl ⟨s, rfl, by simpa using h.symm⟩
  | raised x s => exact .inr (.inl ⟨x, s, rfl, by simpa using h.symm⟩)
  | hung s => exact .inr (.inr ⟨s, rfl, by simpa using h.symm⟩)
  | stop e => cases e <;> simp [Stop.answer] at h

theorem whenFree_free {s : State} (k : Answered) (h : s.hung = false) : whenFree s k = k := by
  simp [whenFree, h]

theorem whenFree_hung {s : State} (k : Answered) (h : s.hung = true) : whenFree s k = .next s := by
  simp [whenFree, h]

/-- An admitted operation of the internal interface (R85). -/
theorem runInternal_admitted {s : State} (acts : List Action) (hh : s.hung = false) (ha : s.internalAdmitted = true) :
    runInternal acts s = (performAll acts s).finish .unit := by
  simp [runInternal, whenFree, hh, ha]

end Sys2Proof.Machine
end

