-- ==== Sys2Proof/Laws/Runs.lean ====
section
/-! SUPPORT. Laws/Runs.lean: how a list of events ends: run to its end, ended by an exception, or stuck; and what command frames, a
burst and the reset pulse do when every event completes. -/

namespace Sys2Proof

theorem asByte_toNat (b : Byte) : asByte (b.toNat : Int) = some b := by
  have : isByte (b.toNat : Int) = true := by simp [isByte]; omega
  simp [asByte, this]

theorem asByte_none {v : Int} (h : v < 0 ∨ 255 < v) : asByte v = none := by
  simp [asByte, isByte]; omega

namespace Machine

theorem asBytes_toNat (bs : List Byte) : asBytes (bs.map (fun b => (b.toNat : Int))) = some bs := by
  induction bs with
  | nil => rfl
  | cons b bs ih => simp only [List.map_cons, asBytes, asByte_toNat, ih]

/-- A list with an element that is no byte is no list of bytes (R113). -/
theorem asBytes_none {vs : List Int} {v : Int} (hm : v ∈ vs) (hv : v < 0 ∨ 255 < v) : asBytes vs = none := by
  induction vs with
  | nil => cases hm
  | cons x vs ih =>
    rcases List.mem_cons.mp hm with rfl | hm
    · simp [asBytes, asByte_none hv]
    · rw [asBytes, ih hm]; cases asByte x <;> rfl

/-! ## Admission -/

/-- A pin is configured exactly if the trace has a completed `PinCfg` of it (R8, R85). -/
theorem State.pinConfigured_iff {s : State} {p : Pin} : s.pinConfigured p = true ↔ ∃ v, ⟨.pinCfg p v, .ok⟩ ∈ s.trace := by
  simp only [State.pinConfigured, List.any_eq_true, TraceEntry.configures, decide_eq_true_eq]
  constructor
  · rintro ⟨x, hx, rfl | rfl⟩
    · exact ⟨_, hx⟩
    · exact ⟨_, hx⟩
  · rintro ⟨v, hv⟩
    exact ⟨_, hv, by cases v <;> simp⟩

/-- When the direct operations are admitted (R85). -/
theorem State.internalAdmitted_iff {s : State} :
    s.internalAdmitted = true ↔ s.master.life = .init ∨ ∀ p : Pin, ∃ v, ⟨.pinCfg p v, .ok⟩ ∈ s.trace := by
  simp only [State.internalAdmitted, Bool.or_eq_true, Bool.and_eq_true, decide_eq_true_eq, State.pinConfigured_iff]
  exact or_congr_right ⟨fun h p => by cases p; exacts [h.1.1, h.1.2, h.2], fun h => ⟨⟨h .cs, h .dc⟩, h .res⟩⟩

/-! ## How a list of events ends -/

/-- The event that an element of an event list emits: itself, or a wait at or above its minimum. -/
def Action.Emits (a : Action) (e : Event) : Prop :=
  match a with
  | .event e' => e = e'
  | .hold k => ∃ d, k ≤ d ∧ e = .wait d

/-- What no event touches: the lifecycle, the geometry, the buffer, the log, the outcome the host saw, the calls to come. -/
structure State.SameHost (s t : State) : Prop where
  life : t.master.life = s.master.life
  width : t.master.width = s.master.width
  height : t.master.height = s.master.height
  fb : t.master.fb = s.master.fb
  log : t.log = s.log
  outcome : t.outcome = s.outcome
  hung : t.hung = s.hung
  requests : t.requests = s.requests

theorem State.SameHost.refl (s : State) : State.SameHost s s := ⟨rfl, rfl, rfl, rfl, rfl, rfl, rfl, rfl⟩

theorem State.SameHost.trans {s t u : State} (h : State.SameHost s t) (k : State.SameHost t u) : State.SameHost s u :=
  ⟨k.life.trans h.life, k.width.trans h.width, k.height.trans h.height, k.fb.trans h.fb, k.log.trans h.log,
    k.outcome.trans h.outcome, k.hung.trans h.hung, k.requests.trans h.requests⟩

theorem State.deliver_frame {e : Event} {s t : State} (h : s.deliver e = .ok t) :
    State.SameHost s t ∧ t.trace = s.trace ∧ t.answers = s.answers ∧ t.waits = s.waits := by
  cases e with
  | wait us => simp only [State.deliver, Except.ok.injEq] at h; subst h; exact ⟨⟨rfl, rfl, rfl, rfl, rfl, rfl, rfl, rfl⟩, rfl, rfl, rfl⟩
  | tx bs =>
    simp only [State.deliver] at h
    split at h
    · simp only [Except.ok.injEq] at h; subst h; exact ⟨⟨rfl, rfl, rfl, rfl, rfl, rfl, rfl, rfl⟩, rfl, rfl, rfl⟩
    · cases h
  | pin p v =>
    simp only [State.deliver] at h
    split at h
    · simp only [Except.ok.injEq] at h; subst h; exact ⟨⟨rfl, rfl, rfl, rfl, rfl, rfl, rfl, rfl⟩, rfl, rfl, rfl⟩
    · cases h
  | pinCfg p v =>
    simp only [State.deliver] at h
    split at h
    · simp only [Except.ok.injEq] at h; subst h; exact ⟨⟨rfl, rfl, rfl, rfl, rfl, rfl, rfl, rfl⟩, rfl, rfl, rfl⟩
    · cases h

theorem State.deliverFailed_frame {e : Event} {drawn : List Bool} {s t : State} (h : s.deliverFailed e drawn = .ok t) :
    State.SameHost s t ∧ t.trace = s.trace ∧ t.answers = s.answers ∧ t.waits = s.waits := by
  cases e with
  | wait us => simp only [State.deliverFailed, Except.ok.injEq] at h; subst h; exact ⟨⟨rfl, rfl, rfl, rfl, rfl, rfl, rfl, rfl⟩, rfl, rfl, rfl⟩
  | tx bs =>
    simp only [State.deliverFailed] at h
    split at h
    · simp only [Except.ok.injEq] at h; subst h; exact ⟨⟨rfl, rfl, rfl, rfl, rfl, rfl, rfl, rfl⟩, rfl, rfl, rfl⟩
    · cases h
  | pin p v =>
    simp only [State.deliverFailed, Except.ok.injEq] at h; subst h; exact ⟨⟨rfl, rfl, rfl, rfl, rfl, rfl, rfl, rfl⟩, rfl, rfl, rfl⟩
  | pinCfg p v =>
    simp only [State.deliverFailed, Except.ok.injEq] at h; subst h; exact ⟨⟨rfl, rfl, rfl, rfl, rfl, rfl, rfl, rfl⟩, rfl, rfl, rfl⟩

/-- An element that completes adds one entry to the trace (R18, R166). -/
theorem perform_run {a : Action} {s t : State} (h : perform a s = .run t) :
    State.SameHost s t ∧ ∃ e, a.Emits e ∧ t.trace = s.trace ++ [⟨e, .ok⟩] := by
  cases a with
  | event e =>
    obtain ⟨-, hd⟩ := emit_run.mp h
    obtain ⟨h1, h2, -, -⟩ := State.deliver_frame hd
    exact ⟨⟨h1.1, h1.2, h1.3, h1.4, h1.5, h1.6, h1.7, h1.8⟩, e, rfl, h2⟩
  | hold k =>
    simp only [perform, holdFor_eq, Flow.run.injEq] at h
    subst h
    exact ⟨⟨rfl, rfl, rfl, rfl, rfl, rfl, rfl, rfl⟩, _, ⟨_, Nat.le_add_right _ _, rfl⟩, rfl⟩

theorem emit_raised_frame {e : Event} {s t : State} {x : Exception} (h : emit e s = .raised x t) :
    State.SameHost s t ∧ x = .transmissionError s.trace.length e ∧ t.trace = s.trace ++ [⟨e, .fail⟩] := by
  obtain ⟨h0, drawn, -, hd⟩ := emit_raised.mp h
  obtain ⟨h1, h2, -, -⟩ := State.deliverFailed_frame hd
  exact ⟨⟨h1.1, h1.2, h1.3, h1.4, h1.5, h1.6, h1.7, h1.8⟩, h0, h2⟩

/-- A list that runs to its end added exactly its events, all completed. -/
theorem performAll_run {as : List Action} {s t : State} (h : performAll as s = .run t) :
    State.SameHost s t ∧ ∃ es : List Event, List.Forall₂ Action.Emits as es ∧ t.trace = s.trace ++ okEntries es := by
  induction as generalizing s with
  | nil =>
    simp only [performAll_nil, Flow.run.injEq] at h
    subst h
    exact ⟨State.SameHost.refl _, [], .nil, by simp [okEntries]⟩
  | cons a as ih =>
    rw [performAll_cons] at h
    cases hp : perform a s with
    | run u =>
      rw [hp, Flow.andThen_run] at h
      obtain ⟨h1, e, he, ht⟩ := perform_run hp
      obtain ⟨h2, es, hes, ht2⟩ := ih h
      exact ⟨h1.trans h2, e :: es, .cons he hes, by rw [ht2, ht]; simp [okEntries]⟩
    | raised x u => simp [hp] at h
    | hung u => simp [hp] at h
    | stop x => simp [hp] at h

/-- A list ended by an exception: the events before the failing one all completed, the ones after it are not emitted (R167). -/
theorem performAll_raised {as : List Action} {s t : State} {x : Exception} (h : performAll as s = .raised x t) :
    ∃ done e rest u, as = done ++ .event e :: rest ∧ performAll done s = .run u ∧ emit e u = .raised x t := by
  induction as generalizing s with
  | nil => simp at h
  | cons a as ih =>
    rw [performAll_cons] at h
    cases hp : perform a s with
    | run u =>
      rw [hp, Flow.andThen_run] at h
      obtain ⟨done, e, rest, v, rfl, h2, h3⟩ := ih h
      exact ⟨a :: done, e, rest, v, rfl, by rw [performAll_cons, hp, Flow.andThen_run, h2], h3⟩
    | raised y u =>
      rw [hp, Flow.andThen_raised] at h
      cases a with
      | event e => exact ⟨[], e, as, s, rfl, rfl, by rw [← h, ← hp]; rfl⟩
      | hold k => simp [perform, holdFor_eq] at hp
    | hung u => simp [hp] at h
    | stop y => simp [hp] at h

/-- A list that hangs: the events before the hanging one all completed (R163). -/
theorem performAll_hung {as : List Action} {s t : State} (h : performAll as s = .hung t) :
    ∃ done e rest u, as = done ++ .event e :: rest ∧ performAll done s = .run u ∧ emit e u = .hung t := by
  induction as generalizing s with
  | nil => simp at h
  | cons a as ih =>
    rw [performAll_cons] at h
    cases hp : perform a s with
    | run u =>
      rw [hp, Flow.andThen_run] at h
      obtain ⟨done, e, rest, v, rfl, h2, h3⟩ := ih h
      exact ⟨a :: done, e, rest, v, rfl, by rw [performAll_cons, hp, Flow.andThen_run, h2], h3⟩
    | raised y u => simp [hp] at h
    | hung u =>
      rw [hp, Flow.andThen_hung] at h
      cases a with
      | event e => exact ⟨[], e, as, s, rfl, rfl, by rw [← h, ← hp]; rfl⟩
      | hold k => simp [perform, holdFor_eq] at hp
    | stop y => simp [hp] at h

/-! ## A property that events keep -/

/-- Wherever the flow stands, the property holds of its state. -/
def Flow.Holds (P : State → Prop) : Flow → Prop
  | .run s => P s
  | .raised _ s => P s
  | .hung s => P s
  | .stop _ => True

theorem Flow.Holds.andThen {P : State → Prop} {f : Flow} {k : State → Flow} (hf : f.Holds P)
    (hk : ∀ s, P s → (k s).Holds P) : (f.andThen k).Holds P := by
  cases f with
  | run s => exact hk s hf
  | raised x s => exact hf
  | hung s => exact hf
  | stop e => trivial

/-- A property that every element of a list keeps holds however the list ends. -/
theorem performAll_holds {P : State → Prop} {as : List Action} (hstep : ∀ a ∈ as, ∀ s, P s → (perform a s).Holds P)
    {s : State} (h : P s) : (performAll as s).Holds P := by
  induction as generalizing s with
  | nil => exact h
  | cons a as ih =>
    exact (hstep a List.mem_cons_self s h).andThen
      (fun t ht => ih (fun b hb => hstep b (List.mem_cons_of_mem _ hb)) ht)

/-! ## Frames and the reset pulse, when every event completes -/

theorem len_frames (bytes : List Byte) : (bytes.flatMap commandFrame).length = 4 * bytes.length := by
  induction bytes with
  | nil => rfl
  | cons b bs ih => simp [commandFrame, ih]; omega

/-- Command frames that all complete (R106, R107). -/
theorem perform_frames {s : State} {bytes : List Byte} (hne : bytes ≠ []) (hp : s.slave.phase = .ready) (hr : s.master.pins.res = some true)
    (ha : s.answers.take (4 * bytes.length) = List.replicate (4 * bytes.length) .ok) :
    performAll (commandFrames bytes) s = match s.slave.takeBytes (some false) bytes with
      | .ok S => .run { s with
          master := { s.master with pins := ⟨some true, some false, s.master.pins.res⟩ }
          trace := s.trace ++ okEntries (bytes.flatMap commandFrame)
          slave := S
          answers := s.answers.drop (4 * bytes.length) }
      | .error x => .stop x := by
  rw [commandFrames, performAll_events (by rw [len_frames]; exact ha), deliverAll_commandFrames bytes hne hp hr]
  cases s.slave.takeBytes (some false) bytes <;> rfl

/-- A data frame that completes (R109). -/
theorem perform_burst {s : State} {bytes : List Byte} (hp : s.slave.phase = .ready) (hr : s.master.pins.res = some true)
    (ha : s.answers.take 5 = List.replicate 5 .ok) :
    performAll (burstFrame bytes) s = match s.slave.takeBytes (some true) bytes with
      | .ok S => .run { s with
          master := { s.master with pins := ⟨some true, some true, s.master.pins.res⟩ }
          trace := s.trace ++ okEntries (dataFrame bytes)
          slave := S
          answers := s.answers.drop 5 }
      | .error x => .stop x := by
  rw [burstFrame, performAll_events (es := dataFrame bytes) ha, deliverAll_dataFrame bytes hp hr]
  cases s.slave.takeBytes (some true) bytes <;> rfl

/-- An admitted command, when its events complete (R76). -/
theorem send_runs {s : State} {bytes : List Byte} {S : Slave} (hl : s.LinkUp) (hne : bytes ≠ []) (ha : s.Answers (4 * bytes.length))
    (ht : s.slave.takeBytes (some false) bytes = .ok S) :
    runInternal (commandFrames bytes) s = .next (s.afterEvents (bytes.flatMap commandFrame) true false S .unit) := by
  rw [runInternal_admitted _ ha.1 hl.1, perform_frames hne hl.2.1 hl.2.2 ha.2, ht]
  simp only [Flow.finish_run, State.giveBack, State.afterEvents, len_frames]

/-- A command the slave gives no meaning. -/
theorem send_stops {s : State} {bytes : List Byte} {e : Stop} (hl : s.LinkUp) (hne : bytes ≠ []) (ha : s.Answers (4 * bytes.length))
    (ht : s.slave.takeBytes (some false) bytes = .error e) :
    runInternal (commandFrames bytes) s = e.answer := by
  rw [runInternal_admitted _ ha.1 hl.1, perform_frames hne hl.2.1 hl.2.2 ha.2, ht]
  rfl

/-- An admitted data frame, when its events complete. -/
theorem burst_runs {s : State} {bytes : List Byte} {S : Slave} (hl : s.LinkUp) (ha : s.Answers 5)
    (ht : s.slave.takeBytes (some true) bytes = .ok S) :
    runInternal (burstFrame bytes) s = .next (s.afterEvents (dataFrame bytes) true true S .unit) := by
  rw [runInternal_admitted _ ha.1 hl.1, perform_burst hl.2.1 hl.2.2 ha.2, ht]
  simp [State.giveBack, State.afterEvents, dataFrame]

theorem Slave.idle_self {S : Slave} (hd : S.dec = some .idle) : { S with dec := some .idle } = S := by
  cases S; simp at hd; subst hd; rfl

/-- Two cells inside the columns of the RAM never share an address (R45; log entry 19). -/
theorem ramAddr_inj {P : Params} {p c p' c' : Nat} (hc : c < P.ramCols) (hc' : c' < P.ramCols)
    (h : ramAddr P p c = ramAddr P p' c') : p = p' ∧ c = c' := by
  have hd : ∀ p c, c < P.ramCols → (p * P.ramCols + c) / P.ramCols = p ∧ (p * P.ramCols + c) % P.ramCols = c := by
    intro p c hc
    rw [Nat.mul_comm]
    exact ⟨by rw [Nat.mul_add_div (by omega), Nat.div_eq_of_lt hc, Nat.add_zero], by rw [Nat.mul_add_mod, Nat.mod_eq_of_lt hc]⟩
  simp only [ramAddr] at h
  exact ⟨by rw [← (hd p c hc).1, h, (hd p' c' hc').1], by rw [← (hd p c hc).2, h, (hd p' c' hc').2]⟩

/-- A cell inside the RAM has an address below its size. -/
theorem ramAddr_lt {P : Params} {p c : Nat} (hp : p < P.ramPages) (hc : c < P.ramCols) :
    ramAddr P p c < P.ramPages * P.ramCols := by
  have := Nat.mul_le_mul_right P.ramCols hp
  rw [Nat.succ_mul] at this
  simp only [ramAddr]; omega

/-- One data byte of a slave that can take it (R137, R49). -/
theorem Slave.dataByte_mapped {S : Slave} {cs ce cp ps pe pp : Nat} (b : Byte) (h : S.MapAt cs ce cp ps pe pp) :
    S.dataByte b = .ok { S with
          ram := S.ram.write (ramAddr S.params pp cp) b
          colPtr := some (if cp = ce then cs else cp + 1)
          pagePtr := some (if cp = ce then (if pp = pe then ps else pp + 1) else pp) } := by
  obtain ⟨hd, hm, h1, h2, h3, h4, h5, h6, c1, c2, c3, p1, p2, p3⟩ := h
  exact Slave.dataByte_ok.mpr ⟨⟨0, cs, ce, cp, ps, pe, pp⟩, hd, Slave.mapRegs_ok.mpr ⟨hm, h1, h2, h3, h4, h5, h6⟩, rfl, by simp; omega, by simp; omega, rfl⟩

/-- The reset line high, between operations (R115). -/
theorem Slave.resetHigh_held {S : Slave} (h : S.LowPhaseHeld) : ∃ S', S.onPin .res true = .ok S' ∧ S'.phase ≠ .inReset := by
  cases hp : S.phase with
  | inReset =>
    obtain ⟨t, ht, hle⟩ := h hp
    exact ⟨S.afterReset, by simp [Slave.onPin, Slave.onReset, hp, ht, S.params.legal.2.2.2.2.trans hle], by simp [Slave.afterReset]⟩
  | unknown => exact ⟨S, by simp [Slave.onPin, Slave.onReset, hp], by simp [hp]⟩
  | ready => exact ⟨S, by simp [Slave.onPin, Slave.onReset, hp], by simp [hp]⟩

/-- The reset pulse, when its pin events complete (R90, R43). -/
theorem perform_reset {s : State} (h : s.slave.LowPhaseHeld) (ha : s.answers.take 3 = List.replicate 3 .ok) :
    ∃ d1 d2, 1000 ≤ d1 ∧ 10000 ≤ d2 ∧ (∀ e1 e2 rest, s.waits = e1 :: e2 :: rest → d1 = 1000 + e1 ∧ d2 = 10000 + e2) ∧
      performAll resetPulse s = .run { s with
        master := { s.master with pins := { s.master.pins with res := some true } }
        trace := s.trace ++
          okEntries [.pin .res true, .wait d1, .pin .res false, .wait d2, .pin .res true]
        slave := { Slave.powerOn s.params with phase := .ready, dec := some .idle, resLowUs := some d2 }
        answers := s.answers.drop 3
        waits := s.waits.drop 2 } := by
  obtain ⟨S1, h1, hn⟩ := Slave.resetHigh_held h
  match hans : s.answers with
  | [] => simp [hans] at ha
  | [_] => simp [hans] at ha
  | [_, _] => simp [hans] at ha
  | x :: y :: z :: rest =>
    simp [hans, List.replicate] at ha
    obtain ⟨rfl, rfl, rfl⟩ := ha
    let s1 : State := { s with master := { s.master with pins := s.master.pins.set .res (some true) }, trace := s.trace ++ [⟨.pin .res true, .ok⟩], answers := .ok :: .ok :: rest, slave := S1 }
    let d1 := 1000 + s1.nextExcess
    have hw1 : S1.onWait d1 = S1 := by
      unfold Slave.onWait; split <;> simp_all
    let s2 : State := { s1 with trace := s1.trace ++ [⟨.wait d1, .ok⟩], waits := s.waits.tail }
    let s3 : State := { s2 with master := { s.master with pins := s.master.pins.set .res (some false) }, trace := s2.trace ++ [⟨.pin .res false, .ok⟩], answers := .ok :: rest, slave := { S1 with phase := .inReset, resLowUs := some 0 } }
    let d2 := 10000 + s3.nextExcess
    refine ⟨d1, d2, by omega, by omega, ?_, ?_⟩
    · intro e1 e2 r hw
      simp [d1, d2, State.nextExcess, s1, s2, s3, hw]
    have p1 : perform (.event (.pin .res true)) s = .run s1 := by
      simp [perform, emit, State.nextAnswer, hans, State.deliver, h1, State.record, State.popAnswer, s1]
    have p2 : perform (.hold Config.tResPre) s1 = .run s2 := by
      simp only [perform, holdFor_eq]
      show Flow.run _ = Flow.run _
      have : Slave.onWait (Config.tResPre + s1.nextExcess) s1.slave = s1.slave := hw1
      rw [this]; rfl
    have p3 : perform (.event (.pin .res false)) s2 = .run s3 := by
      simp [perform, emit, State.nextAnswer, s2, s1, State.deliver, Slave.onPin, Slave.onReset, State.record, State.popAnswer, s3, Pins.set]
    have p4 : perform (.hold Config.tResLow) s3 = .run { s3 with trace := s3.trace ++ [⟨.wait d2, .ok⟩], waits := s.waits.tail.tail, slave := { S1 with phase := .inReset, resLowUs := some d2 } } := by
      simp only [perform, holdFor_eq]
      simp [s3, Slave.onWait, s2, s1, d2, Config.tResLow]
    simp only [resetPulse, performAll, p1, p2, p3, p4, Flow.andThen_run]
    have : s.slave.params.tResLowCtrl ≤ d2 := s.slave.params.legal.2.2.2.2.trans (by simp [Config.tResLow, d2])
    have hpar : S1.params = s.slave.params := Slave.onPin_params h1
    simp [perform, emit, State.nextAnswer, s3, s2, s1, State.deliver, Slave.onPin, Slave.onReset, State.record, State.popAnswer, this, okEntries, Pins.set, Slave.afterReset, hpar]
    match s.waits with
    | [] => rfl
    | [_] => rfl
    | _ :: _ :: _ => rfl

/-! ## More about flows -/

/-- What holds of the flow holds of the state the step answers, if the end of an operation keeps it. -/
theorem Flow.Holds.finish {P : State → Prop} {f : Flow} {r : Result} {t : State} (hf : f.Holds P) (h : f.finish r = .next t)
   (h1 : ∀ s r, P s → P (s.giveBack r)) (h2 : ∀ s x, P s → P (s.takeException x)) (h3 : ∀ s, P s → P s.hang) : P t := by
  rcases Flow.finish_next h with ⟨s, rfl, rfl⟩ | ⟨x, s, rfl, rfl⟩ | ⟨s, rfl, rfl⟩
  · exact h1 _ _ hf
  · exact h2 _ _ hf
  · exact h3 _ hf

theorem Flow.Holds.and {P R : State → Prop} {f : Flow} (h1 : f.Holds P) (h2 : f.Holds R) : f.Holds (fun s => P s ∧ R s) := by
  cases f <;> first | exact ⟨h1, h2⟩ | trivial

theorem Flow.Holds.mono {P R : State → Prop} {f : Flow} (h1 : f.Holds P) (h2 : ∀ s, P s → R s) : f.Holds R := by
  cases f <;> first | exact h2 _ h1 | trivial

/-- Whatever becomes of an event list, it leaves what no event touches. -/
theorem performAll_sameHost (as : List Action) (s : State) : (performAll as s).Holds (fun t => State.SameHost s t) := by
  cases h : performAll as s with
  | run t => exact (performAll_run h).1
  | raised x t =>
    obtain ⟨d, e, r, u, -, h1, h2⟩ := performAll_raised h
    exact (performAll_run h1).1.trans (emit_raised_frame h2).1
  | hung t =>
    obtain ⟨d, e, r, u, -, h1, h2⟩ := performAll_hung h
    obtain ⟨-, rfl⟩ := emit_hung.mp h2
    have := (performAll_run h1).1
    exact ⟨this.1, this.2, this.3, this.4, this.5, this.6, this.7, this.8⟩
  | stop e => trivial

/-- An operation of the internal interface answers a next state only stuck or admitted (R85, R163). -/
theorem runInternal_next {as : List Action} {s t : State} (h : runInternal as s = .next t) :
   t = s ∧ s.hung = true ∨ s.hung = false ∧ s.internalAdmitted = true ∧ (performAll as s).finish .unit = .next t := by
  unfold runInternal whenFree at h
  split at h
  · rename_i hh; exact .inl ⟨by cases h; rfl, hh⟩
  · rename_i hh
    split at h
    · rename_i ha; exact .inr ⟨by simpa using hh, ha, h⟩
    · cases h

theorem performAll_cons_run {a : Action} {as : List Action} {s t : State} (h : performAll (a :: as) s = .run t) : ∃ u, perform a s = .run u ∧ performAll as u = .run t := by
  rw [performAll_cons] at h
  cases hp : perform a s with
  | run u => rw [hp] at h; exact ⟨u, rfl, h⟩
  | raised x u => rw [hp] at h; cases h
  | hung u => rw [hp] at h; cases h
  | stop e => rw [hp] at h; cases h

theorem performAll_append_run {as bs : List Action} {s t : State} (h : performAll (as ++ bs) s = .run t) : ∃ u, performAll as s = .run u ∧ performAll bs u = .run t := by
  rw [performAll_append] at h
  cases hp : performAll as s with
  | run u => rw [hp] at h; exact ⟨u, rfl, h⟩
  | raised x u => rw [hp] at h; cases h
  | hung u => rw [hp] at h; cases h
  | stop e => rw [hp] at h; cases h

/-- A pin event that completes leaves the line at its level (R166). -/
theorem emit_pin_run {p : Pin} {v : Level} {s t : State} (h : emit (.pin p v) s = .run t) : t.master.pins = s.master.pins.set p (some v) := by
  obtain ⟨-, hd⟩ := emit_run.mp h
  simp only [State.deliver] at hd
  split at hd
  · cases hd; rfl
  · cases hd

/-- A transmission that completes: the lines are as before, the reset line is high, the slave took the bytes (R118, R166). -/
theorem emit_tx_run {bs : List Byte} {s t : State} (h : emit (.tx bs) s = .run t) : t.master.pins = s.master.pins ∧ s.master.pins.res = some true ∧ s.slave.takeBytes s.master.pins.dc bs = .ok t.slave := by
  obtain ⟨-, hd⟩ := emit_run.mp h
  simp only [State.deliver] at hd
  split at hd
  · rename_i S hS
    obtain ⟨-, h2, -, h4⟩ := Slave.receive_ok hS
    cases hd; exact ⟨rfl, h2, h4⟩
  · cases hd

/-- Whatever becomes of one element, it leaves the parameters (R4). -/
theorem perform_params (a : Action) (s : State) : (perform a s).Holds (fun t => t.params = s.params) := by
  cases a with
  | hold k => exact Slave.onWait_params _ _
  | event e =>
    simp only [perform]
    cases he : emit e s with
    | run t =>
      obtain ⟨-, hd⟩ := emit_run.mp he
      cases e with
      | wait us => simp only [State.deliver, Except.ok.injEq] at hd; subst hd; exact Slave.onWait_params _ _
      | tx bs =>
        simp only [State.deliver] at hd
        split at hd
        · rename_i S hS; obtain rfl := (Except.ok.inj hd).symm; exact Slave.receive_params hS
        · cases hd
      | pin p v =>
        simp only [State.deliver] at hd
        split at hd
        · rename_i S hS; obtain rfl := (Except.ok.inj hd).symm; exact Slave.onPin_params hS
        · cases hd
      | pinCfg p v =>
        simp only [State.deliver] at hd
        split at hd
        · rename_i S hS; obtain rfl := (Except.ok.inj hd).symm; exact Slave.onPin_params hS
        · cases hd
    | raised x t =>
      obtain ⟨-, drawn, -, hd⟩ := emit_raised.mp he
      cases e with
      | wait us => simp only [State.deliverFailed, Except.ok.injEq] at hd; subst hd; rfl
      | tx bs =>
        simp only [State.deliverFailed] at hd
        split at hd
        · rename_i S hS; obtain rfl := (Except.ok.inj hd).symm; exact Slave.failedTx_params hS
        · cases hd
      | pin p v => simp only [State.deliverFailed, Except.ok.injEq] at hd; subst hd; exact Slave.failedPin_params _ _ _
      | pinCfg p v => simp only [State.deliverFailed, Except.ok.injEq] at hd; subst hd; exact Slave.failedPin_params _ _ _
    | hung t => obtain ⟨-, rfl⟩ := emit_hung.mp he; rfl
    | stop e => trivial

/-- Whatever becomes of an event list, it leaves the parameters (R4). -/
theorem performAll_params (as : List Action) (s : State) : (performAll as s).Holds (fun t => t.params = s.params) :=
  performAll_holds (P := fun t => t.params = s.params) (fun a _ t ht => (perform_params a t).mono (fun _ h => h.trans ht)) rfl

/-! ## RENDER and CONSTRUCT as event lists -/

theorem bufferSize_eq {P : Params} {w h : Nat} (hg : GeometryOk P w h) : bufferSize w h = w * (h / 8) := by
  obtain ⟨g1, g2, g3, g4, g5⟩ := hg
  obtain ⟨q, rfl⟩ : ∃ q, h = 8 * q := ⟨h / 8, by omega⟩
  simp [bufferSize, Nat.mul_left_comm w 8 q]

theorem bufferSize_pos {P : Params} {w h : Nat} (hg : GeometryOk P w h) : 0 < bufferSize w h := by
  obtain ⟨g1, g2, g3, g4, g5⟩ := hg
  have : 1 * 8 ≤ w * h := Nat.mul_le_mul g1 (by omega)
  show 0 < w * h / 8
  omega

/-- RENDER is one event list (R83). -/
theorem renderBody_eq {t : State} {w h : Nat} {content : List Byte} (e1 : t.master.width = some w) (e2 : t.master.height = some h)
    (e3 : t.master.fb.readRange 0 (bufferSize w h) = some content) : renderBody t = performAll (renderActions t.params w h content) t := by
  simp only [renderBody, State.geometry, e1, e2, State.fbBytes, e3]

/-- CONSTRUCT, once its checks passed, is one event list (R80). -/
theorem constructBody_eq (w h : Nat) (s : State) : constructBody w h s =
   (performAll (bringUpActions s.params w h ++ renderActions s.params w h (List.replicate (bufferSize w h) 0)) (s.allocate w h)).andThen (fun t => .run t.enterInit) := by
  unfold constructBody
  rw [performAll_append]
  congr 1
  have hs := performAll_sameHost (bringUpActions s.params w h) (s.allocate w h)
  have hp := performAll_params (bringUpActions s.params w h) (s.allocate w h)
  revert hs hp
  generalize performAll (bringUpActions s.params w h) (s.allocate w h) = f
  intro hs hp
  cases f with
  | run t =>
    have hs : State.SameHost (s.allocate w h) t := hs
    have e3 : t.master.fb = Memory.filled (bufferSize w h) 0 := hs.fb
    have e4 : t.master.fb.readRange 0 (bufferSize w h) = some (List.replicate (bufferSize w h) 0) := by
      rw [e3, Memory.readRange_filled]
    have e1 : t.master.width = some w := hs.width
    have e2 : t.master.height = some h := hs.height
    rw [Flow.andThen_run, Flow.andThen_run]
    have e5 : t.params = s.params := hp
    rw [← e5]
    exact renderBody_eq e1 e2 e4
  | raised x t => rfl
  | hung t => rfl
  | stop e => rfl

/-- A data frame the slave gives no meaning. -/
theorem burst_stops {s : State} {bytes : List Byte} {e : Stop} (hl : s.LinkUp) (ha : s.Answers 5)
    (ht : s.slave.takeBytes (some true) bytes = .error e) : runInternal (burstFrame bytes) s = e.answer := by
  rw [runInternal_admitted _ ha.1 hl.1, perform_burst hl.2.1 hl.2.2 ha.2, ht]
  rfl

end Machine
end Sys2Proof
end

