-- ==== Sys2Proof/Laws/Invariant.lean ====
section
/-! SUPPORT. Laws/Invariant.lean: each wire event, completed or failed, keeps the slave's invariant (Safety.lean). -/

namespace Sys2Proof.Machine

theorem Slave.powerOn_inv (P : Params) : (Slave.powerOn P).Inv :=
  ⟨.inl ⟨rfl, rfl, rfl⟩, .inl ⟨rfl, rfl, rfl⟩, List.Pairwise.nil, by simp [Slave.powerOn], fun _ => rfl,
    fun h => by cases h⟩

theorem Slave.afterReset_inv (S : Slave) : S.afterReset.Inv :=
  ⟨.inl ⟨rfl, rfl, rfl⟩, .inl ⟨rfl, rfl, rfl⟩, List.Pairwise.nil, by simp [Slave.afterReset, Slave.powerOn],
    fun h => by simp [Slave.afterReset] at h, fun _ => by simp [Slave.afterReset]⟩

/-- The slave's invariant where windows, pointer and RAM are as before and the slave has had a reset pulse. -/
theorem Slave.Inv.of_same {S S' : Slave} (h : S.Inv) (h0 : S'.params = S.params) (hph : S'.phase ≠ .unknown) (hdec : S'.phase = .ready → S'.dec ≠ none)
    (h1 : S'.colStart = S.colStart) (h2 : S'.colEnd = S.colEnd) (h3 : S'.colPtr = S.colPtr)
    (h4 : S'.pageStart = S.pageStart) (h5 : S'.pageEnd = S.pageEnd) (h6 : S'.pagePtr = S.pagePtr) (h7 : S'.ram = S.ram) :
    S'.Inv := by
  obtain ⟨a, b, c, d, -, -⟩ := h
  exact ⟨by rw [h0, h1, h2, h3]; exact a, by rw [h0, h4, h5, h6]; exact b, by rw [h7]; exact c, by rw [h0, h7]; exact d,
    fun h => absurd h hph, hdec⟩

theorem Slave.onReset_inv {S S' : Slave} {v : Level} (h : S.Inv) (hr : S.onReset v = .ok S') : S'.Inv := by
  cases v with
  | false =>
    simp only [Slave.onReset, Except.ok.injEq] at hr
    subst hr
    exact h.of_same rfl (by simp) (by simp) rfl rfl rfl rfl rfl rfl rfl
  | true =>
    cases hp : S.phase with
    | unknown => simp only [Slave.onReset, hp, Except.ok.injEq] at hr; subst hr; exact h
    | ready => simp only [Slave.onReset, hp, Except.ok.injEq] at hr; subst hr; exact h
    | inReset =>
      simp only [Slave.onReset, hp] at hr
      split at hr
      · cases hr
      · split at hr
        · obtain rfl := (Except.ok.inj hr).symm
          exact S.afterReset_inv
        · cases hr

theorem Slave.onPin_inv {S S' : Slave} {p : Pin} {v : Level} (h : S.Inv) (hr : S.onPin p v = .ok S') : S'.Inv := by
  cases p with
  | res => exact Slave.onReset_inv h hr
  | cs => obtain rfl := (Except.ok.inj hr).symm; exact h
  | dc => obtain rfl := (Except.ok.inj hr).symm; exact h

theorem Slave.onWait_inv {S : Slave} (us : Nat) (h : S.Inv) : (S.onWait us).Inv := by
  unfold Slave.onWait
  split
  · rename_i hp
    exact h.of_same rfl (by simp [hp]) (by simp [hp]) rfl rfl rfl rfl rfl rfl rfl
  · exact h
  · exact h

theorem WindowInv.of_window {size : Nat} {a b : Byte} (h : windowOk size a b = true) :
    WindowInv size (some a.toNat) (some b.toNat) (some a.toNat) := by
  simp only [windowOk, decide_eq_true_eq] at h
  exact .inr ⟨_, _, rfl, rfl, h.1, h.2, fun p hp => by cases hp; exact ⟨le_rfl, h.1⟩⟩

theorem WindowInv.lose {size : Nat} {a b p : Option Nat} (h : WindowInv size a b p) : WindowInv size a b none := by
  rcases h with ⟨h1, h2, -⟩ | ⟨x, y, h1, h2, h3, h4, -⟩
  · exact .inl ⟨h1, h2, rfl⟩
  · exact .inr ⟨x, y, h1, h2, h3, h4, fun p hp => by cases hp⟩

/-- A byte in command mode keeps the invariant of a slave that is Ready. -/
theorem Slave.commandByte_inv {S S' : Slave} {b : Byte} (h : S.Inv) (hp : S.phase = .ready) (hb : S.commandByte b = .ok S') :
    S'.Inv := by
  obtain ⟨-, h2, -, h4⟩ := Slave.commandByte_frame hb
  have hu : S'.phase ≠ .unknown := by rw [h2, hp]; simp
  rcases Slave.commandByte_ok hb with ⟨m, -, -, rfl⟩ | ⟨m, -, -, rfl⟩ | ⟨m, -, -, rfl⟩ | ⟨m, -, rfl⟩ | ⟨m, -, rfl⟩ |
    ⟨m, a, -, hx⟩
  · exact h.of_same (Slave.commandByte_params hb) hu (fun _ => h4) (by simp) (by simp) (by simp) (by simp) (by simp) (by simp) (by simp)
  · exact h.of_same (Slave.commandByte_params hb) hu (fun _ => h4) rfl rfl rfl rfl rfl rfl rfl
  · exact h.of_same (Slave.commandByte_params hb) hu (fun _ => h4) rfl rfl rfl rfl rfl rfl rfl
  · exact h.of_same (Slave.commandByte_params hb) hu (fun _ => h4) (by simp) (by simp) (by simp) (by simp) (by simp) (by simp) (by simp)
  · exact h.of_same (Slave.commandByte_params hb) hu (fun _ => h4) rfl rfl rfl rfl rfl rfl rfl
  · obtain ⟨i1, i2, i3, i4, -, -⟩ := h
    rcases Slave.executeC3_ok hx with ⟨-, hw, rfl⟩ | ⟨-, hw, rfl⟩
    · exact ⟨WindowInv.of_window hw, i2, i3, i4, fun hq => absurd hq hu, fun _ => h4⟩
    · exact ⟨i1, WindowInv.of_window hw, i3, i4, fun hq => absurd hq hu, fun _ => h4⟩

/-- The pointer's advance keeps the invariant of a slave that had a reset pulse (R49, R64). -/
theorem Slave.advance_inv {S : Slave} {r : MapRegs} (h : S.Inv) (hr : S.mapRegs = .ok r) (hu : S.phase ≠ .unknown) :
    (S.advance r).Inv := by
  obtain ⟨i1, i2, i3, i4, -, i6⟩ := h
  obtain ⟨-, c1, c2, c3, p1, p2, p3⟩ := Slave.mapRegs_ok.mp hr
  rw [c1, c2, c3] at i1
  rw [p1, p2, p3] at i2
  rcases i1 with ⟨h0, -, -⟩ | ⟨a, b, ha, hb, hab, hb2, hc⟩
  · cases h0
  rcases i2 with ⟨h0, -, -⟩ | ⟨a', b', ha', hb', hab', hb2', hc'⟩
  · cases h0
  obtain rfl := Option.some.inj ha
  obtain rfl := Option.some.inj hb
  obtain rfl := Option.some.inj ha'
  obtain rfl := Option.some.inj hb'
  obtain ⟨n1, n2⟩ := MapRegs.next_inside (hc _ rfl) (hc' _ rfl)
  exact ⟨.inr ⟨_, _, c1, c2, hab, hb2, fun p hp => by cases hp; exact n1⟩,
    .inr ⟨_, _, p1, p2, hab', hb2', fun p hp => by cases hp; exact n2⟩, i3, i4, fun hq => absurd hq hu, i6⟩

/-- A data byte keeps the invariant of a slave that is Ready. -/
theorem Slave.dataByte_inv {S S' : Slave} {b : Byte} (h : S.Inv) (hp : S.phase = .ready) (hb : S.dataByte b = .ok S') :
    S'.Inv := by
  obtain ⟨r, -, hr, -, h1, h2, rfl⟩ := Slave.dataByte_ok.mp hb
  refine Slave.advance_inv (S := { S with ram := S.ram.write (ramAddr S.params r.pagePtr r.colPtr) b }) ?_ hr (by simp [hp])
  obtain ⟨i1, i2, i3, i4, -, i6⟩ := h
  refine ⟨i1, i2, Memory.write_wf _ _ i3, ?_, fun hq => by simp [hp] at hq, i6⟩
  intro c hc
  rcases Memory.mem_write hc with rfl | hc
  · exact ramAddr_lt h1 h2
  · exact i4 c hc

theorem Slave.dataByte_phase {S S' : Slave} {b : Byte} (hb : S.dataByte b = .ok S') :
    S'.phase = S.phase ∧ S'.resLowUs = S.resLowUs := by
  obtain ⟨r, -, -, -, -, -, rfl⟩ := Slave.dataByte_ok.mp hb
  exact ⟨rfl, rfl⟩

/-- The bytes of a transmission keep the invariant of a slave that is Ready, and its phase. -/
theorem Slave.takeBytes_inv {dc : Option Level} {bs : List Byte} {S S' : Slave} (h : S.Inv) (hp : S.phase = .ready)
    (hb : S.takeBytes dc bs = .ok S') : S'.Inv ∧ S'.phase = .ready := by
  induction bs generalizing S with
  | nil => obtain rfl := (Except.ok.inj hb).symm; exact ⟨h, hp⟩
  | cons b bs ih =>
    rw [Slave.takeBytes_cons] at hb
    cases hd : S.takeByte dc b with
    | error e => simp [hd, Except.bind] at hb
    | ok T =>
      simp only [hd, Except.bind] at hb
      match dc, hd with
      | some false, hd => exact ih (Slave.commandByte_inv h hp hd) (by rw [(Slave.commandByte_frame hd).2.1, hp]) hb
      | some true, hd => exact ih (Slave.dataByte_inv h hp hd) (by rw [(Slave.dataByte_phase hd).1, hp]) hb
      | none, hd => cases hd

theorem Slave.receive_inv {ps : Pins} {bs : List Byte} {S S' : Slave} (h : S.Inv) (hb : S.receive ps bs = .ok S') :
    S'.Inv ∧ S'.phase = .ready := by
  obtain ⟨h1, -, -, h4⟩ := Slave.receive_ok hb
  exact Slave.takeBytes_inv h h1 h4

/-- The invariant does not ask for a known pointer. -/
theorem Slave.losePointer_inv {S : Slave} (h : S.Inv) : S.losePointer.Inv := by
  obtain ⟨i1, i2, i3, i4, i5, i6⟩ := h
  exact ⟨i1.lose, i2.lose, i3, i4, fun hp => by
    have := i5 hp
    show ({ S with colPtr := none, pagePtr := none } : Slave) = Slave.powerOn S.params
    rw [this]; rfl, i6⟩

theorem Slave.skipCell_inv {S : Slave} (h : S.Inv) (hu : S.phase ≠ .unknown) : S.skipCell.Inv := by
  rcases Slave.skipCell_eq S with hs | ⟨r, hr, hs⟩
  · rw [hs]; exact h
  · rw [hs]; exact Slave.advance_inv h hr hu

theorem Slave.skipCell_phase (S : Slave) : S.skipCell.phase = S.phase ∧ S.skipCell.resLowUs = S.resLowUs := by
  rcases Slave.skipCell_eq S with hs | ⟨r, -, hs⟩ <;> rw [hs] <;> exact ⟨rfl, rfl⟩

theorem Slave.skipCell_unknown {S : Slave} (h : S.Inv) (hu : S.phase = .unknown) : S.skipCell = S := by
  have := h.2.2.2.2.1 hu
  rw [this]; rfl

/-- A failed burst keeps the invariant and the phase. -/
theorem Slave.failedBurst_inv {ps : Pins} {bs : List Byte} {drawn : List Bool} {S S' : Slave} (h : S.Inv)
    (hb : S.failedBurst ps bs drawn = .ok S') : S'.Inv ∧ S'.phase = S.phase := by
  induction bs generalizing drawn S with
  | nil => obtain rfl := (Except.ok.inj hb).symm; exact ⟨Slave.losePointer_inv h, rfl⟩
  | cons b bs ih =>
    simp only [Slave.failedBurst] at hb
    split at hb
    · split at hb
      · cases hb
      · rename_i T hT
        obtain ⟨j1, j2⟩ := Slave.receive_inv h hT
        obtain ⟨k1, k2⟩ := ih j1 hb
        exact ⟨k1, by rw [k2, j2, (Slave.receive_ok hT).1]⟩
    · by_cases hu : S.phase = .unknown
      · rw [Slave.skipCell_unknown h hu] at hb
        exact ih h hb
      · obtain ⟨k1, k2⟩ := ih (Slave.skipCell_inv h hu) hb
        exact ⟨k1, by rw [k2, (Slave.skipCell_phase S).1]⟩

/-- A failed transmission keeps the invariant and the phase. -/
theorem Slave.failedTx_inv {ps : Pins} {bs : List Byte} {drawn : List Bool} {S S' : Slave} (h : S.Inv)
    (hb : S.failedTx ps bs drawn = .ok S') : S'.Inv ∧ S'.phase = S.phase := by
  unfold Slave.failedTx at hb
  split at hb
  · exact Slave.failedBurst_inv h hb
  · split at hb
    · obtain rfl := (Except.ok.inj hb).symm; exact ⟨h, rfl⟩
    · obtain ⟨j1, j2⟩ := Slave.receive_inv h hb
      exact ⟨j1, by rw [j2, (Slave.receive_ok hb).1]⟩

theorem Slave.failedPin_inv {S : Slave} (p : Pin) (drawn : List Bool) (h : S.Inv) : (S.failedPin p drawn).Inv := by
  cases p with
  | res =>
    simp only [Slave.failedPin]
    split
    · exact Slave.powerOn_inv _
    · exact h
  | cs => exact h
  | dc => exact h

/-- Every element of an event list keeps the slave's invariant, however it ends. -/
theorem perform_slave_inv (a : Action) {s : State} (h : s.slave.Inv) :
    (perform a s).Holds (fun t => t.slave.Inv) := by
  cases a with
  | hold k => exact Slave.onWait_inv _ h
  | event e =>
    simp only [perform]
    cases he : emit e s with
    | run t =>
      obtain ⟨-, hd⟩ := emit_run.mp he
      cases e with
      | wait us => simp only [State.deliver, Except.ok.injEq] at hd; subst hd; exact Slave.onWait_inv _ h
      | tx bs =>
        simp only [State.deliver] at hd
        split at hd
        · rename_i S hS
          obtain rfl := (Except.ok.inj hd).symm
          exact (Slave.receive_inv h hS).1
        · cases hd
      | pin p v =>
        simp only [State.deliver] at hd
        split at hd
        · rename_i S hS
          obtain rfl := (Except.ok.inj hd).symm
          exact Slave.onPin_inv h hS
        · cases hd
      | pinCfg p v =>
        simp only [State.deliver] at hd
        split at hd
        · rename_i S hS
          obtain rfl := (Except.ok.inj hd).symm
          exact Slave.onPin_inv h hS
        · cases hd
    | raised x t =>
      obtain ⟨-, drawn, -, hd⟩ := emit_raised.mp he
      cases e with
      | wait us => simp only [State.deliverFailed, Except.ok.injEq] at hd; subst hd; exact h
      | tx bs =>
        simp only [State.deliverFailed] at hd
        split at hd
        · rename_i S hS
          obtain rfl := (Except.ok.inj hd).symm
          exact (Slave.failedTx_inv h hS).1
        · cases hd
      | pin p v =>
        simp only [State.deliverFailed, Except.ok.injEq] at hd; subst hd
        exact Slave.failedPin_inv p drawn h
      | pinCfg p v =>
        simp only [State.deliverFailed, Except.ok.injEq] at hd; subst hd
        exact Slave.failedPin_inv p drawn h
    | hung t =>
      obtain ⟨-, rfl⟩ := emit_hung.mp he
      exact h
    | stop e => trivial

/-- Every event list keeps the slave's invariant, however it ends. -/
theorem performAll_slave_inv (as : List Action) {s : State} (h : s.slave.Inv) :
    (performAll as s).Holds (fun t => t.slave.Inv) :=
  performAll_holds (P := fun t => t.slave.Inv) (fun a _ _ hs => perform_slave_inv a hs) h

/-! ## A low phase of the reset line is held long enough -/

theorem Slave.onWait_held {S : Slave} (d : Nat) (h : S.LowPhaseHeld) : (S.onWait d).LowPhaseHeld := by
  unfold Slave.onWait
  split
  · rename_i hp
    intro _
    obtain ⟨t, ht, hl⟩ := h hp
    exact ⟨t + d, by simp [ht], by omega⟩
  · exact h
  · exact h

theorem Slave.held_of_phase {S : Slave} (h : S.phase ≠ .inReset) : S.LowPhaseHeld := fun hp => absurd hp h

theorem Slave.takeBytes_ready : ∀ dc bs S S', S.phase = .ready → Slave.takeBytes dc bs S = .ok S' → S'.phase = .ready := by
        intro dc bs
        induction bs with
        | nil => intro S S' hp hb; obtain rfl := (Except.ok.inj hb).symm; exact hp
        | cons b bs ih =>
          intro S S' hp hb
          rw [Slave.takeBytes_cons] at hb
          cases hd : S.takeByte dc b with
          | error e => simp [hd, Except.bind] at hb
          | ok T =>
            simp only [hd, Except.bind] at hb
            match dc, hd with
            | some false, hd => exact ih T S' (by rw [(Slave.commandByte_frame hd).2.1, hp]) hb
            | some true, hd => exact ih T S' (by rw [(Slave.dataByte_phase hd).1, hp]) hb
            | none, hd => cases hd

theorem Slave.failedTx_held {ps : Pins} {bs : List Byte} {drawn : List Bool} {S S' : Slave} (h : S.LowPhaseHeld) (hb : S.failedTx ps bs drawn = .ok S') : S'.LowPhaseHeld := by
  unfold Slave.failedTx at hb
  split at hb
  · rename_i hdc
    rw [(Slave.failedBurst_ok hdc hb).1]; exact h
  · split at hb
    · obtain rfl := (Except.ok.inj hb).symm; exact h
    · obtain ⟨h1, h2, h3, h4⟩ := Slave.receive_ok hb
      apply Slave.held_of_phase
      rw [Slave.takeBytes_ready _ _ _ _ h1 h4]; simp

theorem Slave.onPin_held {S S' : Slave} {p : Pin} {v : Level} (h : S.LowPhaseHeld) (hv : p = .res → v = true) (hb : S.onPin p v = .ok S') : S'.LowPhaseHeld := by
  cases p with
  | res =>
    obtain rfl := hv rfl
    cases hp : S.phase with
    | unknown => simp only [Slave.onPin, Slave.onReset, hp, Except.ok.injEq] at hb; subst hb; exact h
    | ready => simp only [Slave.onPin, Slave.onReset, hp, Except.ok.injEq] at hb; subst hb; exact h
    | inReset =>
      simp only [Slave.onPin, Slave.onReset, hp] at hb
      split at hb
      · cases hb
      · split at hb
        · obtain rfl := (Except.ok.inj hb).symm; exact Slave.held_of_phase (by simp [Slave.afterReset])
        · cases hb
  | cs => obtain rfl := (Except.ok.inj hb).symm; exact h
  | dc => obtain rfl := (Except.ok.inj hb).symm; exact h

theorem Slave.failedPin_held {S : Slave} (p : Pin) (drawn : List Bool) (h : S.LowPhaseHeld) : (S.failedPin p drawn).LowPhaseHeld := by
  cases p with
  | res =>
    simp only [Slave.failedPin]
    split
    · exact Slave.held_of_phase (by simp [Slave.powerOn])
    · exact h
  | cs => exact h
  | dc => exact h

/-- An element that does not drive the reset line low. -/
def Action.NotLow (a : Action) : Prop := a ≠ .event (.pin .res false) ∧ a ≠ .event (.pinCfg .res false)

/-- Every element that does not drive the reset line low keeps the low phase held. -/
theorem perform_held {a : Action} (hn : a.NotLow) {s : State} (h : s.slave.LowPhaseHeld) : (perform a s).Holds (fun t => t.slave.LowPhaseHeld) := by
  cases a with
  | hold k => exact Slave.onWait_held _ h
  | event e =>
    simp only [perform]
    cases he : emit e s with
    | run t =>
      obtain ⟨-, hd⟩ := emit_run.mp he
      cases e with
      | wait us => simp only [State.deliver, Except.ok.injEq] at hd; subst hd; exact Slave.onWait_held _ h
      | tx bs =>
        simp only [State.deliver] at hd
        split at hd
        · rename_i S hS
          obtain rfl := (Except.ok.inj hd).symm
          obtain ⟨h1, -, -, h4⟩ := Slave.receive_ok hS
          exact Slave.held_of_phase (by simp; rw [Slave.takeBytes_ready _ _ _ _ h1 h4]; simp)
        · cases hd
      | pin p v =>
        simp only [State.deliver] at hd
        split at hd
        · rename_i S hS
          obtain rfl := (Except.ok.inj hd).symm
          exact Slave.onPin_held (S := s.slave) h (by rintro rfl; cases v; exact absurd rfl hn.1; rfl) hS
        · cases hd
      | pinCfg p v =>
        simp only [State.deliver] at hd
        split at hd
        · rename_i S hS
          obtain rfl := (Except.ok.inj hd).symm
          exact Slave.onPin_held (S := s.slave) h (by rintro rfl; cases v; exact absurd rfl hn.2; rfl) hS
        · cases hd
    | raised x t =>
      obtain ⟨-, drawn, -, hd⟩ := emit_raised.mp he
      cases e with
      | wait us => simp only [State.deliverFailed, Except.ok.injEq] at hd; subst hd; exact h
      | tx bs =>
        simp only [State.deliverFailed] at hd
        split at hd
        · rename_i S hS
          obtain rfl := (Except.ok.inj hd).symm
          exact Slave.failedTx_held (S := s.slave) h hS
        · cases hd
      | pin p v =>
        simp only [State.deliverFailed, Except.ok.injEq] at hd; subst hd
        exact Slave.failedPin_held p drawn h
      | pinCfg p v =>
        simp only [State.deliverFailed, Except.ok.injEq] at hd; subst hd
        exact Slave.failedPin_held p drawn h
    | hung t =>
      obtain ⟨-, rfl⟩ := emit_hung.mp he
      exact h
    | stop e => trivial

theorem lowAndHold_held {s : State} (h : s.slave.LowPhaseHeld) : (performAll [.event (.pin .res false), .hold Config.tResLow] s).Holds (fun t => t.slave.LowPhaseHeld) := by
  rw [performAll_cons]
  show Flow.Holds (fun t => t.slave.LowPhaseHeld) ((emit (.pin .res false) s).andThen _)
  cases he : emit (.pin .res false) s with
  | run t =>
    obtain ⟨-, hd⟩ := emit_run.mp he
    simp only [State.deliver, Slave.onPin, Slave.onReset, Except.ok.injEq] at hd
    subst hd
    rw [Flow.andThen_run, performAll_cons, perform, holdFor_eq]
    intro _
    exact ⟨_, rfl, by simp [Config.tResLow]⟩
  | raised x t =>
    obtain ⟨-, drawn, -, hd⟩ := emit_raised.mp he
    simp only [State.deliverFailed, Except.ok.injEq] at hd; subst hd
    exact Slave.failedPin_held .res drawn h
  | hung t => obtain ⟨-, rfl⟩ := emit_hung.mp he; exact h
  | stop e => trivial

/-- Whatever becomes of a reset pulse, a low phase it leaves was held for the minimum (R90, R116). -/
theorem resetPulse_held {s : State} (h : s.slave.LowPhaseHeld) : (performAll resetPulse s).Holds (fun t => t.slave.LowPhaseHeld) := by
  have : resetPulse = [.event (.pin .res true), .hold Config.tResPre] ++ ([.event (.pin .res false), .hold Config.tResLow] ++ [.event (.pin .res true)]) := rfl
  rw [this, performAll_append]
  refine (performAll_holds (P := fun t => t.slave.LowPhaseHeld) ?_ h).andThen fun t ht => ?_
  · intro a ha s hs
    simp at ha
    rcases ha with rfl | rfl <;> exact perform_held (by simp [Action.NotLow]) hs
  · rw [performAll_append]
    refine (lowAndHold_held ht).andThen fun u hu => ?_
    refine performAll_holds (P := fun t => t.slave.LowPhaseHeld) ?_ hu
    intro a ha s hs
    simp at ha; subst ha
    exact perform_held (by simp [Action.NotLow]) hs

end Sys2Proof.Machine
end

