-- ==== Sys2Proof/Laws/PerInstr.lean ====
section
/-! SUPPORT. Laws/PerInstr.lean: one fact of the encoding tables, per instruction: what an instruction encodes to has the
shape its row of the table has (30_encoding.md rules R66 to R70, R73, R77). -/

namespace Sys2Proof.Laws.EncodesAsItsRow
open Sys2Proof

/-- The encoded line of the instruction has the shape of a row: an opcode of rule R66 followed by exactly the operand bytes that
rule R73 gives it, an op-select code of rule R77, or one data byte, whatever legal opcode bytes the controller has. -/
def Statement (i : Instr) : Prop :=
  ∀ P : Params, match encode P i with
  | .command [] => False
  | .command (b :: rest) => ∃ m, commandOfOpcode P b = some m ∧ rest.length = m.operands
  | .call sel _ => sel.toNat < 7 ∨ (8 ≤ sel.toNat ∧ sel.toNat < 13)
  | .data _ => True

theorem displayOff : Statement .displayOff := fun P => ⟨.c1 .displayOff, commandOfOpcode_displayOff P, rfl⟩
theorem setContrast (a : Byte) : Statement (.setContrast a) := fun P => ⟨.c2 .setContrast, commandOfOpcode_setContrast P, rfl⟩
theorem setPrecharge (a : Byte) : Statement (.setPrecharge a) := fun P => ⟨.c2 .setPrecharge, commandOfOpcode_setPrecharge P, rfl⟩
theorem setVcomh (a : Byte) : Statement (.setVcomh a) := fun P => ⟨.c2 .setVcomh, commandOfOpcode_setVcomh P, rfl⟩
theorem setStartLine0 : Statement .setStartLine0 := fun P => ⟨.c1 .setStartLine0, commandOfOpcode_setStartLine0 P, rfl⟩
theorem setDisplayOffset (a : Byte) : Statement (.setDisplayOffset a) := fun P => ⟨.c2 .setDisplayOffset, commandOfOpcode_setDisplayOffset P, rfl⟩
theorem setClockDiv (a : Byte) : Statement (.setClockDiv a) := fun P => ⟨.c2 .setClockDiv, commandOfOpcode_setClockDiv P, rfl⟩
theorem setComPins (a : Byte) : Statement (.setComPins a) := fun P => ⟨.c2 .setComPins, commandOfOpcode_setComPins P, rfl⟩
theorem segRemapNormal : Statement .segRemapNormal := fun P => ⟨.c1 .segRemapNormal, commandOfOpcode_segRemapNormal P, rfl⟩
theorem comScanNormal : Statement .comScanNormal := fun P => ⟨.c1 .comScanNormal, commandOfOpcode_comScanNormal P, rfl⟩
theorem setMuxRatio (a : Byte) : Statement (.setMuxRatio a) := fun P => ⟨.c2 .setMuxRatio, commandOfOpcode_setMuxRatio P, rfl⟩
theorem setAddrMode (a : Byte) : Statement (.setAddrMode a) := fun P => ⟨.c2 .setAddrMode, commandOfOpcode_setAddrMode P, rfl⟩
theorem entireDisplayResume : Statement .entireDisplayResume := fun P => ⟨.c1 .entireDisplayResume, commandOfOpcode_entireDisplayResume P, rfl⟩
theorem inverseOff : Statement .inverseOff := fun P => ⟨.c1 .inverseOff, commandOfOpcode_inverseOff P, rfl⟩
theorem displayOn : Statement .displayOn := fun P => ⟨.c1 .displayOn, commandOfOpcode_displayOn P, rfl⟩
theorem setColumnAddr (a b : Byte) : Statement (.setColumnAddr a b) := fun P => ⟨.c3 .setColumnAddr, commandOfOpcode_setColumnAddr P, rfl⟩
theorem setPageAddr (a b : Byte) : Statement (.setPageAddr a b) := fun P => ⟨.c3 .setPageAddr, commandOfOpcode_setPageAddr P, rfl⟩
theorem data (b : Byte) : Statement (.data b) := fun _ => trivial
theorem construct (w h : Int) (pins : PinAssignment) : Statement (.construct w h pins) := fun _ => Or.inl (by decide)
theorem reset : Statement .reset := fun _ => Or.inl (by decide)
theorem init : Statement .init := fun _ => Or.inl (by decide)
theorem wcmd (b : Int) (a : Option Int) : Statement (.wcmd b a) := by
  cases a <;> exact fun _ => Or.inl (by decide)
theorem wbuf (bs : List Int) : Statement (.wbuf bs) := fun _ => Or.inl (by decide)
theorem render : Statement .render := fun _ => Or.inl (by decide)
theorem clear : Statement .clear := fun _ => Or.inl (by decide)
theorem fill (c : Int) : Statement (.fill c) := fun _ => Or.inr (by decide)
theorem pset (x y c : Int) : Statement (.pset x y c) := fun _ => Or.inr (by decide)
theorem pget (x y : Int) : Statement (.pget x y) := fun _ => Or.inr (by decide)
theorem fbwrite (i : Int) (v : Byte) : Statement (.fbwrite i v) := fun _ => Or.inr (by decide)
theorem rawbytes : Statement .rawbytes := fun _ => Or.inr (by decide)

end Sys2Proof.Laws.EncodesAsItsRow
end

