-- ==== Sys2Proof/Tests/Slice0.lean ====
section
/-! SUPPORT. Tests/Slice0.lean: the model's own tests. Expected values come from the spec: its encoding tables
(30_encoding.md), its vectors (95_test_vectors.md, named V-... below) and the rules cited. The 4 x 16 block is the one of the
spec's programs P2, P3 and P5. At the end one witness for every statement with hypotheses. -/

namespace Sys2Proof.Tests
open Sys2Proof Sys2Proof.Machine

/-! ## The states of the tests -/

/-- The parameters of the spec's vectors (95_test_vectors.md, opening): the defaults. -/
abbrev std : Params := Config.defaults

/-- Another legal choice: T_RES_LOW_CTRL = 3 (V-RST4), 132 columns, 0x10 for DISPLAY_OFF. -/
def other : Params := ⟨{ tResLowCtrl := 3, ramCols := 132, opcDisplayOff := 0x10 }, by decide⟩

/-- `n` completed events. -/
def oks (n : Nat) : List Answer := List.replicate n .ok

/-- The slave after `CONSTRUCT(4, 16)` (V-INIT and P2, the trace's `C:21 C:00 C:03 C:22 C:00 C:01` and eight zero bytes). -/
def upSlave : Slave :=
  { params := std, phase := .ready, resLowUs := some 10000, dec := some .idle, dispOn := some true, contrast := some 0xFF,
    precharge := some 0xF1, vcomh := some 0x40, startLine := some 0, offset := some 0x00, clkdiv := some 0x80,
    compins := some 0x02, segRemap := some .normal, comScan := some .normal, mux := some 15, addrMode := some 0x00,
    entireOn := some .resume, inverse := some .off, colStart := some 0, colEnd := some 3, colPtr := some 0,
    pageStart := some 0, pageEnd := some 1, pagePtr := some 0,
    ram := [(0, 0), (1, 0), (2, 0), (3, 0), (128, 0), (129, 0), (130, 0), (131, 0)] }

/-- A 4 x 16 buffer. -/
def buffer (b0 b1 b2 b3 b4 b5 b6 b7 : Byte) : Memory :=
  [(0, b0), (1, b1), (2, b2), (3, b3), (4, b4), (5, b5), (6, b6), (7, b7)]

/-- The block after the four PSETs of P2, with the environment's next answers. -/
def upWith (answers : List Answer) : State :=
  { State.reset with
    master := { life := .init, width := some 4, height := some 16, fb := buffer 0x01 0x80 0 0 0 0 0x02 0x80,
                pins := ⟨some true, some true, some true⟩ }
    slave := upSlave
    answers := answers }

/-- The same block, its next `n` events completing. -/
def up (n : Nat) : State := upWith (oks n)

/-- The same block with another slave. -/
def upSlaveIs (S : Slave) (n : Nat) : State := { up n with slave := S }

/-- The block at power-on, its next `n` events completing and its waits at their minima. -/
def cold (n : Nat) : State := { State.reset with answers := oks n, waits := [0, 0] }

/-- Opaque pins for CONSTRUCT. -/
def pins : PinAssignment := ⟨17, 20, 21, none⟩

/-- The answer is a next state in which `p` holds. -/
def endsIn (r : Answered) (p : State → Bool) : Bool :=
  match r with
  | .next t => p t
  | .fault _ => false
  | .refused _ => false

/-- The slave's answer is a next slave in which `p` holds. -/
def slaveIn (r : Except Stop Slave) (p : Slave → Bool) : Bool :=
  match r with
  | .ok S => p S
  | .error _ => false

/-- The slave's answer is this stop. -/
def slaveStops (r : Except Stop Slave) (e : Stop) : Bool :=
  match r with
  | .ok _ => false
  | .error x => x == e

/-- The answer is this refusal. -/
def refuses (r : Answered) (why : Refusal) : Bool :=
  match r with
  | .next _ => false
  | .fault _ => false
  | .refused x => x == why

/-- The answer is this fault. -/
def faultsWith (r : Answered) (why : Fault) : Bool :=
  match r with
  | .next _ => false
  | .fault x => x == why
  | .refused _ => false

theorem endsIn_next {r : Answered} {p : State → Bool} (h : endsIn r p = true) : ∃ t, r = .next t ∧ p t = true := by
  cases r <;> simp_all [endsIn]

theorem slaveIn_ok {r : Except Stop Slave} {p : Slave → Bool} (h : slaveIn r p = true) : ∃ S, r = .ok S ∧ p S = true := by
  cases r <;> simp_all [slaveIn]

theorem slaveStops_error {r : Except Stop Slave} {e : Stop} (h : slaveStops r e = true) : r = .error e := by
  cases r <;> simp_all [slaveStops]

/-- The events of a trace. -/
def events (t : State) : List Event := t.trace.map TraceEntry.event

/-- What an event transmits. -/
def sentBy : Event → Option (List Byte)
  | .tx bs => some bs
  | .pin _ _ => none
  | .pinCfg _ _ => none
  | .wait _ => none

/-- The transmissions of a trace. -/
def sent (t : State) : List (List Byte) := (events t).filterMap sentBy

/-! ## WellFormed: an ill-formed term for each check -/

/-- R135: start above end, and an end outside the 128 columns (V-DEC7, V-DEC8). -/
theorem test_wf_column : (Instr.setColumnAddr 5 2).wellFormed std = false ∧ (Instr.setColumnAddr 0 0x80).wellFormed std = false ∧
    (Instr.setColumnAddr 0 0x7F).wellFormed std = true := by decide
/-- R136 (V-DEC9). -/
theorem test_wf_page : (Instr.setPageAddr 0 8).wellFormed std = false ∧ (Instr.setPageAddr 3 2).wellFormed std = false ∧
    (Instr.setPageAddr 0 7).wellFormed std = true := by decide
/-- R113 (V-FRM5): the byte and the operand of WCMD. -/
theorem test_wf_wcmd : (Instr.wcmd 0x100 none).wellFormed std = false ∧ (Instr.wcmd 0x81 (some (-1))).wellFormed std = false ∧
    (Instr.wcmd (-1) (some 0)).wellFormed std = false ∧ (Instr.wcmd 255 (some 0)).wellFormed std = true := by decide
/-- R113 (V-FRM6): an empty burst, and a burst with a value that is no byte. -/
theorem test_wf_wbuf : (Instr.wbuf []).wellFormed std = false ∧ (Instr.wbuf [0, 256]).wellFormed std = false ∧
    (Instr.wbuf [0, 255]).wellFormed std = true := by decide
/-- R150, R151: colours (V-FB step 15). -/
theorem test_wf_colour : (Instr.fill 2).wellFormed std = false ∧ (Instr.pset 0 0 (-1)).wellFormed std = false ∧
    (Instr.fill 1).wellFormed std = true := by decide

/-! ## Decoding: the words of the tables of rules R66 to R70 and R77 -/

/-- Format C1 (R66, R67), each opcode bit by bit. -/
theorem test_decode_c1 :
    decode std (.command [0b10101110]) = .ok .displayOff ∧ decode std (.command [0b01000000]) = .ok .setStartLine0 ∧
    decode std (.command [0b10100000]) = .ok .segRemapNormal ∧ decode std (.command [0b11000000]) = .ok .comScanNormal ∧
    decode std (.command [0b10100100]) = .ok .entireDisplayResume ∧ decode std (.command [0b10100110]) = .ok .inverseOff ∧
    decode std (.command [0b10101111]) = .ok .displayOn := ⟨rfl, rfl, rfl, rfl, rfl, rfl, rfl⟩
/-- Format C2 (R66, R68): the operands of the init stream (R96). -/
theorem test_decode_c2 :
    decode std (.command [0b10000001, 0xFF]) = .ok (.setContrast 0xFF) ∧
    decode std (.command [0b11011001, 0xF1]) = .ok (.setPrecharge 0xF1) ∧
    decode std (.command [0b11011011, 0x40]) = .ok (.setVcomh 0x40) ∧
    decode std (.command [0b11010011, 0x01]) = .ok (.setDisplayOffset 0x01) ∧
    decode std (.command [0b11010101, 0x80]) = .ok (.setClockDiv 0x80) ∧
    decode std (.command [0b11011010, 0x12]) = .ok (.setComPins 0x12) ∧
    decode std (.command [0b10101000, 0x3F]) = .ok (.setMuxRatio 0x3F) ∧
    decode std (.command [0b00100000, 0x02]) = .ok (.setAddrMode 0x02) := ⟨rfl, rfl, rfl, rfl, rfl, rfl, rfl, rfl⟩
/-- Format C3 (R66, R69): start, then end. -/
theorem test_decode_c3 :
    decode std (.command [0b00100001, 0x05, 0x7F]) = .ok (.setColumnAddr 0x05 0x7F) ∧
    decode std (.command [0b00100010, 0x01, 0x07]) = .ok (.setPageAddr 0x01 0x07) := ⟨rfl, rfl⟩
/-- A data byte has no opcode (R70), even when it equals one. -/
theorem test_decode_data : decode std (.data 0xAE) = .ok (.data 0xAE) := rfl
/-- Host operations (R77). -/
theorem test_decode_host :
    decode std (.call 0x0 [128, 64, 17, 20, 21]) = .ok (.construct 128 64 ⟨17, 20, 21, none⟩) ∧
    decode std (.call 0x1 []) = .ok .reset ∧ decode std (.call 0x2 []) = .ok .init ∧
    decode std (.call 0x3 [0x81, 0xFF]) = .ok (.wcmd 0x81 (some 0xFF)) ∧ decode std (.call 0x3 [0xAE]) = .ok (.wcmd 0xAE none) ∧
    decode std (.call 0x4 [1, 0x80]) = .ok (.wbuf [1, 0x80]) ∧ decode std (.call 0x5 []) = .ok .render ∧
    decode std (.call 0x6 []) = .ok .clear := ⟨rfl, rfl, rfl, rfl, rfl, rfl, rfl, rfl⟩
/-- The frame-store port (R77). -/
theorem test_decode_port :
    decode std (.call 0x8 [1]) = .ok (.fill 1) ∧ decode std (.call 0x9 [1, 7, 1]) = .ok (.pset 1 7 1) ∧
    decode std (.call 0xA [3, 15]) = .ok (.pget 3 15) ∧ decode std (.call 0xB [5, 0xA5]) = .ok (.fbwrite 5 0xA5) ∧
    decode std (.call 0xC []) = .ok .rawbytes := ⟨rfl, rfl, rfl, rfl, rfl⟩
/-- Unassigned codes and opcodes are rejected by name (R74, R78; V-DEC10, V-DEC11), and so is a line with an operand too few. -/
theorem test_decode_rejects :
    decode std (.call 0x7 []) = .error (.unknownHostOp 0x7) ∧ decode std (.call 0xF [1]) = .error (.unknownHostOp 0xF) ∧
    decode std (.command [0xE3]) = .error (.unknownCommand 0xE3) ∧ decode std (.command [0xA1]) = .error (.unknownCommand 0xA1) ∧
    decode std (.command [0x81]) = .error .malformed ∧ decode std (.call 0xB [0, 256]) = .error (.notAByte 256) :=
  ⟨rfl, rfl, rfl, rfl, rfl, rfl⟩
/-- Byte stream boundaries (R73, V-DEC3): `DB 40 40` is SET_VCOMH 0x40, then SET_START_LINE_0. -/
theorem test_decode_db4040 : decodeCommand std [0xDB, 0x40, 0x40] = .ok (.setVcomh 0x40, [0x40]) ∧
    decodeCommand std [0x40] = .ok (.setStartLine0, []) := ⟨rfl, rfl⟩
/-- Words of the opcode table: the second byte is bits 15 to 8, the third bits 23 to 16. -/
theorem test_decode_table :
    decodeTableWord 8 0xAE = some .displayOff ∧ decodeTableWord 16 0xFF81 = some (.setContrast 0xFF) ∧
    decodeTableWord 24 0x7F0021 = some (.setColumnAddr 0x00 0x7F) ∧ decodeTableWord 8 0x05 = some .render ∧
    decodeTableWord 8 0xE3 = some (.data 0xE3) ∧ decodeTableWord 8 0x07 = none := ⟨rfl, rfl, rfl, rfl, rfl, rfl⟩

/-! ## Operands -/

/-- V-ENC: the COM-pins operand, at the boundaries of both conditions. -/
theorem test_compins :
    [compins 128 64, compins 128 32, compins 128 16, compins 128 8, compins 64 32, compins 64 16, compins 63 32,
     compins 65 16, compins 72 40, compins 1 8] = [0x12, 0x02, 0x02, 0x12, 0x12, 0x12, 0x02, 0x02, 0x12, 0x12] := by decide
/-- V-INIT, the row 72 x 40. -/
theorem test_initBytes : initBytes std 72 40 =
    [0xAE, 0x81, 0xFF, 0xD9, 0xF1, 0xDB, 0x40, 0x40, 0xD3, 0x00, 0xD5, 0x80, 0xDA, 0x12, 0xA0, 0xC0, 0xA8, 0x27, 0x20, 0x00,
     0xA4, 0xA6, 0xAF] := by decide
/-- V-INIT, the RENDER bytes of the row 96 x 16. -/
theorem test_renderBytes : renderBytes std 96 16 = [0x21, 0x00, 0x5F, 0x22, 0x00, 0x01] := by decide
/-- V-MAP, pixel to bit at W = 128. -/
theorem test_pixel_position : (pixelIndex 128 127 63, pixelBit 63) = (1023, 7) ∧ (pixelIndex 128 5 10, pixelBit 10) = (133, 2) ∧
    (pixelIndex 128 10 8, pixelBit 8) = (138, 0) := by decide
/-- R164. -/
theorem test_codes :
    [Exception.code (.configError .widthNonpositive 0), Exception.code (.configError .heightNonpositive 0),
     Exception.code (.configError .heightNotMultipleOf8 12), Exception.code (.transmissionError 0 (.tx [0]))] =
    [1, 2, 3, 4] := by decide

/-! ## The controller commands as lines of a host program (R76, R120 to R136) -/

/-- V-DEC1 and V-FRM1: one frame, one register. -/
theorem test_displayOff : endsIn (exec .displayOff (up 4)) (fun t =>
    t.slave == { upSlave with dispOn := some false } &&
    events t == [.pin .dc false, .pin .cs false, .tx [0xAE], .pin .cs true]) = true := by decide
/-- V-DEC4 and V-FRM2: two frames, and the operand is one even when it equals an opcode. -/
theorem test_setContrast : endsIn (exec (.setContrast 0xAE) (up 8)) (fun t =>
    t.slave == { upSlave with contrast := some 0xAE } &&
    events t == [.pin .dc false, .pin .cs false, .tx [0x81], .pin .cs true, .pin .dc false, .pin .cs false, .tx [0xAE],
      .pin .cs true]) = true := by decide
theorem test_setPrecharge : endsIn (exec (.setPrecharge 0x22) (up 8)) (fun t =>
    t.slave == { upSlave with precharge := some 0x22 }) = true := by decide
theorem test_setVcomh : endsIn (exec (.setVcomh 0x41) (up 8)) (fun t =>
    t.slave == { upSlave with vcomh := some 0x41 }) = true := by decide
theorem test_setStartLine0 : endsIn (exec .setStartLine0 (upSlaveIs { upSlave with startLine := none } 4)) (fun t =>
    t.slave == upSlave) = true := by decide
theorem test_setDisplayOffset : endsIn (exec (.setDisplayOffset 0xFF) (up 8)) (fun t =>
    t.slave == { upSlave with offset := some 0xFF }) = true := by decide
theorem test_setClockDiv : endsIn (exec (.setClockDiv 0x7F) (up 8)) (fun t =>
    t.slave == { upSlave with clkdiv := some 0x7F }) = true := by decide
/-- V-DEC15. -/
theorem test_setComPins : endsIn (exec (.setComPins 0x12) (up 8)) (fun t =>
    t.slave == { upSlave with compins := some 0x12 }) = true := by decide
theorem test_segRemapNormal : endsIn (exec .segRemapNormal (upSlaveIs { upSlave with segRemap := none } 4)) (fun t =>
    t.slave == upSlave) = true := by decide
theorem test_comScanNormal : endsIn (exec .comScanNormal (upSlaveIs { upSlave with comScan := none } 4)) (fun t =>
    t.slave == upSlave) = true := by decide
/-- V-DEC14. -/
theorem test_setMuxRatio : endsIn (exec (.setMuxRatio 0x07) (up 8)) (fun t =>
    t.slave == { upSlave with mux := some 7 }) = true := by decide
/-- V-DEC12: mode 0x02 is accepted. -/
theorem test_setAddrMode : endsIn (exec (.setAddrMode 0x02) (up 8)) (fun t =>
    t.slave == { upSlave with addrMode := some 0x02 }) = true := by decide
/-- V-DEC12: the next data byte is refused. -/
theorem test_data_other_mode :
    refuses (exec (.data 0x55) (upSlaveIs { upSlave with addrMode := some 0x02 } 5)) .addrModeNotModelled = true := by decide
theorem test_entireDisplayResume : endsIn (exec .entireDisplayResume (upSlaveIs { upSlave with entireOn := none } 4)) (fun t =>
    t.slave == upSlave) = true := by decide
theorem test_inverseOff : endsIn (exec .inverseOff (upSlaveIs { upSlave with inverse := none } 4)) (fun t =>
    t.slave == upSlave) = true := by decide
/-- V-DEC16: on a slave that has only been reset. -/
theorem test_displayOn : endsIn (exec .displayOn
    (upSlaveIs { Slave.powerOn std with phase := .ready, dec := some .idle } 4)) (fun t =>
    t.slave.dispOn == some true && t.slave.ram == []) = true := by decide
/-- V-DEC5. -/
theorem test_setColumnAddr : endsIn (exec (.setColumnAddr 0x00 0x7F) (up 12)) (fun t =>
    t.slave == { upSlave with colStart := some 0, colEnd := some 127, colPtr := some 0 }) = true := by decide
/-- V-DEC7 and V-DEC8. -/
theorem test_setColumnAddr_refused : refuses (exec (.setColumnAddr 5 2) (up 12)) (.badColumnWindow 5 2) = true ∧
    refuses (exec (.setColumnAddr 0 0x80) (up 12)) (.badColumnWindow 0 0x80) = true := by decide
/-- V-DEC6, with a start other than 0: the pointer is at the start (R136). -/
theorem test_setPageAddr : endsIn (exec (.setPageAddr 0x02 0x07) (up 12)) (fun t =>
    t.slave == { upSlave with pageStart := some 2, pageEnd := some 7, pagePtr := some 2 }) = true := by decide
/-- V-DEC9. -/
theorem test_setPageAddr_refused : refuses (exec (.setPageAddr 0 8) (up 12)) (.badPageWindow 0 8) = true := by decide
/-- V-MAP8: the last column of the window, so the pointer goes to the next page. -/
theorem test_data : endsIn (exec (.data 0x80) (upSlaveIs { upSlave with colPtr := some 3 } 5)) (fun t =>
    t.slave.ram.read 3 == some 0x80 && t.slave.colPtr == some 0 && t.slave.pagePtr == some 1) = true := by decide
/-- V-DEC19: a data byte right after a reset. -/
theorem test_data_after_reset :
    faultsWith (exec (.data 0x55) (upSlaveIs { Slave.powerOn std with phase := .ready, dec := some .idle } 5))
      (.unwrittenState .addrMode) = true := by decide

/-! ## The slave on its own -/

/-- V-DEC3: `DB 40 40`. -/
theorem test_slave_db4040 :
    slaveIn (Slave.takeBytes (some false) [0xDB, 0x40, 0x40] { upSlave with vcomh := none, startLine := none }) (fun S =>
      S == upSlave) = true := by decide
/-- V-DEC13: data while an operand is pending. -/
theorem test_slave_pending_data :
    slaveStops (Slave.dataByte 0x55 { upSlave with dec := some (.pendingTwo .setColumnAddr) }) (.refuse .dataWhilePending) = true := by
  decide
/-- V-DEC10. -/
theorem test_slave_unknown : slaveStops (upSlave.commandByte 0xE3) (.refuse (.unknownCommand 0xE3)) = true := by decide
/-- V-DEC17, V-DEC18: the gate of a transmission. -/
theorem test_slave_gate :
    slaveStops (upSlave.receive ⟨some true, some false, some true⟩ [0xAE]) (.refuse .txWhileDeselected) = true ∧
    slaveStops ((Slave.powerOn std).receive ⟨some false, some false, some true⟩ [0xAE]) (.refuse .slaveNotReady) = true := by decide
/-- R115, R116 at the boundary of the minimum pulse. -/
theorem test_slave_pulse :
    slaveStops (Slave.onPin .res true { Slave.powerOn std with phase := .inReset, resLowUs := some 9999 })
      (.refuse .resetPulseTooShort) = true ∧
    slaveIn (Slave.onPin .res true { Slave.powerOn std with phase := .inReset, resLowUs := some 10000 })
      (fun S => S.phase == .ready && S.dec == some .idle) = true := by decide
/-- The slave of the rows of V-MAP. -/
def mapped (cs ce ps pe pp cp : Nat) : Slave :=
  { upSlave with colStart := some cs, colEnd := some ce, colPtr := some cp, pageStart := some ps, pageEnd := some pe,
                 pagePtr := some pp, ram := [] }
/-- V-MAP2: the ninth byte overwrites the first. -/
theorem test_map2 : slaveIn (Slave.takeBytes (some true) [1, 2, 3, 4, 5, 6, 7, 8, 9] (mapped 0 3 0 1 0 0)) (fun S =>
    S.ram == [(0, 9), (1, 2), (2, 3), (3, 4), (128, 5), (129, 6), (130, 7), (131, 8)] &&
    S.pagePtr == some 0 && S.colPtr == some 1) = true := by decide
/-- V-MAP5: a window of one column. -/
theorem test_map5 : slaveIn (Slave.takeBytes (some true) [1, 2, 3, 4] (mapped 5 5 2 4 2 5)) (fun S =>
    S.ram == [(261, 4), (389, 2), (517, 3)] && S.pagePtr == some 3 && S.colPtr == some 5) = true := by decide
/-- V-MAP6: a window that begins elsewhere than at (0,0). -/
theorem test_map6 : slaveIn (Slave.takeBytes (some true) [1, 2, 3, 4, 5, 6] (mapped 1 2 3 4 3 1)) (fun S =>
    S.ram == [(385, 5), (386, 6), (513, 3), (514, 4)] && S.pagePtr == some 4 && S.colPtr == some 1) = true := by decide

/-! ## Host operations -/

/-- P2: the end state of CONSTRUCT(4,16) from power-on and the length of its trace (R44, R80). -/
theorem test_construct : endsIn (exec (.construct 4 16 pins) (cold 127)) (fun t =>
    t.slave == upSlave && t.trace.length == 129 && t.log == [] &&
    t.master == ⟨.init, some 4, some 16, buffer 0 0 0 0 0 0 0 0, ⟨some true, some true, some true⟩⟩) = true := by decide +kernel
/-- V-EXC: the order of the checks. -/
theorem test_construct_errors :
    endsIn (exec (.construct 0 12 pins) (cold 0)) (fun t =>
      t.outcome == some (.raised (.configError .widthNonpositive 0)) && t.trace == []) = true ∧
    endsIn (exec (.construct 1000 12 pins) (cold 0)) (fun t =>
      t == (cold 0).takeException (.configError .heightNotMultipleOf8 12)) = true ∧
    refuses (exec (.construct 128 72 pins) (cold 0)) .geometryExceedsRam = true := by decide
/-- V-RST1 with draws 5000 and 250000 of V-RST2, and V-RST3: registers and RAM lose their values, the buffer does not. -/
theorem test_reset : endsIn (exec .reset { up 3 with waits := [4000, 240000] }) (fun t =>
    events t == [.pin .res true, .wait 5000, .pin .res false, .wait 250000, .pin .res true] &&
    t.slave == { Slave.powerOn std with phase := .ready, dec := some .idle, resLowUs := some 250000 } &&
    t.master == (up 0).master) = true := by decide
/-- V-RST5: the third event fails. -/
theorem test_reset_fails : endsIn (exec .reset { upWith [.ok, .fail []] with waits := [0] }) (fun t =>
    t.outcome == some (.raised (.transmissionError 2 (.pin .res false))) && t.trace.length == 3 &&
    t.master.pins == ⟨some true, some true, none⟩) = true := by decide
/-- R96: INIT sends V-INIT's bytes for 4 x 16, in 92 events; R44: the registers. -/
theorem test_init : endsIn (exec .init (upSlaveIs { upSlave with contrast := none, mux := none, compins := none } 92)) (fun t =>
    t.slave == upSlave && t.trace.length == 92 &&
    sent t == [0xAE, 0x81, 0xFF, 0xD9, 0xF1, 0xDB, 0x40, 0x40, 0xD3, 0x00, 0xD5, 0x80, 0xDA, 0x02, 0xA0, 0xC0, 0xA8, 0x0F, 0x20,
      0x00, 0xA4, 0xA6, 0xAF].map (fun b => [b])) = true := by decide +kernel
/-- V-FRM2 and V-DEC2. -/
theorem test_wcmd : endsIn (exec (.wcmd 0x81 (some 0xFE)) (up 8)) (fun t =>
    t.slave == { upSlave with contrast := some 0xFE } && t.master.pins == ⟨some true, some false, some true⟩) = true := by decide
/-- V-TX3: the second transmission fails, the byte not received or received. -/
theorem test_wcmd_fails :
    endsIn (exec (.wcmd 0x81 (some 0xFE)) (upWith (oks 6 ++ [.fail [false]]))) (fun t =>
      t.slave.dec == some (.pendingOne .setContrast) && t.master.pins.cs == some false) = true ∧
    endsIn (exec (.wcmd 0x81 (some 0xFE)) (upWith (oks 6 ++ [.fail [true]]))) (fun t =>
      t.slave == { upSlave with contrast := some 0xFE }) = true := by decide
/-- V-FRM3. -/
theorem test_wbuf : endsIn (exec (.wbuf [0x01, 0x80]) (up 5)) (fun t =>
    events t == [.pin .cs true, .pin .dc true, .pin .cs false, .tx [0x01, 0x80], .pin .cs true] &&
    t.slave.colPtr == some 2) = true := by decide
/-- V-FRM5 and V-FRM6. -/
theorem test_framer_refuses : refuses (exec (.wcmd 0x100 none) State.reset) .notAByte = true ∧
    refuses (exec (.wbuf []) (up 5)) .emptyBurst = true := by decide
/-- P2: the trace and the RAM of RENDER. -/
theorem test_render : endsIn (exec .render (up 29)) (fun t =>
    t.slave == { upSlave with
      ram := [(0, 0x01), (1, 0x80), (2, 0), (3, 0), (128, 0), (129, 0), (130, 0x02), (131, 0x80)] } &&
    sent t == [[0x21], [0x00], [0x03], [0x22], [0x00], [0x01], [0x01, 0x80, 0, 0, 0, 0, 0x02, 0x80]]) = true := by decide
/-- P5 case (a): the burst fails, two of its bytes arrived; V-TX4: the burst hangs. -/
theorem test_render_fails :
    endsIn (exec .render (upWith (oks 27 ++ [.fail [true, false, true]]))) (fun t =>
      t.slave == { upSlave with
        colPtr := none, pagePtr := none
        ram := [(0, 0x01), (1, 0), (2, 0), (3, 0), (128, 0), (129, 0), (130, 0), (131, 0)] } &&
      t.master.pins == ⟨some false, some true, some true⟩ && t.trace.length == 28) = true ∧
    endsIn (exec .render (upWith (oks 27 ++ [.hang]))) (fun t => t.hung && t.log == []) = true := by decide
/-- P3. -/
theorem test_clear : endsIn (exec .clear (up 29)) (fun t =>
    t.master.fb == buffer 0 0 0 0 0 0 0 0 && t.slave == upSlave && t.trace.length == 29) = true := by decide
/-- R85: the lifecycle refusals of the end of V-EXC. -/
theorem test_lifecycle : refuses (exec .render (cold 29)) .notConstructed = true ∧
    refuses (exec (.pset 0 0 1) (cold 0)) .notConstructed = true ∧
    refuses (exec (.wcmd 0xAE none) (cold 4)) .pinsNotConfigured = true ∧
    refuses (exec (.construct 128 64 pins) (up 127)) .alreadyConstructed = true := by decide

/-- R85 after a CONSTRUCT whose RESET failed at its third event (Pos 5): the three pins are configured, though the reset line lost
its level, so RESET is admitted and brings the slave up (R168, log entry 14). -/
theorem test_reset_after_failed_construct :
    endsIn (exec (.construct 4 16 pins) { cold 0 with answers := oks 4 ++ [.fail []] ++ oks 3, waits := [0, 0, 0] }) (fun t =>
      t.master.pins.res == none && t.master.life == .uninit && endsIn (exec .reset t) (fun u =>
        u.slave.phase == .ready && u.master.pins.res == some true)) = true := by decide
/-- R180: an exception, then a refusal, which is the last entry of the log of its run. -/
theorem test_faultLog : faultLog [.step, .step] { cold 0 with requests := [.call 0x0 [0, 0], .call 0x5 []] } =
    [.exception (.configError .widthNonpositive 0), .refusal .notConstructed] := by decide

/-- V-DEC16 and R180: the observation of a panel whose RAM holds no value faults and enters the log, and a later refusal follows it;
an observation that shows a pixel enters nothing. -/
theorem test_observation_logged :
    faultLog [.observe 0 0, .step] { upSlaveIs { upSlave with ram := [] } 0 with requests := [.call 0x7 []] } =
      [.fault (.unwrittenState .ram), .refusal .unknownHostOp] ∧
    faultLog [.observe 2 9] (upSlaveIs { upSlave with ram := [(130, 0x02)] } 0) = [] := by decide

/-- R54, R201, U18: while a RENDER whose burst hangs has not returned, and after a CONSTRUCT whose RENDER failed, no image is defined,
though the same registers and RAM give a pixel on a constructed block that is free. -/
theorem test_no_image_in_operation :
    endsIn (exec .render (upWith (oks 27 ++ [.hang]))) (fun t =>
      t.slave.panelPixel 4 16 2 9 == .ok (.shown false) && (t.observePanel 2 9).1 == .ok .notDefined) = true ∧
    ((up 0).observePanel 2 9).1 = .ok (.shown false) ∧
    endsIn (exec (.construct 4 16 pins) { cold 126 with answers := oks 126 ++ [.fail []] }) (fun t =>
      t.slave.panelPixel 4 16 2 9 == .ok (.shown false) && (t.observePanel 2 9).1 == .ok .notDefined) = true := by
  decide +kernel

/-! ## The parameters (R4, R78) -/

/-- R78, R82, D10: two equal opcodes, a RAM too wide, a minimum pulse longer than the master's hold: refused. -/
theorem test_params_refused : ({ opcDisplayOff := 0xAF } : ParamSet).check = none ∧ ({ ramCols := 257 } : ParamSet).check = none ∧
    ({ ramPages := 33 } : ParamSet).check = none ∧ ({ tResLowCtrl := 10001 } : ParamSet).check = none ∧
    ({ tResLowCtrl := 0 } : ParamSet).check = none := by decide
/-- V-RST4: RESET with T_RES_LOW_CTRL = 3 ends as with the default; and a pulse of 3 us then is one (D10). -/
theorem test_params_reset :
    endsIn (exec .reset { upSlaveIs { upSlave with params := other } 3 with waits := [0, 0] }) (fun t =>
      t.slave.phase == .ready && t.slave.resLowUs == some 10000 && t.slave.params == other) = true ∧
    slaveIn (Slave.onPin .res true { upSlave with params := other, phase := .inReset, resLowUs := some 3 })
      (fun S => S.phase == .ready) = true := by decide
/-- Another opcode byte and another RAM size: the master sends the byte, the slave knows it and no longer 0xAE, and the bound of a
column window is the RAM's (R66, R119, R135). -/
theorem test_params_opcode :
    endsIn (exec .displayOff (upSlaveIs { upSlave with params := other } 4)) (fun t =>
      sent t == [[0x10]] && t.slave.dispOn == some false) = true ∧
    refuses (exec (.wcmd 0xAE none) (upSlaveIs { upSlave with params := other } 4)) (.unknownCommand 0xAE) = true ∧
    endsIn (exec (.setColumnAddr 0 0x83) (upSlaveIs { upSlave with params := other } 12)) (fun t =>
      t.slave.colEnd == some 131) = true := by decide

/-! ## The frame-store port (V-FB) -/

/-- Steps 11 and 12. -/
theorem test_fill : endsIn (exec (.fill 1) (up 0)) (fun t =>
      t.master.fb == buffer 0xFF 0xFF 0xFF 0xFF 0xFF 0xFF 0xFF 0xFF) = true ∧
    endsIn (exec (.fill 0) (up 0)) (fun t => t.master.fb == buffer 0 0 0 0 0 0 0 0) = true := by decide
/-- Steps 6 and 7: the other bits of the byte are kept. -/
theorem test_pset : endsIn (exec (.pset 0 1 1) (up 0)) (fun t => t.master.fb == buffer 0x03 0x80 0 0 0 0 0x02 0x80) = true ∧
    endsIn (exec (.pset 0 0 0) { up 0 with master := { (up 0).master with fb := buffer 3 0 0 0 0 0 0 0 } }) (fun t =>
      t.master.fb == buffer 2 0 0 0 0 0 0 0) = true := by decide
/-- Step 13. -/
theorem test_pset_refused : refuses (exec (.pset 4 0 1) (up 0)) .pixelOutOfRange = true ∧
    refuses (exec (.pset 0 16 1) (up 0)) .pixelOutOfRange = true ∧
    refuses (exec (.pset (-1) 0 1) (up 0)) .pixelOutOfRange = true := by decide
/-- Step 5. -/
theorem test_pget : endsIn (exec (.pget 3 15) (up 0)) (fun t => t.outcome == some (.returned (.bit true))) = true ∧
    endsIn (exec (.pget 3 14) (up 0)) (fun t => t.outcome == some (.returned (.bit false))) = true := by decide
/-- Steps 9 and 14. -/
theorem test_fbwrite : endsIn (exec (.fbwrite 5 0xA5) (up 0)) (fun t =>
      t.master.fb == buffer 0x01 0x80 0 0 0 0xA5 0x02 0x80) = true ∧
    refuses (exec (.fbwrite 8 0) (up 0)) .indexOutOfRange = true := by decide
/-- Step 10 (with the buffer of step 4). -/
theorem test_rawbytes : endsIn (exec .rawbytes (up 0)) (fun t =>
    t.outcome == some (.returned (.bytes [0x01, 0x80, 0, 0, 0, 0, 0x02, 0x80])) && t.trace == []) = true := by decide
/-- R63: the panel of P2 after its RENDER; V-DEC16 and R39: the faults of registers and cells that hold nothing. -/
theorem test_panel :
    Slave.panelPixel { upSlave with ram := [(130, 0x02)] } 4 16 2 9 = .ok (.shown true) ∧
    Slave.panelPixel { upSlave with ram := [(130, 0x02)] } 4 16 2 8 = .ok (.shown false) ∧
    Slave.panelPixel { upSlave with ram := [] } 4 16 0 0 = .error (.unwrittenState .ram) ∧
    Slave.panelPixel { upSlave with mux := none } 4 16 0 0 = .error (.unwrittenState .mux) ∧
    Slave.panelPixel { upSlave with dispOn := some false } 4 16 0 0 = .ok .notDefined := ⟨rfl, rfl, rfl, rfl, rfl⟩

/-- R63, R44: no geometry has a multiplex ratio 4, so a block whose register holds 4 shows no image, asked in 128 by 5 or in its own. -/
theorem test_panel_no_geometry :
    Slave.panelPixel { upSlave with mux := some 4, compins := some 0x12, colEnd := some 127, pageEnd := some 0 } 128 5 0 0 =
      .ok .notDefined ∧
    ((upSlaveIs { upSlave with mux := some 4 } 0).observePanel 2 9).1 = .ok .notDefined := by decide

/-! ## Witnesses: for every statement with hypotheses a state and operands that meet them, for every clause -/

/-- `exec i s` answers a next state in which `p` holds, as a proposition. -/
abbrev Ends (i : Instr) (s : State) (p : State → Bool) : Prop := ∃ t, exec i s = .next t ∧ p t = true

/-- The block whose slave had no valid reset. -/
def unready (n : Nat) : State := upSlaveIs (Slave.powerOn std) n

/-- The stuck block. -/
def stuck : State := (up 0).hang

theorem witness_DecodeThenEncode : decode std (.call 0x0 [4, 16, 17, 20, 21]) = .ok (.construct 4 16 ⟨17, 20, 21, none⟩) ∧
    (∀ args, Packet.call 0x0 [4, 16, 17, 20, 21] = .call 0x0 args → 5 ≤ args.length) ∧
    (([4, 16, 17] : List Int).length = 3 ∧ ([4, 16, 17, 20] : List Int).length = 4) :=
  ⟨rfl, fun args h => by cases h; decide, by decide⟩

/-- Also for NoOperandCommandEffects and OperandCommandEffects. -/
theorem witness_SlaveDecodesWholeCommands : upSlave.dec = some .idle := rfl

theorem witness_StepRunsDecoded : ∃ s : State, s.hung = false ∧ s.requests = [.command [0x81, 0xFF], .call 0x5 []] ∧
    decode std (.command [0x81, 0xFF]) = .ok (.setContrast 0xFF) :=
  ⟨{ up 8 with requests := [.command [0x81, 0xFF], .call 0x5 []] }, rfl, rfl, rfl⟩

/-- One line for each reason, a stuck block and one nobody calls. -/
theorem witness_StepOtherwise : commandOfOpcode std 0xE3 = none ∧ commandOfOpcode std 0xA1 = none ∧
    commandOfOpcode std 0x81 = some (.c2 .setContrast) ∧ ([] : List Byte).length ≠ (Command.c2 .setContrast).operands ∧
    ([1, 2] : List Byte).length ≠ (Command.c2 .setContrast).operands ∧ decode std (.command []) = .error .malformed ∧
    ([4, 16, 17] : List Int).length ∉ [0, 1, 2, 5, 7] ∧ ([] : List Int).length ≠ 1 ∧ ([] : List Int).length ≠ 2 ∧
    ((-1 : Int) < 0 ∧ 255 < (256 : Int)) ∧ (up 0).hung = false ∧
    ({ up 0 with requests := [.command [0xE3, 0x00]] } : State).requests = [.command [0xE3, 0x00]] ∧
    ({ up 0 with requests := [.call 0xB [0, 256]] } : State).requests = [.call 0xB [0, 256]] ∧
    stuck.hung = true ∧ (up 0).requests = [] :=
  ⟨rfl, rfl, rfl, by decide, by decide, rfl, by decide, by decide, by decide, by decide, rfl, rfl, rfl, rfl, rfl⟩

theorem witness_TableWordRunsNext : decodeTableWord 8 0xAE = some .displayOff ∧
    decodeTableWord 24 0x070022 = some (.setPageAddr 0 7) ∧ (up 0).params = Config.defaults ∧
    decodeTableWordFor other 8 0x10 = some .displayOff := ⟨rfl, rfl, rfl, by decide⟩

theorem up_inv (s : State) (hm : s.master = (up 0).master) (hs : s.slave = upSlave) : s.Inv := by
  refine ⟨Or.inr ⟨4, 16, by rw [hm]; rfl, by rw [hm]; rfl,
    show GeometryOk s.slave.params 4 16 by rw [hs]; decide, by rw [hm]; decide⟩, ?_, ?_⟩ <;> rw [hs]
  · refine ⟨Or.inr ⟨0, 3, rfl, rfl, by decide, by decide, ?_⟩, Or.inr ⟨0, 1, rfl, rfl, by decide, by decide, ?_⟩,
      by decide, by decide, by decide, by decide⟩
    · intro p h; cases h; decide
    · intro p h; cases h; decide
  · intro h; cases h

theorem held_of_phase (S : Slave) (h : S.phase ≠ .inReset) : S.LowPhaseHeld := fun hp => absurd hp h

theorem held_of_time (S : Slave) (h : S.resLowUs = some 10000) : S.LowPhaseHeld := fun _ => ⟨10000, h, by decide⟩

theorem witness_StepKeepsInvariant : ∃ s t : State, s.Inv ∧ step s = .next t ∧ t.slave.ram ≠ s.slave.ram := by
  obtain ⟨t, ht, hp⟩ := endsIn_next (r := step { up 29 with requests := [.call 0x5 []] })
    (p := fun t => decide (t.slave.ram ≠ upSlave.ram)) (by decide)
  exact ⟨{ up 29 with requests := [.call 0x5 []] }, t, up_inv _ rfl rfl, ht, of_decide_eq_true hp⟩

theorem witness_ResetLine : upSlave.phase ≠ .inReset ∧
    (∃ S : Slave, S.phase = .inReset ∧ S.resLowUs = some 10000 ∧ std.tResLowCtrl ≤ 10000) ∧
    (∃ S : Slave, S.phase = .inReset ∧ S.resLowUs = some 9999 ∧ 9999 < std.tResLowCtrl) :=
  ⟨by decide, ⟨{ upSlave with phase := .inReset, resLowUs := some 10000 }, rfl, rfl, by decide⟩,
   ⟨{ upSlave with phase := .inReset, resLowUs := some 9999 }, rfl, rfl, by decide⟩⟩

theorem witness_WaitAndSelectLines : (up 0).slave.phase ≠ .inReset ∧
    (∃ s : State, s.slave.phase = .inReset ∧ s.slave.resLowUs = some 0) ∧ (Pin.cs = .cs ∨ Pin.cs = .dc) :=
  ⟨by decide, ⟨upSlaveIs { upSlave with phase := .inReset, resLowUs := some 0 } 0, rfl, rfl⟩, Or.inl rfl⟩

theorem witness_TransmissionGate : (Slave.powerOn std).phase ≠ .ready ∧ upSlave.phase = .ready ∧
    (⟨some false, some false, some false⟩ : Pins).res ≠ some true ∧
    (⟨some true, some false, some true⟩ : Pins).cs ≠ some false ∧
    (⟨some false, some false, some true⟩ : Pins).cs = some false := by decide

/-- A byte from Idle, and a byte after which operands are outstanding. -/
theorem witness_CommandByteFrame : (∃ S', upSlave.commandByte 0xAE = .ok S') ∧
    (∃ S', upSlave.commandByte 0x21 = .ok S' ∧ S'.dec ≠ some .idle) ∧ (∀ m a, upSlave.dec ≠ some (.pendingEnd m a)) :=
  ⟨⟨_, rfl⟩, ⟨_, rfl, by decide⟩, fun m a h => by cases h⟩

/-- The corners of the RAM, and a window of one cell; two of its cells differ. -/
theorem witness_DataWrite : (mapped 0 127 0 7 0 0).MapAt 0 127 0 0 7 0 ∧ (mapped 0 127 0 7 7 127).MapAt 0 127 127 0 7 7 ∧
    (mapped 5 5 2 2 2 5).MapAt 5 5 5 2 2 2 ∧ 127 < std.ramCols ∧ ((7, 127) : Nat × Nat) ≠ (7, 126) := by decide

theorem witness_DataWriteStops :
    (∃ S : Slave, S.dec = some (.pendingEnd .setPageAddr 0) ∧ Dec.pendingEnd .setPageAddr 0 ≠ .idle) ∧
    (∃ S : Slave, S.dec = some .idle ∧ S.addrMode = none) ∧
    (∃ S : Slave, S.dec = some .idle ∧ S.addrMode = some 0x00 ∧ S.colPtr = none) ∧
    (∃ S : Slave, S.dec = some .idle ∧ S.mapRegs = .ok ⟨0x02, 0, 3, 0, 0, 1, 0⟩ ∧ (0x02 : Byte) ≠ 0x00) :=
  ⟨⟨{ upSlave with dec := some (.pendingEnd .setPageAddr 0) }, rfl, by decide⟩, ⟨{ upSlave with addrMode := none }, rfl, rfl⟩,
   ⟨{ upSlave with colPtr := none }, rfl, rfl, rfl⟩,
   ⟨{ upSlave with addrMode := some 0x02 }, rfl, rfl, by decide⟩⟩

/-- V-MAP2: nine bytes into eight cells from the start; the second byte is the first that survives; (0,4) is outside the windows.
V-MAP8: from position 3. -/
theorem witness_BurstMapping : (mapped 0 3 0 1 0 0).MapAt 0 3 (0 + 0 % 4) 0 1 (0 + 0 / 4 % 2) ∧
    (mapped 0 3 0 1 0 3).MapAt 0 3 (0 + 3 % 4) 0 1 (0 + 3 / 4 % 2) ∧
    ([1, 2, 3, 4, 5, 6, 7, 8, 9] : List Byte)[1]? = some 2 ∧
    ([1, 2, 3, 4, 5, 6, 7, 8, 9] : List Byte).length ≤ 1 + (3 - 0 + 1) * (1 - 0 + 1) ∧ 4 < std.ramCols ∧
    (∀ k, k < 9 → ((0, 4) : Nat × Nat) ≠ (0 + (0 + k) / (3 - 0 + 1) % (1 - 0 + 1), 0 + (0 + k) % (3 - 0 + 1))) := by decide

/-- Also for OperandCommandsRun, WindowCommandsRun and InitRuns: a block whose slave takes a command, its events completing. -/
theorem witness_NoOperandCommandsRun : (up 4).CommandReady ∧ (up 4).Answers 4 := by decide
theorem witness_OperandCommandsRun : (up 8).CommandReady ∧ (up 8).Answers 8 := by decide
/-- Legal bounds and illegal ones where they meet. -/
theorem witness_WindowCommandsRun : (up 12).CommandReady ∧ (up 12).Answers 12 ∧
    ((0 : Byte).toNat ≤ (127 : Byte).toNat ∧ (127 : Byte).toNat < std.ramCols) ∧
    ((127 : Byte).toNat ≤ (127 : Byte).toNat ∧ (127 : Byte).toNat < std.ramCols) ∧
    ¬((0 : Byte).toNat ≤ (128 : Byte).toNat ∧ (128 : Byte).toNat < std.ramCols) ∧
    ¬((5 : Byte).toNat ≤ (4 : Byte).toNat ∧ (4 : Byte).toNat < std.ramCols) ∧
    ((7 : Byte).toNat ≤ (7 : Byte).toNat ∧ (7 : Byte).toNat < std.ramPages) ∧
    ¬((0 : Byte).toNat ≤ (8 : Byte).toNat ∧ (8 : Byte).toNat < std.ramPages) := by decide

/-- Each of the three pending states; legal and illegal end bounds where they meet; a line of one byte. -/
theorem witness_PendingTakesOpcodeAsOperand :
    (upSlaveIs { upSlave with dec := some (.pendingOne .setContrast) } 4).LinkUp ∧
    (upSlaveIs { upSlave with dec := some (.pendingOne .setContrast) } 4).Answers 4 ∧
    (upSlaveIs { upSlave with dec := some (.pendingOne .setContrast) } 4).slave.dec = some (.pendingOne .setContrast) ∧
    (upSlaveIs { upSlave with dec := some (.pendingTwo .setColumnAddr) } 4).LinkUp ∧
    (upSlaveIs { upSlave with dec := some (.pendingEnd .setColumnAddr 0x21) } 4).LinkUp ∧
    (upSlaveIs { upSlave with dec := some (.pendingEnd .setPageAddr 0x01) } 4).LinkUp ∧
    ((0x21 : Byte).toNat ≤ (0x7F : Byte).toNat ∧ (0x7F : Byte).toNat < std.ramCols) ∧
    ¬((0x21 : Byte).toNat ≤ (0x00 : Byte).toNat ∧ (0x00 : Byte).toNat < std.ramCols) ∧
    ¬((0x21 : Byte).toNat ≤ (0x80 : Byte).toNat ∧ (0x80 : Byte).toNat < std.ramCols) ∧
    ((0x01 : Byte).toNat ≤ (0x07 : Byte).toNat ∧ (0x07 : Byte).toNat < std.ramPages) ∧
    ¬((0x01 : Byte).toNat ≤ (0x08 : Byte).toNat ∧ (0x08 : Byte).toNat < std.ramPages) ∧
    encode std .displayOff = .command [0xAE] :=
  ⟨by decide, by decide, rfl, by decide, by decide, by decide, by decide, by decide, by decide, by decide, by decide, rfl⟩

/-- A slave without a reset, and a line that is not high. -/
theorem witness_UnreadySlaveRefused : (unready 4).internalAdmitted = true ∧ (unready 4).slave.phase ≠ .ready ∧
    (unready 4).Answers 3 ∧ (unready 4).Answers 4 ∧ encode std .displayOff = .command [0xAE] ∧
    (∃ s : State, s.internalAdmitted = true ∧ s.slave.phase = .ready ∧ s.master.pins.res ≠ some true ∧ s.Answers 4) :=
  ⟨by decide, by decide, by decide, by decide, rfl,
   ⟨{ up 4 with master := { (up 4).master with pins := ⟨some true, some true, none⟩ } }, by decide, by decide, by decide, by decide⟩⟩

theorem witness_DataRuns : (up 5).LinkUp ∧ (up 5).Answers 5 ∧ (up 5).slave.MapAt 0 3 0 0 1 0 ∧
    (upSlaveIs { upSlave with addrMode := some 0x02 } 5).LinkUp ∧
    Slave.dataByte 0x55 { upSlave with addrMode := some 0x02 } = .error (.refuse .addrModeNotModelled) :=
  ⟨by decide, by decide, by decide, by decide, rfl⟩

/-- Each clause, the values outside [0,255] where they meet it, in the first argument and in the second. -/
theorem witness_WcmdRuns : (up 8).LinkUp ∧ (up 8).Answers 4 ∧ (up 8).Answers 8 ∧
    (∃ S, upSlave.commandByte 0xAE = .ok S) ∧ (∃ S, upSlave.takeBytes (some false) [0x81, 0xFF] = .ok S) ∧
    (∃ e, upSlave.commandByte 0x00 = .error e) ∧ (∃ e, upSlave.takeBytes (some false) [0xAE, 0x00] = .error e) ∧
    State.reset.hung = false ∧ ((-1 : Int) < 0 ∧ 255 < (256 : Int)) ∧
    (∃ x, some (256 : Int) = some x ∧ (x < 0 ∨ 255 < x)) :=
  ⟨by decide, by decide, by decide, ⟨_, rfl⟩, ⟨_, rfl⟩, ⟨_, rfl⟩, ⟨_, rfl⟩, rfl, by decide, ⟨256, rfl, by decide⟩⟩

theorem witness_WbufRuns : (up 5).LinkUp ∧ (up 5).Answers 5 ∧ ([0x01, 0x80] : List Byte) ≠ [] ∧
    (∃ S, upSlave.takeBytes (some true) [0x01, 0x80] = .ok S) ∧
    (∃ e, Slave.takeBytes (some true) [0x01, 0x80] { upSlave with addrMode := some 0x02 } = .error e) ∧
    State.reset.hung = false ∧ ((256 : Int) ∈ [0, 256] ∧ 255 < (256 : Int)) :=
  ⟨by decide, by decide, by decide, ⟨_, rfl⟩, ⟨_, rfl⟩, rfl, by decide⟩

theorem witness_TransmissionsAreFramed : (up 5).Inv ∧ Ends (.wbuf [0x01, 0x80]) (up 5) (fun t =>
    t.trace[3]? == some ⟨.tx [0x01, 0x80], .ok⟩ && t.trace[4]? == some ⟨.pin .cs true, .ok⟩) :=
  ⟨up_inv _ rfl rfl, endsIn_next (by decide)⟩

/-- Also with a low phase that another operation left, at the boundary of its length. -/
theorem witness_ResetRuns : (up 3).internalAdmitted = true ∧ (up 3).Answers 3 ∧ (up 3).slave.LowPhaseHeld ∧
    (∃ s : State, s.slave.phase = .inReset ∧ s.slave.LowPhaseHeld ∧ s.Answers 3 ∧ s.internalAdmitted = true ∧ s.waits = [0, 7]) :=
  ⟨by decide, by decide, held_of_phase _ (by decide),
   ⟨{ upSlaveIs { Slave.powerOn std with phase := .inReset, resLowUs := some 10000 } 3 with waits := [0, 7] }, rfl,
    held_of_time _ rfl, by decide, by decide, rfl⟩⟩

theorem witness_ResetLeavesTheMaster : Ends .reset { up 3 with waits := [0, 0] } (fun t => t.trace.length == 5) :=
  endsIn_next (by decide)

theorem witness_InitRuns : (up 92).CommandReady ∧ (up 92).master.width = some 4 ∧ (up 92).master.height = some 16 ∧
    (up 92).Answers 92 := by decide +kernel

/-- Also for ClearIsTotal; the retry after a failed burst starts with no pointer. -/
theorem witness_RenderMirrorsBuffer : (up 29).Constructed 4 16 ∧ (up 29).CommandReady ∧ (up 29).slave.addrMode = some 0x00 ∧
    (up 29).Answers 29 ∧ (upSlaveIs { upSlave with colPtr := none, pagePtr := none } 29).CommandReady := by decide

theorem inWindow_not (a : Nat) (h : ∀ p, p < 2 → ∀ c, c < 4 → a ≠ ramAddr std p c) : ¬InWindow std 4 16 a :=
  fun ⟨p, c, hp, hc, ha⟩ => h p hp c hc ha

/-- Inside and outside the window that RENDER fills. -/
theorem witness_window : InWindow std 4 16 131 ∧ ¬InWindow std 4 16 4 ∧ ¬InWindow std 4 16 256 :=
  ⟨⟨1, 3, by decide, by decide, rfl⟩, inWindow_not _ (by decide), inWindow_not _ (by decide)⟩

theorem witness_ClearZeroesEvenWhenItFails : (upWith [.ok, .ok, .fail []]).Constructed 4 16 ∧
    Ends .clear (upWith [.ok, .ok, .fail []]) (fun t => t.log.length == 1) := ⟨by decide, endsIn_next (by decide)⟩

/-- From power-on, and after a failed CONSTRUCT; the smallest and the largest geometry. -/
theorem witness_ConstructBringsUp : (cold 127).master.life = .uninit ∧ (cold 127).slave.LowPhaseHeld ∧ GeometryOk std 1 8 ∧
    GeometryOk std 128 64 ∧ GeometryOk std 4 16 ∧ (cold 127).Answers 127 :=
  ⟨by decide, held_of_phase _ (by decide), by decide, by decide, by decide, by decide +kernel⟩

theorem witness_PanelShowsBuffer : (up 29).Constructed 4 16 ∧ (up 29).CommandReady ∧ (up 29).slave.initConfig 4 16 = true ∧
    (up 29).Answers 29 ∧ Ends .render (up 29) (fun t =>
      match t.slave.panelPixel 4 16 3 15 with | .ok p => p == .shown true | .error _ => false) ∧
    (Slave.powerOn std).dispOn = none ∧ Slave.initConfig { upSlave with ram := [] } 4 16 = true ∧
    Memory.read ([] : Memory) (ramAddr std (15 / 8) 3) = none ∧ stuck.hung = true ∧ (cold 0).master.life = .uninit ∧
    Slave.panelPixel { upSlave with ram := [(130, 0x02)] } 4 16 2 9 = .ok (.shown true) ∧
    ((upSlaveIs { upSlave with ram := [(131, 0x80)] } 0).observePanel 3 15).1 = .ok (.shown true) :=
  ⟨by decide, by decide, by decide, by decide, endsIn_next (by decide), rfl, by decide, rfl, rfl, rfl, by decide, by decide⟩

/-- Also for PsetRuns, PgetRuns, FbwriteRuns and RawbytesRuns, at the last pixel and the last index. -/
theorem witness_FillRuns : (up 0).Constructed 4 16 ∧ (2 : Int) ≠ 0 ∧ (2 : Int) ≠ 1 ∧ 3 < 4 ∧ 15 < 16 ∧ ((3, 14) : Nat × Nat) ≠ (3, 15) ∧
    7 < bufferSize 4 16 ∧ (bufferSize 4 16 : Int) ≤ 8 ∧ (-1 : Int) < 0 := by decide

theorem witness_PortRefusals : (up 0).Constructed 4 16 ∧ (-1 : Int) < 0 ∧ ((4 : Nat) : Int) ≤ 4 ∧ ((16 : Nat) : Int) ≤ 16 ∧
    3 < 4 ∧ 15 < 16 ∧ (2 : Int) ≠ 0 ∧ (2 : Int) ≠ 1 ∧ stuck.hung = true := by decide

theorem witness_PortLeavesTheWire : Ends (.pset 0 1 1) (up 0) (fun t => t.master.fb.read 0 == some 0x03) ∧
    Ends (.fill 1) (up 0) (fun t => t.trace == []) ∧ Ends (.pget 3 15) (up 0) (fun t => t.trace == []) ∧
    Ends (.fbwrite 7 0) (up 0) (fun t => t.trace == []) ∧ Ends .rawbytes (up 0) (fun t => t.trace == []) :=
  ⟨endsIn_next (by decide), endsIn_next (by decide), endsIn_next (by decide), endsIn_next (by decide), endsIn_next (by decide)⟩

/-- A constructed block, one at power-on, one with a pin that a failed PinCfg did not configure, and one whose three pins are
configured but that has no geometry. -/
theorem witness_LifecycleTable : (up 0).hung = false ∧ (up 0).master.life = .init ∧ (cold 0).hung = false ∧
    (cold 0).master.life = .uninit ∧ (∀ x ∈ (cold 0).trace, ∀ v, x ≠ ⟨.pinCfg .cs v, .ok⟩) ∧
    (∀ x ∈ [(⟨.pinCfg .cs true, .fail⟩ : TraceEntry)], ∀ v, x ≠ ⟨.pinCfg .cs v, .ok⟩) ∧ encode std .inverseOff = .command [0xA6] ∧
    ([0x00] : List Byte) ≠ [] ∧
    (∃ s : State, s.hung = false ∧ s.master.life = .uninit ∧ (∀ p : Pin, ∃ v, ⟨.pinCfg p v, .ok⟩ ∈ s.trace) ∧
      s.internalAdmitted = true ∧ s.master.width = none) := by
  refine ⟨rfl, rfl, rfl, rfl, by simp [cold, State.reset, State.resetWith], by simp, rfl, by decide,
    { cold 0 with trace := okEntries [.pinCfg .cs true, .pinCfg .dc false, .pinCfg .res true] }, rfl, rfl, ?_, by decide, rfl⟩
  intro p
  cases p
  · exact ⟨true, by decide⟩
  · exact ⟨false, by decide⟩
  · exact ⟨true, by decide⟩

/-- V-EXC: 129 x 64 and 128 x 72. -/
theorem witness_GeometryBoundRefused : (cold 0).hung = false ∧ (cold 0).master.life = .uninit ∧ (0 : Int) < 128 ∧
    (72 : Int) % 8 = 0 ∧ (std.ramCols : Int) < 129 ∧ 8 * (std.ramPages : Int) < 72 := by decide

theorem witness_ConfigErrorsTaken : (cold 0).hung = false ∧ (cold 0).master.life = .uninit ∧ (0 : Int) ≤ 0 ∧ (0 : Int) < 1 ∧
    (12 : Int) % 8 ≠ 0 := by decide

theorem witness_ConfigErrorOnlyFromConstruct : Ends (.construct 128 12 pins) (cold 0) (fun t =>
    t.log == (cold 0).log ++ [.exception (.configError .heightNotMultipleOf8 12)]) := endsIn_next (by decide)

/-- Each of the four ends. -/
theorem witness_OperationOutcomes : (up 4).hung = false ∧
    Ends .displayOff (up 4) (fun t => t.outcome == some (.returned .unit)) ∧
    Ends (.construct 0 0 pins) (cold 0) (fun t => t.outcome == some (.raised (.configError .widthNonpositive 0))) ∧
    Ends .displayOff (upWith [.ok, .fail []]) (fun t =>
      t.outcome == some (.raised (.transmissionError 1 (.pin .cs false)))) ∧
    Ends .displayOff (upWith [.ok, .ok, .hang]) (fun t => t.outcome == some .hangs) :=
  ⟨rfl, endsIn_next (by decide), endsIn_next (by decide), endsIn_next (by decide), endsIn_next (by decide)⟩

theorem witness_HangNeverReturns : (upWith [.hang]).hung = false ∧
    Ends .render (upWith [.hang]) (fun t => t.outcome == some .hangs) := ⟨rfl, endsIn_next (by decide)⟩

/-- A pin event that fails, a transmission that fails, a pin configuration that fails (V-TX1), and a failed write of the reset line
that reached the slave and one that did not. -/
theorem witness_FailedEventLines : (upWith [.fail []]).hung = false ∧
    Ends .render (upWith [.fail []]) (fun t => t.outcome == some (.raised (.transmissionError 0 (.pin .dc false)))) ∧
    Ends .render (upWith [.ok, .ok, .fail []]) (fun t => t.outcome == some (.raised (.transmissionError 2 (.tx [0x21])))) ∧
    Ends (.construct 4 16 pins) { cold 0 with answers := [.fail []] } (fun t =>
      t.outcome == some (.raised (.transmissionError 0 (.pinCfg .cs true)))) ∧
    (upWith [.fail [true]]).internalAdmitted = true ∧ (upWith [.fail [true]]).answers = .fail [true] :: [] ∧
    ([true] : List Bool).head? = some true ∧ ([] : List Bool).head? ≠ some true :=
  ⟨rfl, endsIn_next (by decide), endsIn_next (by decide), endsIn_next (by decide), by decide, rfl, rfl, by decide⟩

/-- Received and not received. -/
theorem witness_FailedCommandByte : (upWith [.ok, .ok, .fail [true]]).LinkUp ∧ (upWith [.ok, .ok, .fail [true]]).hung = false ∧
    (∃ S, upSlave.commandByte 0xAE = .ok S) ∧ [true].head? = some true ∧ ([] : List Bool).head? ≠ some true :=
  ⟨by decide, rfl, ⟨_, rfl⟩, rfl, by decide⟩

/-- The three cases of RENDER, and a failed burst of two bytes from position 3 of the windows. -/
theorem witness_FailedBurstMixesFrame : (upWith (List.replicate 27 .ok ++ .fail [true] :: [])).Constructed 4 16 ∧
    (upWith (List.replicate 27 .ok ++ .fail [true] :: [])).CommandReady ∧
    (upWith (List.replicate 27 .ok ++ .fail [true] :: [])).slave.addrMode = some 0x00 ∧
    Ends .render (upWith (oks 26 ++ [.fail []])) (fun t =>
      t.outcome == some (.raised (.transmissionError 26 (.pin .cs false)))) ∧
    (upWith (List.replicate 28 .ok ++ .fail [] :: [])).Constructed 4 16 ∧
    (upWith (List.replicate 28 .ok ++ .fail [] :: [])).CommandReady ∧
    (upSlaveIs (mapped 0 3 0 1 0 3) 0).LinkUp ∧ (mapped 0 3 0 1 0 3).MapAt 0 3 (0 + 3 % 4) 0 1 (0 + 3 / 4 % 2) ∧
    ([0x01, 0x80] : List Byte) ≠ [] ∧ (upWith [.ok, .ok, .ok, .fail [false, true]]).hung = false :=
  ⟨by decide, by decide, by decide, endsIn_next (by decide), by decide, by decide, by decide, by decide, by decide, rfl⟩

/-- A CONSTRUCT that makes the block Init, and an operation on one that is. -/
theorem witness_LifecycleRule : Ends (.construct 4 16 pins) (cold 127) (fun t => t.master.life == .init) ∧
    Ends .displayOff (up 4) (fun t => t.master.life == .init) := ⟨endsIn_next (by decide), endsIn_next (by decide)⟩

theorem witness_GeometryIsImmutable : (up 0).Inv ∧ (up 0).master.life = .init ∧
    Ends (.fill 1) (up 0) (fun t => t.master.fb.read 7 == some 0xFF) := ⟨up_inv _ rfl rfl, rfl, endsIn_next (by decide)⟩

theorem witness_BufferWriters : Ends (.fill 0) (up 0) (fun t => decide (t.master.fb ≠ (up 0).master.fb)) :=
  endsIn_next (by decide)

theorem witness_RamWriters : Ends (.data 0x80) (up 5) (fun t => decide (t.slave.ram ≠ (up 5).slave.ram)) ∧
    Ends .reset { up 3 with waits := [0, 0] } (fun t => decide (t.slave.ram ≠ (up 3).slave.ram)) :=
  ⟨endsIn_next (by decide), endsIn_next (by decide)⟩

/-- An instruction that raises, a step that takes an exception, one that is refused and one that faults, an observation that shows a
pixel and one that faults. -/
theorem witness_TraceAndLogOnlyGrow :
    ((upWith [.ok, .fail []]).hung = false ∧ Ends .render (upWith [.ok, .fail []]) (fun t =>
      t.outcome == some (.raised (.transmissionError ((upWith []).trace.length + 1) (.pin .cs false))))) ∧
    (∃ t, step { upWith [.ok, .fail []] with requests := [.call 0x5 []] } = .next t ∧
      (t.trace.length == 2 && t.log.length == 1) = true) ∧
    (∃ r, step { cold 0 with requests := [.call 0x5 []] } = .refused r) ∧
    (∃ f, step { upSlaveIs { upSlave with colPtr := none } 5 with requests := [.data 0x55] } = .fault f) ∧
    (up 0).panelSize = (4, 16) ∧ (∃ p, Slave.panelPixel { upSlave with ram := [(130, 0x02)] } 4 16 2 9 = .ok p) ∧
    (∃ f, Slave.panelPixel { upSlave with mux := none } 4 16 0 0 = .error f) :=
  ⟨⟨rfl, endsIn_next (by decide)⟩, endsIn_next (by decide), ⟨.notConstructed, rfl⟩, ⟨.unwrittenState .colPtr, rfl⟩,
    rfl, ⟨_, rfl⟩, ⟨_, rfl⟩⟩

theorem witness_PinLevelsAfterReturn : (up 29).hung = false ∧
    Ends (.wcmd 0xAE none) (up 4) (fun t => t.outcome == some (.returned .unit)) ∧
    Ends .render (up 29) (fun t => t.outcome == some (.returned .unit)) := ⟨rfl, endsIn_next (by decide), endsIn_next (by decide)⟩

end Sys2Proof.Tests
end

section
/-! ## What every operation other than CONSTRUCT keeps -/

namespace Sys2Proof.Machine

/-- The property holds of the next state, where the step answers one. -/
def AnswerHolds (P : State → Prop) (r : Answered) : Prop := ∀ t, r = .next t → P t

/-- A property that each element of an event list keeps, each way an operation can end, and each write of the frame buffer. -/
structure KeptByOperations (P : State → Prop) : Prop where
  perform : ∀ (a : Action) (s : State), P s → (perform a s).Holds P
  giveBack : ∀ (s : State) (r : Result), P s → P (s.giveBack r)
  takeException : ∀ (s : State) (x : Exception), P s → P (s.takeException x)
  hang : ∀ s : State, P s → P s.hang
  writeBuffer : ∀ (s : State) (fb : Memory), P s → P { s with master := { s.master with fb := fb } }

namespace AnswerHolds

variable {P : State → Prop} {s : State}

theorem next (h : P s) : AnswerHolds P (.next s) := by
  rintro t ⟨⟩
  exact h

theorem refused (r : Refusal) : AnswerHolds P (.refused r) := by
  rintro t ⟨⟩

theorem answer (e : Stop) : AnswerHolds P e.answer := by
  intro t ht
  cases e <;> cases ht

theorem whenFree {k : Answered} (hs : P s) (hk : AnswerHolds P k) : AnswerHolds P (whenFree s k) := by
  unfold Machine.whenFree
  split
  · exact next hs
  · exact hk

theorem portWrite {k : Answered} (hk : AnswerHolds P k) : AnswerHolds P (portWrite s k) := by
  unfold Machine.portWrite
  split
  · exact refused _
  · split
    · exact refused _
    · exact hk

theorem portRead {k : Answered} (hs : P s) (hk : AnswerHolds P k) : AnswerHolds P (portRead s k) := by
  refine whenFree hs ?_
  split
  · exact refused _
  · exact hk

end AnswerHolds

/-- FILL and CLEAR write the frame buffer and nothing else (R84, R150). -/
theorem State.fillBuffer_ok {v : Byte} {s t : State} (h : s.fillBuffer v = .ok t) :
    ∃ fb, t = { s with master := { s.master with fb := fb } } := by
  unfold State.fillBuffer at h
  split at h
  · cases h
  · cases h
    exact ⟨_, rfl⟩

namespace KeptByOperations

variable {P : State → Prop} {s : State} (hP : KeptByOperations P)
include hP

theorem performAll (as : List Action) (hs : P s) : (performAll as s).Holds P :=
  performAll_holds (fun a _ => hP.perform a) hs

theorem finish {f : Flow} (r : Result) (hf : f.Holds P) : AnswerHolds P (f.finish r) :=
  fun _ ht => hf.finish ht hP.giveBack hP.takeException hP.hang

theorem runInternal (as : List Action) (hs : P s) : AnswerHolds P (runInternal as s) := by
  refine .whenFree hs ?_
  split
  · exact hP.finish _ (hP.performAll as hs)
  · exact .refused _

theorem renderBody (hs : P s) : (renderBody s).Holds P := by
  unfold Machine.renderBody
  split
  · trivial
  · split
    · trivial
    · exact hP.performAll _ hs

theorem execInit (hs : P s) : AnswerHolds P (execInit s) := by
  refine .whenFree hs ?_
  split
  · split
    · exact hP.finish _ (hP.performAll _ hs)
    · exact .refused _
  · exact .refused _

theorem execWcmd (b : Int) (a : Option Int) (hs : P s) : AnswerHolds P (execWcmd b a s) := by
  refine .whenFree hs ?_
  split
  · exact .refused _
  · exact hP.runInternal _ hs

theorem execWbuf (bs : List Int) (hs : P s) : AnswerHolds P (execWbuf bs s) := by
  refine .whenFree hs ?_
  split
  · exact .refused _
  · exact .refused _
  · exact hP.runInternal _ hs

theorem execRender (hs : P s) : AnswerHolds P (execRender s) := by
  refine .whenFree hs ?_
  split
  · exact .refused _
  · exact hP.finish _ (hP.renderBody hs)

theorem execClear (hs : P s) : AnswerHolds P (execClear s) := by
  refine .whenFree hs ?_
  split
  · exact .refused _
  · split
    · exact .answer _
    · next t ht =>
      obtain ⟨fb, rfl⟩ := State.fillBuffer_ok ht
      exact hP.finish _ (hP.renderBody (hP.writeBuffer s fb hs))

theorem execFill (c : Int) (hs : P s) : AnswerHolds P (execFill c s) := by
  refine .portWrite ?_
  split
  · split
    · exact .answer _
    · next t ht =>
      obtain ⟨fb, rfl⟩ := State.fillBuffer_ok ht
      exact .next (hP.giveBack _ _ (hP.writeBuffer s fb hs))
  · exact .refused _

theorem execPset (x y c : Int) (hs : P s) : AnswerHolds P (execPset x y c s) := by
  refine .portWrite ?_
  split
  · exact .answer _
  · split
    · split
      · exact .answer _
      · exact .next (hP.giveBack _ _ (hP.writeBuffer s _ hs))
    · exact .refused _

theorem execPget (x y : Int) (hs : P s) : AnswerHolds P (execPget x y s) := by
  refine .portRead hs ?_
  split
  · exact .answer _
  · split
    · exact .answer _
    · exact .next (hP.giveBack s _ hs)

theorem execFbwrite (i : Int) (v : Byte) (hs : P s) : AnswerHolds P (execFbwrite i v s) := by
  refine .portWrite ?_
  split
  · exact .answer _
  · split
    · exact .next (hP.giveBack _ _ (hP.writeBuffer s _ hs))
    · exact .refused _

theorem execRawbytes (hs : P s) : AnswerHolds P (execRawbytes s) := by
  refine .portRead hs ?_
  split
  · exact .answer _
  · split
    · exact .answer _
    · exact .next (hP.giveBack s _ hs)

/-- What the shared operations keep, every instruction other than CONSTRUCT keeps. -/
theorem exec {i : Instr} (hi : ∀ w h pins, i ≠ .construct w h pins) (hs : P s) : AnswerHolds P (exec i s) := by
  cases i with
  | displayOff | setContrast | setPrecharge | setVcomh | setStartLine0 | setDisplayOffset | setClockDiv | setComPins
  | segRemapNormal | comScanNormal | setMuxRatio | setAddrMode | entireDisplayResume | inverseOff | displayOn
  | setColumnAddr | setPageAddr | data | reset => exact hP.runInternal _ hs
  | construct w h pins => exact absurd rfl (hi w h pins)
  | init => exact hP.execInit hs
  | wcmd b a => exact hP.execWcmd b a hs
  | wbuf bs => exact hP.execWbuf bs hs
  | render => exact hP.execRender hs
  | clear => exact hP.execClear hs
  | fill c => exact hP.execFill c hs
  | pset x y c => exact hP.execPset x y c hs
  | pget x y => exact hP.execPget x y hs
  | fbwrite k v => exact hP.execFbwrite k v hs
  | rawbytes => exact hP.execRawbytes hs

end KeptByOperations

/-! ## The lifecycle (R10) -/

theorem perform_sameHost (a : Action) (s : State) : (perform a s).Holds (fun t => State.SameHost s t) := by
  have h := performAll_sameHost [a] s
  rw [performAll_cons] at h
  cases hp : perform a s <;> simpa [hp] using h

/-- Only the end of CONSTRUCT writes the lifecycle, so every shared operation keeps it. -/
theorem keptByOperations_life (l : Life) : KeptByOperations (fun s => s.master.life = l) where
  perform a s hs := (perform_sameHost a s).mono (fun _ ht => ht.life.trans hs)
  giveBack _ _ hs := hs
  takeException _ _ hs := hs
  hang _ hs := hs
  writeBuffer _ _ hs := hs

/-- How CONSTRUCT answers a next state: stuck before it began, ended by its checks, or run to the end of its body (R80, R81, R163). -/
theorem execConstruct_next {w h : Int} {pins : PinAssignment} {s t : State} (he : execConstruct w h pins s = .next t) :
    s.hung = true ∧ t = s ∨
    s.hung = false ∧ s.master.life = .uninit ∧
      ((∃ cause arg, t = s.takeException (.configError cause arg)) ∨
        (constructBody w.toNat h.toNat s).finish .unit = .next t) := by
  cases hh : s.hung with
  | true =>
    rw [execConstruct, whenFree_hung _ hh] at he
    cases he
    exact .inl ⟨rfl, rfl⟩
  | false =>
    rw [execConstruct, whenFree_free _ hh] at he
    split at he
    · cases he
    · next hlife =>
      refine .inr ⟨rfl, hlife, ?_⟩
      split at he
      · next cause arg _ =>
        cases he
        exact .inl ⟨cause, arg, rfl⟩
      · split at he
        · cases he
        · exact .inr he

/-- A body of CONSTRUCT that ran to its end and returned left the block Init; one that raised or hangs left the lifecycle (R80, R10). -/
theorem constructBody_finish_life {w h : Nat} {s t : State} (hf : (constructBody w h s).finish .unit = .next t) :
    t.master.life = .init ∧ t.outcome = some (.returned .unit) ∨
    t.master.life = s.master.life ∧ t.outcome ≠ some (.returned .unit) := by
  rw [constructBody_eq] at hf
  have hk := (keptByOperations_life s.master.life).performAll
    (bringUpActions s.params w h ++ renderActions s.params w h (List.replicate (bufferSize w h) 0))
    (s := s.allocate w h) rfl
  revert hk hf
  generalize performAll _ (s.allocate w h) = f
  intro hf hk
  cases f with
  | run u =>
    cases hf
    exact .inl ⟨rfl, rfl⟩
  | raised x u =>
    cases hf
    exact .inr ⟨hk, by simp⟩
  | hung u =>
    cases hf
    exact .inr ⟨hk, by simp⟩
  | stop e => exact absurd hf (AnswerHolds.answer (P := fun _ => False) e t)

/-- CONSTRUCT leaves the block Init exactly if it was, or if a free block's call returned (R10). -/
theorem execConstruct_life {w h : Int} {pins : PinAssignment} {s t : State} (he : execConstruct w h pins s = .next t) :
    t.master.life = .init ↔ s.master.life = .init ∨ (s.hung = false ∧ t.outcome = some (.returned .unit)) := by
  obtain ⟨hh, rfl⟩ | ⟨hh, hl, ⟨cause, arg, rfl⟩ | hf⟩ := execConstruct_next he
  · simp [hh]
  · simp [hl]
  · obtain ⟨ht, ho⟩ | ⟨ht, ho⟩ := constructBody_finish_life hf
    · simp [hh, ht, ho]
    · simp [hl, ht, ho]

/-- Settles O55: CONSTRUCT writes the lifecycle exactly where it returns, every other instruction keeps it. -/
theorem lifecycleRule : Obligations.LifecycleRule := by
  refine ⟨rfl, fun i s t he => ?_⟩
  by_cases hc : ∃ w h pins, i = .construct w h pins
  · obtain ⟨w, h, pins, rfl⟩ := hc
    simpa using execConstruct_life (pins := pins) he
  · have hl : t.master.life = s.master.life :=
      (keptByOperations_life _).exec (fun w h pins hi => hc ⟨w, h, pins, hi⟩) rfl t he
    simp [hl, hc]

end Sys2Proof.Machine
end

section
/-! ## What a list of events leaves of the lines and adds to the trace -/

namespace Sys2Proof.Machine

/-- The control line an event drives, if it drives one (R8). -/
def Event.line : Event → Option Pin
  | .pinCfg p _ => some p
  | .pin p _ => some p
  | .wait _ => none
  | .tx _ => none

/-- A completed event leaves every line it does not drive (R166). -/
theorem State.deliver_pin_other {e : Event} {q : Pin} {s t : State} (he : e.line ≠ some q) (h : s.deliver e = .ok t) :
    t.master.pins.get q = s.master.pins.get q := by
  cases e with
  | wait us =>
    cases h
    rfl
  | tx bs =>
    rw [State.deliver] at h
    split at h <;> cases h
    rfl
  | pin p v | pinCfg p v =>
    have hq : q ≠ p := fun hqp => he (congrArg some hqp.symm)
    rw [State.deliver] at h
    split at h <;> cases h
    exact Pins.get_set_other _ hq

/-- A failed event leaves every line it was not to drive (R168). -/
theorem State.deliverFailed_pin_other {e : Event} {q : Pin} {drawn : List Bool} {s t : State} (he : e.line ≠ some q)
    (h : s.deliverFailed e drawn = .ok t) : t.master.pins.get q = s.master.pins.get q := by
  cases e with
  | wait us =>
    cases h
    rfl
  | tx bs =>
    rw [State.deliverFailed] at h
    split at h <;> cases h
    rfl
  | pin p v | pinCfg p v =>
    have hq : q ≠ p := fun hqp => he (congrArg some hqp.symm)
    cases h
    exact Pins.get_set_other _ hq

/-- What holds after the event completed, after it failed and after it hung holds whatever becomes of it (R166). -/
theorem emit_holds {P : State → Prop} {e : Event} {s : State}
    (hok : ∀ t, (s.popAnswer.record e .ok).deliver e = .ok t → P t)
    (hfail : ∀ drawn t, (s.popAnswer.record e .fail).deliverFailed e drawn = .ok t → P t)
    (hhang : P (s.popAnswer.record e .hang)) : (emit e s).Holds P := by
  cases he : emit e s with
  | run t => exact hok t (emit_run.mp he).2
  | raised x t =>
    obtain ⟨-, drawn, -, hd⟩ := emit_raised.mp he
    exact hfail drawn t hd
  | hung t =>
    obtain ⟨-, rfl⟩ := emit_hung.mp he
    exact hhang
  | stop e => trivial

/-- Whatever becomes of one element, it leaves every line that its event does not drive (R166, R168). -/
theorem perform_pin_other {a : Action} {q : Pin} (ha : ∀ e, a.Emits e → e.line ≠ some q) (s : State) :
    (perform a s).Holds (fun t => t.master.pins.get q = s.master.pins.get q) := by
  cases a with
  | hold k => rfl
  | event e =>
    have he : e.line ≠ some q := ha e rfl
    exact emit_holds (fun _ => State.deliver_pin_other he) (fun _ _ => State.deliverFailed_pin_other he) rfl

/-- Whatever becomes of an event list, it leaves every line that none of its events drives. -/
theorem performAll_pin_other {as : List Action} {q : Pin} (has : ∀ a ∈ as, ∀ e, a.Emits e → e.line ≠ some q) (s : State) :
    (performAll as s).Holds (fun t => t.master.pins.get q = s.master.pins.get q) :=
  performAll_holds (P := fun t => t.master.pins.get q = s.master.pins.get q)
    (fun a ha t ht => (perform_pin_other (has a ha) t).mono fun _ hu => hu.trans ht) rfl

/-- Whatever becomes of one element, it adds one entry to the trace, of its own event (R18, R166). -/
theorem perform_trace (a : Action) (s : State) :
    (perform a s).Holds (fun t => ∃ x : TraceEntry, a.Emits x.event ∧ t.trace = s.trace ++ [x]) := by
  cases a with
  | hold k => exact ⟨⟨_, .ok⟩, ⟨_, Nat.le_add_right k s.nextExcess, rfl⟩, rfl⟩
  | event e =>
    exact emit_holds (fun t hd => ⟨⟨e, .ok⟩, rfl, (State.deliver_frame hd).2.1⟩)
      (fun _ t hd => ⟨⟨e, .fail⟩, rfl, (State.deliverFailed_frame hd).2.1⟩) ⟨⟨e, .hang⟩, rfl, rfl⟩

/-- Whatever becomes of an event list, the entries it adds to the trace are of its own events (R17, R18). -/
theorem performAll_trace (as : List Action) (s : State) :
    (performAll as s).Holds (fun t => ∃ es, t.trace = s.trace ++ es ∧ ∀ x ∈ es, ∃ a ∈ as, a.Emits x.event) := by
  refine performAll_holds (P := fun t => ∃ es, t.trace = s.trace ++ es ∧ ∀ x ∈ es, ∃ a ∈ as, a.Emits x.event)
    (fun a ha t ht => ?_) ⟨[], by simp⟩
  obtain ⟨es, htrace, hes⟩ := ht
  refine (perform_trace a t).mono fun u ⟨x, hx, hu⟩ => ⟨es ++ [x], by rw [hu, htrace, List.append_assoc], fun y hy => ?_⟩
  rcases List.mem_append.mp hy with hy | hy
  · exact hes y hy
  · exact ⟨a, ha, List.mem_singleton.mp hy ▸ hx⟩

/-! ## RESET (R90, R93) -/

/-- The reset pulse emits writes of the reset line and waits (R90). -/
theorem resetPulse_emits {a : Action} {e : Event} (ha : a ∈ resetPulse) (he : a.Emits e) :
    (∃ v, e = .pin .res v) ∨ ∃ d, e = .wait d := by
  cases a with
  | hold k =>
    obtain ⟨d, -, rfl⟩ := he
    exact .inr ⟨d, rfl⟩
  | event e' =>
    obtain rfl : e = e' := he
    have hpulse : e = .pin .res true ∨ e = .pin .res false ∨ e = .pin .res true := by simpa [resetPulse] using ha
    obtain rfl | rfl | rfl := hpulse <;> exact .inl ⟨_, rfl⟩

/-- Of the lines the reset pulse drives only the reset line. -/
theorem resetPulse_line {q : Pin} (hq : q ≠ .res) : ∀ a ∈ resetPulse, ∀ e, a.Emits e → e.line ≠ some q := by
  intro a ha e he
  obtain ⟨v, rfl⟩ | ⟨d, rfl⟩ := resetPulse_emits ha he
  · exact fun h => hq (Option.some.inj h).symm
  · exact nofun

/-- What rule R93 lets RESET do between a state and the next one. -/
def State.MovesResetLineOnly (s t : State) : Prop :=
  t.master.pins.cs = s.master.pins.cs ∧ t.master.pins.dc = s.master.pins.dc ∧ t.master.fb = s.master.fb ∧
  t.master.width = s.master.width ∧ t.master.height = s.master.height ∧ t.master.life = s.master.life ∧
  ∃ es, t.trace = s.trace ++ es ∧ ∀ x ∈ es, (∃ v, x.event = .pin .res v) ∨ ∃ d, x.event = .wait d

theorem State.MovesResetLineOnly.refl (s : State) : s.MovesResetLineOnly s :=
  ⟨rfl, rfl, rfl, rfl, rfl, rfl, [], by simp⟩

/-- However the reset pulse ends, it moved the reset line only. -/
theorem resetPulse_movesResetLineOnly (s : State) : (performAll resetPulse s).Holds s.MovesResetLineOnly := by
  have hcs := performAll_pin_other (resetPulse_line (q := .cs) (by decide)) s
  have hdc := performAll_pin_other (resetPulse_line (q := .dc) (by decide)) s
  have hhost := performAll_sameHost resetPulse s
  have htrace := performAll_trace resetPulse s
  refine (((hcs.and hdc).and hhost).and htrace).mono fun t ⟨⟨⟨hcs, hdc⟩, hhost⟩, es, htrace, hes⟩ =>
    ⟨hcs, hdc, hhost.fb, hhost.width, hhost.height, hhost.life, es, htrace, fun x hx => ?_⟩
  obtain ⟨a, ha, hax⟩ := hes x hx
  exact resetPulse_emits ha hax

/-- Settles O31: RESET is the reset pulse, and the end of an operation touches neither the master nor the trace. -/
theorem resetLeavesTheMaster : Obligations.ResetLeavesTheMaster := by
  intro s t he
  obtain ⟨rfl, -⟩ | ⟨-, -, hf⟩ := runInternal_next he
  · exact State.MovesResetLineOnly.refl _
  · exact (resetPulse_movesResetLineOnly s).finish hf (fun _ _ h => h) (fun _ _ h => h) (fun _ h => h)

end Sys2Proof.Machine
end

section
/-! ## Every transmission stands in a frame (R110) -/

namespace Sys2Proof.Machine

/-! ### The entries an event list adds to the trace, by position -/

/-- The entries that a list of elements can add to the trace: entry by entry they are of the list's own events, in its order, and
every one but the last completed (R57, R166). -/
def EntriesOf (as : List Action) (es : List TraceEntry) : Prop :=
  ∀ k x, es[k]? = some x → (∃ a, as[k]? = some a ∧ a.Emits x.event) ∧ (k + 1 < es.length → x.outcome = .ok)

namespace EntriesOf

variable {a : Action} {as : List Action} {es : List TraceEntry}

theorem nil (as : List Action) : EntriesOf as [] := nofun

theorem last {x : TraceEntry} (as : List Action) (hx : a.Emits x.event) : EntriesOf (a :: as) [x] := by
  intro k y hk
  cases k with
  | zero =>
    cases hk
    exact ⟨⟨a, rfl, hx⟩, fun h => absurd h (Nat.lt_irrefl 1)⟩
  | succ k => cases hk

theorem cons {e : Event} (he : a.Emits e) (hes : EntriesOf as es) : EntriesOf (a :: as) (⟨e, .ok⟩ :: es) := by
  intro k y hk
  cases k with
  | zero =>
    cases hk
    exact ⟨⟨a, rfl, he⟩, fun _ => rfl⟩
  | succ k =>
    obtain ⟨hemits, hok⟩ := hes k y hk
    exact ⟨hemits, fun h => hok (Nat.lt_of_succ_lt_succ h)⟩

/-- An event that others follow has completed. -/
theorem completed {e : Event} {k : Nat} (hes : EntriesOf as es) (ha : as[k]? = some (.event e)) (hk : k + 1 < es.length) :
    es[k]? = some ⟨e, .ok⟩ := by
  obtain ⟨x, hx⟩ : ∃ x, es[k]? = some x := ⟨_, List.getElem?_eq_getElem (by omega)⟩
  obtain ⟨⟨b, hb, hemits⟩, hok⟩ := hes k x hx
  cases ha.symm.trans hb
  have hevent : x.event = e := hemits
  rw [hx, ← hevent, ← hok hk]

end EntriesOf

/-- However an event list ends, the entries it adds to the trace are those of its events up to there (R57, R163, R167). -/
theorem performAll_entriesOf (as : List Action) (s : State) :
    (performAll as s).Holds (fun t => ∃ es, t.trace = s.trace ++ es ∧ EntriesOf as es) := by
  induction as generalizing s with
  | nil => exact ⟨[], (List.append_nil _).symm, .nil []⟩
  | cons a as ih =>
    have hone := perform_trace a s
    rw [performAll_cons]
    cases ha : perform a s with
    | run u =>
      obtain ⟨-, e, he, hu⟩ := perform_run ha
      exact (ih u).mono fun t ⟨es, ht, hes⟩ => ⟨⟨e, .ok⟩ :: es, by simp [ht, hu], .cons he hes⟩
    | raised x u | hung u =>
      rw [ha] at hone
      obtain ⟨y, hy, hu⟩ := hone
      exact ⟨[y], hu, .last as hy⟩
    | stop e => trivial

/-! ### Event lists whose transmissions stand in frames (R65) -/

/-- Every transmission of the event list follows the level of data/command-select and chip-select low, has bytes, one if that level
is low, and chip-select high follows it (R65, R108, R110). -/
def FramedActions (as : List Action) : Prop :=
  ∀ k bs, as[k]? = some (.event (.tx bs)) →
    ∃ j v, k = j + 2 ∧ as[j]? = some (.event (.pin .dc v)) ∧ as[j + 1]? = some (.event (.pin .cs false)) ∧
      bs ≠ [] ∧ (v = false → bs.length = 1) ∧ as[k + 1]? = some (.event (.pin .cs true))

namespace FramedActions

theorem of_no_tx {as : List Action} (h : ∀ bs, .event (.tx bs) ∉ as) : FramedActions as :=
  fun _ bs hk => absurd (List.mem_of_getElem? hk) (h bs)

theorem append {as bs : List Action} (ha : FramedActions as) (hb : FramedActions bs) : FramedActions (as ++ bs) := by
  intro k xs hk
  by_cases hlt : k < as.length
  · rw [List.getElem?_append_left hlt] at hk
    obtain ⟨j, v, rfl, hdc, hcs, hne, hlen, hup⟩ := ha k xs hk
    obtain ⟨hlt', -⟩ := List.getElem?_eq_some_iff.mp hup
    refine ⟨j, v, rfl, ?_, ?_, hne, hlen, ?_⟩ <;> rw [List.getElem?_append_left (by omega)] <;> assumption
  · obtain ⟨i, rfl⟩ := Nat.exists_eq_add_of_le (Nat.le_of_not_lt hlt)
    have hright : ∀ n, (as ++ bs)[as.length + n]? = bs[n]? := fun n => by
      rw [List.getElem?_append_right (Nat.le_add_right _ _), Nat.add_sub_cancel_left]
    rw [hright] at hk
    obtain ⟨j, v, rfl, hdc, hcs, hne, hlen, hup⟩ := hb i xs hk
    exact ⟨as.length + j, v, rfl, (hright j).trans hdc, (hright (j + 1)).trans hcs, hne, hlen, (hright (j + 3)).trans hup⟩

theorem commandFrame (b : Byte) : FramedActions ((commandFrame b).map .event) := by
  intro k xs hk
  match k with
  | 0 | 1 | 3 => cases hk
  | 2 =>
    cases hk
    exact ⟨0, false, rfl, rfl, rfl, List.cons_ne_nil _ _, fun _ => rfl, rfl⟩
  | _ + 4 => cases hk

theorem burstFrame {bytes : List Byte} (hne : bytes ≠ []) : FramedActions (burstFrame bytes) := by
  intro k xs hk
  match k with
  | 0 | 1 | 2 | 4 => cases hk
  | 3 =>
    cases hk
    exact ⟨1, true, rfl, rfl, rfl, hne, nofun, rfl⟩
  | _ + 5 => cases hk

theorem commandFrames (bytes : List Byte) : FramedActions (commandFrames bytes) := by
  induction bytes with
  | nil => exact of_no_tx (by simp [Machine.commandFrames])
  | cons b bytes ih =>
    have hcons : Machine.commandFrames (b :: bytes) = (Machine.commandFrame b).map .event ++ Machine.commandFrames bytes := by
      simp [Machine.commandFrames]
    rw [hcons]
    exact (commandFrame b).append ih

theorem resetPulse : FramedActions resetPulse := of_no_tx (by simp [Machine.resetPulse])

theorem renderActions (P : Params) (w h : Nat) {content : List Byte} (hne : content ≠ []) :
    FramedActions (renderActions P w h content) :=
  (commandFrames _).append (burstFrame hne)

theorem bringUpActions (P : Params) (w h : Nat) : FramedActions (bringUpActions P w h) :=
  ((of_no_tx (by simp)).append resetPulse).append (commandFrames _)

end FramedActions

/-! ### What an operation adds to the trace is framed -/

/-- Every transmission among the entries stands in a frame, where the entries may end inside it (R110). -/
def FramedEntries (es : List TraceEntry) : Prop :=
  ∀ k bs o, es[k]? = some ⟨.tx bs, o⟩ →
    ∃ j v, k = j + 2 ∧ es[j]? = some ⟨.pin .dc v, .ok⟩ ∧ es[j + 1]? = some ⟨.pin .cs false, .ok⟩ ∧
      bs ≠ [] ∧ (v = false → bs.length = 1) ∧ ∀ x, es[k + 1]? = some x → x.event = .pin .cs true

theorem Action.emits_tx {a : Action} {bs : List Byte} (h : a.Emits (.tx bs)) : a = .event (.tx bs) := by
  cases a with
  | event e => exact congrArg Action.event h.symm
  | hold k =>
    obtain ⟨d, -, hd⟩ := h
    cases hd

/-- Wherever a framed event list stops, the events it emitted are framed: those before a transmission completed. -/
theorem EntriesOf.framed {as : List Action} {es : List TraceEntry} (hes : EntriesOf as es) (has : FramedActions as) :
    FramedEntries es := by
  intro k bs o hk
  obtain ⟨⟨a, ha, hemits⟩, -⟩ := hes k _ hk
  obtain rfl := Action.emits_tx hemits
  obtain ⟨j, v, rfl, hdc, hcs, hne, hlen, hup⟩ := has k bs ha
  obtain ⟨hlt, -⟩ := List.getElem?_eq_some_iff.mp hk
  refine ⟨j, v, rfl, hes.completed hdc (by omega), hes.completed hcs hlt, hne, hlen, fun x hx => ?_⟩
  obtain ⟨⟨b, hb, hx⟩, -⟩ := hes _ x hx
  cases hup.symm.trans hb
  exact hx

/-- What the trace gained from the first state to the second is framed. -/
def State.FramedTo (s t : State) : Prop := ∃ es, t.trace = s.trace ++ es ∧ FramedEntries es

theorem State.FramedTo.of_trace_eq {s t : State} (h : t.trace = s.trace) : s.FramedTo t :=
  ⟨[], by rw [h, List.append_nil], nofun⟩

theorem State.FramedTo.refl (s : State) : s.FramedTo s := .of_trace_eq rfl

theorem performAll_framed {as : List Action} (has : FramedActions as) (s : State) : (performAll as s).Holds s.FramedTo :=
  (performAll_entriesOf as s).mono fun _ ⟨es, ht, hes⟩ => ⟨es, ht, hes.framed has⟩

/-- The end of an operation adds nothing to the trace (R16, R163, R167). -/
theorem Flow.Holds.finish_framed {s : State} {f : Flow} (hf : f.Holds s.FramedTo) (r : Result) :
    AnswerHolds s.FramedTo (f.finish r) :=
  fun _ ht => hf.finish ht (fun _ _ h => h) (fun _ _ h => h) (fun _ h => h)

theorem runInternal_framed {as : List Action} (has : FramedActions as) (s : State) :
    AnswerHolds s.FramedTo (runInternal as s) := by
  refine .whenFree (.refl s) ?_
  split
  · exact (performAll_framed has s).finish_framed _
  · exact .refused _

/-! ### The operations of the framer and the sequencer -/

theorem execInit_framed (s : State) : AnswerHolds s.FramedTo (execInit s) := by
  refine .whenFree (.refl s) ?_
  split
  · split
    · exact (performAll_framed (.commandFrames _) s).finish_framed _
    · exact .refused _
  · exact .refused _

theorem execWcmd_framed (b : Int) (a : Option Int) (s : State) : AnswerHolds s.FramedTo (execWcmd b a s) := by
  refine .whenFree (.refl s) ?_
  split
  · exact .refused _
  · exact runInternal_framed (.commandFrames _) s

theorem execWbuf_framed (bs : List Int) (s : State) : AnswerHolds s.FramedTo (execWbuf bs s) := by
  refine .whenFree (.refl s) ?_
  split
  · exact .refused _
  · exact .refused _
  · exact runInternal_framed (.burstFrame (List.cons_ne_nil _ _)) s

/-! ### CONSTRUCT, RENDER and CLEAR: the burst is not empty -/

/-- A geometry that CONSTRUCT accepts is a legal one (R81, R82). -/
theorem geometryOk_of_checks {P : Params} {w h : Int} (hg : geometryError w h = none) (hr : exceedsRam P w h ≠ true) :
    GeometryOk P w.toNat h.toNat := by
  unfold geometryError at hg
  simp only [exceedsRam, ne_eq, decide_eq_true_eq] at hr
  split at hg
  · cases hg
  · split at hg
    · cases hg
    · split at hg
      · cases hg
      · unfold GeometryOk
        omega

/-- The geometry registers of a block that keeps the invariant hold a legal geometry (R11). -/
theorem State.Inv.geometryOk {s : State} {w h : Nat} (hs : s.Inv) (hg : s.geometry = .ok (w, h)) : GeometryOk s.params w h := by
  obtain ⟨⟨-, hw, hh, -⟩ | ⟨w', h', hw, hh, hok, -⟩, -, -⟩ := hs
  · simp [State.geometry, hw] at hg
  · simp only [State.geometry, hw, hh, Except.ok.injEq, Prod.mk.injEq] at hg
    obtain ⟨rfl, rfl⟩ := hg
    exact hok

theorem State.fbBytes_length {n : Nat} {s : State} {content : List Byte} (h : s.fbBytes n = .ok content) : content.length = n := by
  unfold State.fbBytes at h
  split at h
  · next bs hbs =>
    cases h
    exact (Memory.readRange_eq_some.mp hbs).1
  · cases h

theorem renderBody_framed {s : State} (hs : ∀ w h, s.geometry = .ok (w, h) → GeometryOk s.params w h) :
    (renderBody s).Holds s.FramedTo := by
  unfold renderBody
  split
  · trivial
  · next w h hg =>
    split
    · trivial
    · next content hc =>
      have hpos : 0 < content.length := State.fbBytes_length hc ▸ bufferSize_pos (hs w h hg)
      exact performAll_framed (.renderActions _ _ _ (List.ne_nil_of_length_pos hpos)) s

theorem execRender_framed {s : State} (hs : s.Inv) : AnswerHolds s.FramedTo (execRender s) := by
  refine .whenFree (.refl s) ?_
  split
  · exact .refused _
  · exact (renderBody_framed fun _ _ => hs.geometryOk).finish_framed _

/-- CLEAR's write of the buffer leaves the geometry and the trace. -/
theorem execClear_framed {s : State} (hs : s.Inv) : AnswerHolds s.FramedTo (execClear s) := by
  refine .whenFree (.refl s) ?_
  split
  · exact .refused _
  · split
    · exact .answer _
    · next t ht =>
      obtain ⟨fb, rfl⟩ := State.fillBuffer_ok ht
      have hbody := renderBody_framed (s := { s with master := { s.master with fb := fb } }) fun _ _ => hs.geometryOk
      exact hbody.finish_framed (s := s) _

theorem constructBody_framed {w h : Nat} {s : State} (hg : GeometryOk s.params w h) : (constructBody w h s).Holds s.FramedTo := by
  have hne : List.replicate (bufferSize w h) (0 : Byte) ≠ [] :=
    List.ne_nil_of_length_pos (by simpa using bufferSize_pos hg)
  have hframed := (FramedActions.bringUpActions s.params w h).append (.renderActions s.params w h hne)
  rw [constructBody_eq]
  exact (show Flow.Holds s.FramedTo _ from performAll_framed hframed (s.allocate w h)).andThen fun _ ht => ht

theorem execConstruct_framed (w h : Int) (pins : PinAssignment) (s : State) :
    AnswerHolds s.FramedTo (execConstruct w h pins s) := by
  refine .whenFree (.refl s) ?_
  split
  · exact .refused _
  · split
    · exact .next (.of_trace_eq rfl)
    · next hg =>
      split
      · exact .refused _
      · next hr => exact (constructBody_framed (geometryOk_of_checks hg hr)).finish_framed _

/-! ### The frame-store port emits nothing -/

/-- What a frame-store operation that answers a next state can do: nothing, on a stuck master, or write the buffer and return. -/
def State.PortTo (s t : State) : Prop :=
  t = s ∨ ∃ fb r, t = State.giveBack r { s with master := { s.master with fb := fb } }

theorem State.PortTo.returned (s : State) (r : Result) : s.PortTo (s.giveBack r) := .inr ⟨s.master.fb, r, rfl⟩

theorem State.PortTo.trace {s t : State} (h : s.PortTo t) : t.trace = s.trace := by
  obtain rfl | ⟨fb, r, rfl⟩ := h <;> rfl

section FrameStore

variable {s : State}

theorem execFill_portTo (c : Int) : AnswerHolds s.PortTo (execFill c s) := by
  refine .portWrite ?_
  split
  · split
    · exact .answer _
    · next t ht =>
      obtain ⟨fb, rfl⟩ := State.fillBuffer_ok ht
      exact .next (.inr ⟨fb, .unit, rfl⟩)
  · exact .refused _

theorem execPset_portTo (x y c : Int) : AnswerHolds s.PortTo (execPset x y c s) := by
  refine .portWrite ?_
  split
  · exact .answer _
  · split
    · split
      · exact .answer _
      · exact .next (.inr ⟨_, .unit, rfl⟩)
    · exact .refused _

theorem execPget_portTo (x y : Int) : AnswerHolds s.PortTo (execPget x y s) := by
  refine .portRead (.inl rfl) ?_
  split
  · exact .answer _
  · split
    · exact .answer _
    · exact .next (.returned s _)

theorem execFbwrite_portTo (i : Int) (v : Byte) : AnswerHolds s.PortTo (execFbwrite i v s) := by
  refine .portWrite ?_
  split
  · exact .answer _
  · split
    · exact .next (.inr ⟨_, .unit, rfl⟩)
    · exact .refused _

theorem execRawbytes_portTo : AnswerHolds s.PortTo (execRawbytes s) := by
  refine .portRead (.inl rfl) ?_
  split
  · exact .answer _
  · split
    · exact .answer _
    · exact .next (.returned s _)

end FrameStore

theorem AnswerHolds.framed_of_port {s : State} {r : Answered} (h : AnswerHolds s.PortTo r) : AnswerHolds s.FramedTo r :=
  fun t ht => .of_trace_eq (h t ht).trace

/-- Every instruction is an event list of frames, or emits nothing. -/
theorem exec_framed (i : Instr) {s : State} (hs : s.Inv) : AnswerHolds s.FramedTo (exec i s) := by
  cases i with
  | displayOff | setContrast | setPrecharge | setVcomh | setStartLine0 | setDisplayOffset | setClockDiv | setComPins
  | segRemapNormal | comScanNormal | setMuxRatio | setAddrMode | entireDisplayResume | inverseOff | displayOn
  | setColumnAddr | setPageAddr => exact runInternal_framed (.commandFrames _) s
  | data b => exact runInternal_framed (.burstFrame (List.cons_ne_nil _ _)) s
  | reset => exact runInternal_framed .resetPulse s
  | construct w h pins => exact execConstruct_framed w h pins s
  | init => exact execInit_framed s
  | wcmd b a => exact execWcmd_framed b a s
  | wbuf bs => exact execWbuf_framed bs s
  | render => exact execRender_framed hs
  | clear => exact execClear_framed hs
  | fill c => exact .framed_of_port (execFill_portTo c)
  | pset x y c => exact .framed_of_port (execPset_portTo x y c)
  | pget x y => exact .framed_of_port (execPget_portTo x y)
  | fbwrite k v => exact .framed_of_port (execFbwrite_portTo k v)
  | rawbytes => exact .framed_of_port execRawbytes_portTo

/-- Settles O29: every event list is made of frames, and wherever it stops, the events before the last one completed. -/
theorem transmissionsAreFramed : Obligations.TransmissionsAreFramed :=
  fun i _ t hs he => exec_framed i hs t he

end Sys2Proof.Machine
end

section
/-! The waits and the levels of chip-select and data/command-select (44_controller_commands.md rules R116, R117). -/

namespace Sys2Proof.Machine

/-- A wait in the low phase of the reset line adds to it (R116). -/
theorem Slave.onWait_inReset {S : Slave} {t : Nat} (d : Nat) (hp : S.phase = .inReset) (ht : S.resLowUs = some t) :
    S.onWait d = { S with resLowUs := some (t + d) } := by
  simp [Slave.onWait, hp, ht]

/-- A wait at any other time leaves the slave as it was (R116). -/
theorem Slave.onWait_other {S : Slave} (d : Nat) (hp : S.phase ≠ .inReset) : S.onWait d = S := by
  cases h : S.phase with
  | inReset => exact absurd h hp
  | unknown | ready => simp [Slave.onWait, h]

/-- The slave keeps no copy of a select line (R117). -/
theorem Slave.onPin_select {p : Pin} (hp : p = .cs ∨ p = .dc) (v : Level) (S : Slave) : S.onPin p v = .ok S := by
  obtain rfl | rfl := hp <;> rfl

/-- A wait that completed touches the slave alone (R116, R166). -/
theorem State.deliver_wait (d : Nat) (s : State) : s.deliver (.wait d) = .ok { s with slave := s.slave.onWait d } := rfl

/-- A line written or configured takes its level, and the slave whatever the line does to it (R115, R117, R166). -/
theorem State.deliver_level {p : Pin} {v : Level} {e : Event} (he : e = .pin p v ∨ e = .pinCfg p v) (s : State) :
    s.deliver e = (s.slave.onPin p v).map
      fun S => { s with master := { s.master with pins := s.master.pins.set p (some v) }, slave := S } := by
  obtain rfl | rfl := he <;> rw [State.deliver] <;> cases s.slave.onPin p v <;> rfl

/-- A transmission that completed gives the slave its bytes at the levels of the wire (R117, R118, R166). -/
theorem State.deliver_tx (bs : List Byte) (s : State) :
    s.deliver (.tx bs) = (s.slave.receive s.master.pins bs).map fun S => { s with slave := S } := by
  rw [State.deliver]
  cases s.slave.receive s.master.pins bs <;> rfl

/-- Settles O13: a wait is the slave's own, a select line is the wire's alone, and a transmission is received off the wire. -/
theorem waitAndSelectLines : Obligations.WaitAndSelectLines := by
  intro s
  refine ⟨fun d t hp ht => ?inReset, fun d hp => ?otherwise, fun p v e hp he => ?select, fun bs => s.deliver_tx bs⟩
  case inReset => rw [State.deliver_wait, Slave.onWait_inReset d hp ht]
  case otherwise => rw [State.deliver_wait, Slave.onWait_other d hp]
  case select =>
    rw [State.deliver_level he, Slave.onPin_select hp]
    rfl

end Sys2Proof.Machine
end

section
/-! ## Only CONSTRUCT's checks raise a configuration error (R161)

Every other instruction writes at most the buffer, performs an event list and ends; what an event list raises is a
TransmissionError. -/

namespace Sys2Proof.Machine

/-! ### An event list raises transmission errors only (R162) -/

/-- The log as it was, or with a TransmissionError at its end. -/
def State.LogsTransmissionOnly (s t : State) : Prop :=
  t.log = s.log ∨ ∃ pos e, t.log = s.log ++ [.exception (.transmissionError pos e)]

theorem State.LogsTransmissionOnly.no_configError {s t : State} (h : s.LogsTransmissionOnly t) (cause : ConfigCause) (arg : Int) :
    t.log ≠ s.log ++ [.exception (.configError cause arg)] := by
  obtain h | ⟨pos, e, h⟩ := h <;> simp [h]

/-- However an operation's event list ends, the master logs at most the failed event (R162, R163, R167). -/
theorem performAll_finish_log {as : List Action} {r : Result} {s t : State} (hf : (performAll as s).finish r = .next t) :
    s.LogsTransmissionOnly t := by
  have hhost := performAll_sameHost as s
  obtain ⟨u, hu, rfl⟩ | ⟨x, u, hu, rfl⟩ | ⟨u, hu, rfl⟩ := Flow.finish_next hf <;> rw [hu] at hhost
  · exact .inl hhost.log
  · obtain ⟨done, e, rest, v, -, -, he⟩ := performAll_raised hu
    obtain ⟨-, rfl, -⟩ := emit_raised_frame he
    exact .inr ⟨v.trace.length, e, by rw [State.takeException_log, hhost.log]⟩
  · exact .inl hhost.log

/-! ### Every instruction other than CONSTRUCT is a write of the buffer and an event list -/

/-- How an instruction other than CONSTRUCT answers a next state: the stuck one it was given, or the end of an event list, performed
after a write of the buffer. -/
def State.OperationTo (s t : State) : Prop :=
  t = s ∨ ∃ fb as r, (performAll as { s with master := { s.master with fb := fb } }).finish r = .next t

theorem State.OperationTo.log {s t : State} (h : s.OperationTo t) : s.LogsTransmissionOnly t := by
  obtain rfl | ⟨fb, as, r, hf⟩ := h
  · exact .inl rfl
  · exact performAll_finish_log (s := { s with master := { s.master with fb := fb } }) hf

/-- An event list alone: the buffer is written with what it holds. -/
theorem performAll_finish_operationTo (as : List Action) (s : State) (r : Result) :
    AnswerHolds s.OperationTo ((performAll as s).finish r) :=
  fun _ ht => .inr ⟨s.master.fb, as, r, ht⟩

/-- The frame-store port performs the empty event list. -/
theorem AnswerHolds.operationTo_of_port {s : State} {k : Answered} (h : AnswerHolds s.PortTo k) : AnswerHolds s.OperationTo k := by
  intro t ht
  obtain rfl | ⟨fb, r, rfl⟩ := h t ht
  · exact .inl rfl
  · exact .inr ⟨fb, [], r, rfl⟩

theorem runInternal_operationTo (as : List Action) (s : State) : AnswerHolds s.OperationTo (runInternal as s) := by
  intro t ht
  obtain ⟨rfl, -⟩ | ⟨-, -, hf⟩ := runInternal_next ht
  · exact .inl rfl
  · exact performAll_finish_operationTo as s _ t hf

/-- The body of RENDER is one event list, unless it stops before any event (R83). -/
theorem renderBody_finish_next {r : Result} {s t : State} (hf : (renderBody s).finish r = .next t) :
    ∃ as, (performAll as s).finish r = .next t := by
  unfold renderBody at hf
  split at hf
  · exact absurd hf (AnswerHolds.answer (P := fun _ => False) _ t)
  · split at hf
    · exact absurd hf (AnswerHolds.answer (P := fun _ => False) _ t)
    · exact ⟨_, hf⟩

theorem execInit_operationTo (s : State) : AnswerHolds s.OperationTo (execInit s) := by
  refine .whenFree (.inl rfl) ?_
  split
  · split
    · exact performAll_finish_operationTo _ s _
    · exact .refused _
  · exact .refused _

theorem execWcmd_operationTo (b : Int) (a : Option Int) (s : State) : AnswerHolds s.OperationTo (execWcmd b a s) := by
  refine .whenFree (.inl rfl) ?_
  split
  · exact .refused _
  · exact runInternal_operationTo _ s

theorem execWbuf_operationTo (bs : List Int) (s : State) : AnswerHolds s.OperationTo (execWbuf bs s) := by
  refine .whenFree (.inl rfl) ?_
  split
  · exact .refused _
  · exact .refused _
  · exact runInternal_operationTo _ s

theorem execRender_operationTo (s : State) : AnswerHolds s.OperationTo (execRender s) := by
  refine .whenFree (.inl rfl) ?_
  split
  · exact .refused _
  · intro t ht
    obtain ⟨as, hf⟩ := renderBody_finish_next ht
    exact performAll_finish_operationTo as s _ t hf

theorem execClear_operationTo (s : State) : AnswerHolds s.OperationTo (execClear s) := by
  refine .whenFree (.inl rfl) ?_
  split
  · exact .refused _
  · split
    · exact .answer _
    · next u hu =>
      obtain ⟨fb, rfl⟩ := State.fillBuffer_ok hu
      intro t ht
      obtain ⟨as, hf⟩ := renderBody_finish_next ht
      exact .inr ⟨fb, as, _, hf⟩

theorem exec_operationTo {i : Instr} (hi : ∀ w h pins, i ≠ .construct w h pins) (s : State) :
    AnswerHolds s.OperationTo (exec i s) := by
  cases i with
  | displayOff | setContrast | setPrecharge | setVcomh | setStartLine0 | setDisplayOffset | setClockDiv | setComPins
  | segRemapNormal | comScanNormal | setMuxRatio | setAddrMode | entireDisplayResume | inverseOff | displayOn
  | setColumnAddr | setPageAddr | data | reset => exact runInternal_operationTo _ s
  | construct w h pins => exact absurd rfl (hi w h pins)
  | init => exact execInit_operationTo s
  | wcmd b a => exact execWcmd_operationTo b a s
  | wbuf bs => exact execWbuf_operationTo bs s
  | render => exact execRender_operationTo s
  | clear => exact execClear_operationTo s
  | fill c => exact .operationTo_of_port (execFill_portTo c)
  | pset x y c => exact .operationTo_of_port (execPset_portTo x y c)
  | pget x y => exact .operationTo_of_port (execPget_portTo x y)
  | fbwrite k v => exact .operationTo_of_port (execFbwrite_portTo k v)
  | rawbytes => exact .operationTo_of_port execRawbytes_portTo

/-! ### CONSTRUCT: its checks, and its body -/

/-- A geometry error names its cause and the argument at fault (R81, R161). -/
theorem geometryError_eq_some {w h arg : Int} {cause : ConfigCause} (hg : geometryError w h = some (cause, arg)) :
    (cause = .widthNonpositive ∧ arg = w ∧ w ≤ 0) ∨ (cause = .heightNonpositive ∧ arg = h ∧ h ≤ 0) ∨
      (cause = .heightNotMultipleOf8 ∧ arg = h ∧ h % 8 ≠ 0) := by
  unfold geometryError at hg
  split at hg
  · next hw =>
    cases hg
    exact .inl ⟨rfl, rfl, hw⟩
  · split at hg
    · next hh =>
      cases hg
      exact .inr (.inl ⟨rfl, rfl, hh⟩)
    · split at hg
      · next h8 =>
        cases hg
        exact .inr (.inr ⟨rfl, rfl, h8⟩)
      · cases hg

/-- The body of CONSTRUCT is one event list; entering `Init` after it logs nothing (R80). -/
theorem constructBody_finish_log {w h : Nat} {s t : State} (hf : (constructBody w h s).finish .unit = .next t) :
    s.LogsTransmissionOnly t := by
  rw [constructBody_eq] at hf
  have hlog := fun u => performAll_finish_log (r := .unit) (t := u) (s := s.allocate w h)
    (as := bringUpActions s.params w h ++ renderActions s.params w h (List.replicate (bufferSize w h) 0))
  revert hf hlog
  generalize performAll _ (s.allocate w h) = f
  intro hf hlog
  cases f with
  | run u =>
    cases hf
    exact hlog (u.giveBack .unit) rfl
  | raised x u | hung u | stop e => exact hlog t hf

section Construct

variable {w h : Int} {pins : PinAssignment} {s : State}

/-- A failed check of a free, unconstructed block's CONSTRUCT is taken as an exception (R81, R161). -/
theorem execConstruct_geometryError {cause : ConfigCause} {arg : Int} (hh : s.hung = false) (hl : s.master.life = .uninit)
    (hg : geometryError w h = some (cause, arg)) :
    execConstruct w h pins s = .next (s.takeException (.configError cause arg)) := by
  simp only [execConstruct, whenFree_free _ hh, hl, hg]

/-- A CONSTRUCT that passed its checks and answers a next state ran its body to an end (R80, R82). -/
theorem execConstruct_geometryOk {t : State} (hh : s.hung = false) (hl : s.master.life = .uninit)
    (hg : geometryError w h = none) (he : execConstruct w h pins s = .next t) :
    (constructBody w.toNat h.toNat s).finish .unit = .next t := by
  simp only [execConstruct, whenFree_free _ hh, hl, hg] at he
  split at he
  · cases he
  · exact he

/-- A CONSTRUCT that logs a configuration error found it by its checks and took it as an exception, and did nothing else (R161). -/
theorem execConstruct_configError {t : State} {cause : ConfigCause} {arg : Int} (he : execConstruct w h pins s = .next t)
    (hlog : t.log = s.log ++ [.exception (.configError cause arg)]) :
    geometryError w h = some (cause, arg) ∧ t = s.takeException (.configError cause arg) := by
  obtain ⟨-, rfl⟩ | ⟨hh, hl, -⟩ := execConstruct_next he
  · simp at hlog
  · cases hg : geometryError w h with
    | none =>
      have hbody := constructBody_finish_log (execConstruct_geometryOk hh hl hg he)
      exact absurd hlog (hbody.no_configError cause arg)
    | some p =>
      obtain ⟨cause', arg'⟩ := p
      rw [execConstruct_geometryError hh hl hg] at he
      cases he
      obtain ⟨rfl, rfl⟩ : cause' = cause ∧ arg' = arg := by simpa using hlog
      exact ⟨rfl, rfl⟩

end Construct

/-- Settles O49: what an event list raises is a TransmissionError, so only the checks of CONSTRUCT log a configuration error. -/
theorem configErrorOnlyFromConstruct : Obligations.ConfigErrorOnlyFromConstruct := by
  intro i s t cause arg he hlog
  by_cases hc : ∃ w h pins, i = .construct w h pins
  · obtain ⟨w, h, pins, rfl⟩ := hc
    obtain ⟨hg, rfl⟩ := execConstruct_configError (pins := pins) he hlog
    exact ⟨rfl, w, h, pins, rfl, geometryError_eq_some hg⟩
  · have hop : s.OperationTo t := exec_operationTo (fun w h pins hi => hc ⟨w, h, pins, hi⟩) s t he
    exact absurd hlog (hop.log.no_configError cause arg)

end Sys2Proof.Machine
end

section
/-! ## The decoder and the encoder agree (30_encoding.md rules R66 to R70, R73, R77, R78) -/

namespace Sys2Proof

/-! ### Controller commands -/

@[simp] theorem encode_c1 (P : Params) (m : C1) : encode P m.toInstr = .command [(Command.c1 m).opcode P] := by
  cases m <;> rfl

@[simp] theorem encode_c2 (P : Params) (m : C2) (a : Byte) : encode P (m.toInstr a) = .command [(Command.c2 m).opcode P, a] := by
  cases m <;> rfl

@[simp] theorem encode_c3 (P : Params) (m : C3) (a b : Byte) :
    encode P (m.toInstr a b) = .command [(Command.c3 m).opcode P, a, b] := by
  cases m <;> rfl

theorem decode_c1 (P : Params) (m : C1) : decode P (.command [(Command.c1 m).opcode P]) = .ok m.toInstr := by
  simp [decode, decodeCommand]

theorem decode_c2 (P : Params) (m : C2) (a : Byte) :
    decode P (.command [(Command.c2 m).opcode P, a]) = .ok (m.toInstr a) := by
  simp [decode, decodeCommand]

theorem decode_c3 (P : Params) (m : C3) (a b : Byte) :
    decode P (.command [(Command.c3 m).opcode P, a, b]) = .ok (m.toInstr a b) := by
  simp [decode, decodeCommand]

/-- What is read from the front of a line of command bytes is encoded as the bytes it took (R73). -/
theorem encode_of_decodeCommand {P : Params} {bytes rest : List Byte} {i : Instr} (h : decodeCommand P bytes = .ok (i, rest)) :
    ∃ front, encode P i = .command front ∧ bytes = front ++ rest := by
  unfold decodeCommand at h
  split at h
  · cases h
  · next b tail =>
    split at h
    · cases h
    · next m hm =>
      cases h
      exact ⟨_, encode_c1 P m, by rw [opcode_of_commandOfOpcode hm]; rfl⟩
    · next m hm =>
      split at h <;> cases h
      exact ⟨_, encode_c2 P m _, by rw [opcode_of_commandOfOpcode hm]; rfl⟩
    · next m hm =>
      split at h <;> cases h
      exact ⟨_, encode_c3 P m _ _, by rw [opcode_of_commandOfOpcode hm]; rfl⟩

/-! ### Host calls -/

theorem toNat_of_asByte {v : Int} {b : Byte} (h : asByte v = some b) : (b.toNat : Int) = v := by
  unfold asByte at h
  split at h
  · next hv =>
    cases h
    simp only [isByte, decide_eq_true_eq] at hv
    rw [BitVec.toNat_ofInt]
    omega
  · cases h

/-- A call that decodes, other than a CONSTRUCT that leaves arguments out, is the encoding of what it decodes to (R77). -/
theorem encode_of_decodeCall (P : Params) {sel : BitVec 4} {args : List Int} {i : Instr} (h : decodeCall sel args = .ok i)
    (hargs : sel = 0x0 → 5 ≤ args.length) : encode P i = .call sel args := by
  have hsel : sel = BitVec.ofNat 4 sel.toNat := by simp
  unfold decodeCall at h
  split at h
  case h_1 h0 | h_2 h0 | h_3 h0 => exact absurd (hargs (BitVec.eq_of_toNat_eq h0)) (by simp)
  case h_16 hcode =>
    split at h <;> cases h
    next b hb =>
      rw [encode, toNat_of_asByte hb, hsel, hcode]
      rfl
  all_goals cases h
  all_goals
    next hcode =>
      rw [hsel, hcode]
      rfl

/-- Settles O1: each format has its own lemma for the decoder, and the byte operand of FBWRITE is read back as the byte it is. -/
theorem encodeThenDecode : Obligations.EncodeThenDecode := by
  intro P i
  cases i with
  | displayOff => exact decode_c1 P .displayOff
  | setStartLine0 => exact decode_c1 P .setStartLine0
  | segRemapNormal => exact decode_c1 P .segRemapNormal
  | comScanNormal => exact decode_c1 P .comScanNormal
  | entireDisplayResume => exact decode_c1 P .entireDisplayResume
  | inverseOff => exact decode_c1 P .inverseOff
  | displayOn => exact decode_c1 P .displayOn
  | setContrast a => exact decode_c2 P .setContrast a
  | setPrecharge a => exact decode_c2 P .setPrecharge a
  | setVcomh a => exact decode_c2 P .setVcomh a
  | setDisplayOffset a => exact decode_c2 P .setDisplayOffset a
  | setClockDiv a => exact decode_c2 P .setClockDiv a
  | setComPins a => exact decode_c2 P .setComPins a
  | setMuxRatio a => exact decode_c2 P .setMuxRatio a
  | setAddrMode a => exact decode_c2 P .setAddrMode a
  | setColumnAddr a b => exact decode_c3 P .setColumnAddr a b
  | setPageAddr a b => exact decode_c3 P .setPageAddr a b
  | construct w h pins =>
    obtain ⟨cs, dc, res, _ | ⟨clock, data⟩⟩ := pins <;> rfl
  | wcmd b a => cases a <;> rfl
  | fbwrite i v => simp [encode, decode, decodeCall, asByte_toNat]
  | data | reset | init | wbuf | render | clear | fill | pset | pget | rawbytes => rfl

/-- Settles O2: what is decoded determines its line, byte by byte for a command and by code and arguments for a call. -/
theorem decodeThenEncode : Obligations.DecodeThenEncode := by
  refine fun P => ⟨fun p i hp hargs => ?inverse, rfl, fun w => rfl, fun w h => rfl, fun args hlen => ?short⟩
  case inverse =>
    cases p with
    | call sel args => exact encode_of_decodeCall P hp (fun h => hargs args (by rw [h]))
    | data b =>
      cases hp
      rfl
    | command bytes =>
      rw [decode] at hp
      split at hp <;> cases hp
      next hc =>
        obtain ⟨front, henc, rfl⟩ := encode_of_decodeCommand hc
        rw [henc, List.append_nil]
  case short =>
    match args, hlen with
    | [_, _, _], _ | [_, _, _, _], _ => rfl

/-- Settles O4: the words of the tables, run through the decoder. -/
theorem specWordsDecode : Obligations.SpecWordsDecode := ⟨rfl, rfl, rfl, rfl, rfl, rfl, rfl, rfl⟩

/-! ### The parameters (R4, R78, R82) -/

theorem ParamSet.check_eq_some {Q : ParamSet} {P : Params} : Q.check = some P ↔ P.toParamSet = Q := by
  unfold ParamSet.check
  constructor
  · intro h
    split at h <;> cases h
    rfl
  · rintro rfl
    exact dif_pos P.legal

/-- Settles O5: the check gives the choice back with the proof that it is legal. -/
theorem parametersLegal : Obligations.ParametersLegal := by
  refine ⟨fun Q => ⟨?legal, fun h => ⟨⟨Q, h⟩, ParamSet.check_eq_some.mpr rfl, rfl⟩⟩, fun Q h => dif_neg h, fun P => rfl, rfl,
    rfl, rfl, rfl, rfl⟩
  case legal =>
    rintro ⟨P, -, rfl⟩
    exact P.legal

end Sys2Proof
end

section
/-! ## What an instruction of a free master does

Said once for all 30 instructions: the checks of CONSTRUCT raise, or the instruction writes the geometry and the buffer, performs one
event list, and ends. -/

namespace Sys2Proof.Machine

/-- The instruction `i`, called in `s`, passed its own checks: from `s₀` it performs the event list `as` and returns `r`. -/
inductive Plan (s : State) : Instr → State → List Action → Result → Prop
  | command {i : Instr} {bytes : List Byte} (henc : encode s.params i = .command bytes) (hne : bytes ≠ []) :
      Plan s i s (commandFrames bytes) .unit
  | data (b : Byte) : Plan s (.data b) s (burstFrame [b]) .unit
  | reset : Plan s .reset s resetPulse .unit
  | init {w h : Nat} : Plan s .init s (commandFrames (initBytes s.params w h)) .unit
  | wcmd {b : Int} {a : Option Int} {bytes : List Byte} (hne : bytes ≠ []) : Plan s (.wcmd b a) s (commandFrames bytes) .unit
  | wbuf {vs : List Int} {bytes : List Byte} (hne : bytes ≠ []) : Plan s (.wbuf vs) s (burstFrame bytes) .unit
  | render {w h : Nat} {content : List Byte} (hg : s.geometry = .ok (w, h)) (hc : s.fbBytes (bufferSize w h) = .ok content) :
      Plan s .render s (renderActions s.params w h content) .unit
  | clear {w h : Nat} (hg : s.geometry = .ok (w, h)) :
      Plan s .clear { s with master := { s.master with fb := Memory.filled (bufferSize w h) 0x00 } }
        (renderActions s.params w h (List.replicate (bufferSize w h) 0x00)) .unit
  | fill (c : Int) {w h : Nat} {v : Byte} (hg : s.geometry = .ok (w, h)) :
      Plan s (.fill c) { s with master := { s.master with fb := Memory.filled (bufferSize w h) v } } [] .unit
  | pset (x y c : Int) {k : Nat} {b v : Byte} (hb : s.master.fb.read k = some b) : Plan s (.pset x y c) (s.setByte k v) [] .unit
  | pget (x y : Int) (v : Bool) : Plan s (.pget x y) s [] (.bit v)
  | fbwrite (v : Byte) {w h k : Nat} (hg : s.geometry = .ok (w, h)) (hk : k < bufferSize w h) :
      Plan s (.fbwrite k v) (s.setByte k v) [] .unit
  | rawbytes (bs : List Byte) : Plan s .rawbytes s [] (.bytes bs)
  | construct {w h : Nat} (pins : PinAssignment) (hlife : s.master.life = .uninit) (hok : GeometryOk s.params w h) :
      Plan s (.construct w h pins) (s.allocate w h)
        (bringUpActions s.params w h ++ renderActions s.params w h (List.replicate (bufferSize w h) 0x00)) .unit

/-- What the instruction does after its event list ran to its end: CONSTRUCT enters `Init` (R80). -/
def closing : Instr → State → State
  | .construct _ _ _ => State.enterInit
  | _ => id

/-- How the instruction can answer a next state: stuck before, a configuration error, or its plan carried out to an end. -/
def EndsIn (i : Instr) (s t : State) : Prop :=
  s.hung = true ∧ t = s ∨
  s.hung = false ∧
    ((∃ w h pins cause arg, i = .construct w h pins ∧ t = s.takeException (.configError cause arg)) ∨
     ∃ s₀ as r, Plan s i s₀ as r ∧ ((performAll as s₀).andThen fun u => .run (closing i u)).finish r = .next t)

/-! ### Every instruction follows its plan -/

theorem Flow.andThen_run_self (f : Flow) : f.andThen .run = f := by
  cases f <;> rfl

section Plans

variable {i : Instr} {s : State}

theorem AnswerHolds.endsIn_whenFree {k : Answered} (hk : s.hung = false → AnswerHolds (EndsIn i s) k) :
    AnswerHolds (EndsIn i s) (Machine.whenFree s k) := by
  unfold Machine.whenFree
  split
  · next hh => exact .next (.inl ⟨hh, rfl⟩)
  · next hh => exact hk (by simpa using hh)

theorem AnswerHolds.endsIn_portWrite {k : Answered} (hk : s.hung = false → AnswerHolds (EndsIn i s) k) :
    AnswerHolds (EndsIn i s) (Machine.portWrite s k) := by
  unfold Machine.portWrite
  split
  · exact .refused _
  · next hh =>
    split
    · exact .refused _
    · exact hk (by simpa using hh)

theorem AnswerHolds.endsIn_portRead {k : Answered} (hk : s.hung = false → AnswerHolds (EndsIn i s) k) :
    AnswerHolds (EndsIn i s) (Machine.portRead s k) := by
  refine .endsIn_whenFree fun hh => ?_
  split
  · exact .refused _
  · exact hk hh

/-- An instruction other than CONSTRUCT that carries out its plan. -/
theorem Plan.endsIn {s₀ : State} {as : List Action} {r : Result} (hp : Plan s i s₀ as r) (hh : s.hung = false)
    (hi : closing i = id) : AnswerHolds (EndsIn i s) ((performAll as s₀).finish r) :=
  fun t ht => .inr ⟨hh, .inr ⟨s₀, as, r, hp, by rw [hi]; exact (Flow.andThen_run_self _).symm ▸ ht⟩⟩

theorem Plan.runInternal {as : List Action} (hp : Plan s i s as .unit) (hi : closing i = id) :
    AnswerHolds (EndsIn i s) (runInternal as s) := by
  refine .endsIn_whenFree fun hh => ?_
  split
  · exact hp.endsIn hh hi
  · exact .refused _

theorem State.geometry_ok {w h : Nat} (hg : s.geometry = .ok (w, h)) : s.master.width = some w ∧ s.master.height = some h := by
  unfold State.geometry at hg
  split at hg <;> cases hg
  exact ⟨‹_›, ‹_›⟩

theorem State.byteAt_ok {k : Nat} {b : Byte} (hb : s.byteAt k = .ok b) : s.master.fb.read k = some b := by
  unfold State.byteAt at hb
  split at hb <;> cases hb
  assumption

theorem asBytes_ne_nil {vs : List Int} {bytes : List Byte} (hvs : vs ≠ []) (h : asBytes vs = some bytes) : bytes ≠ [] := by
  cases vs with
  | nil => exact absurd rfl hvs
  | cons v vs =>
    rw [asBytes] at h
    split at h <;> cases h
    exact List.cons_ne_nil _ _

theorem wcmdBytes_ne_nil {b : Int} {a : Option Int} {bytes : List Byte} (h : wcmdBytes b a = some bytes) : bytes ≠ [] := by
  cases a <;> exact asBytes_ne_nil (List.cons_ne_nil _ _) h

theorem execInit_endsIn : AnswerHolds (EndsIn .init s) (execInit s) := by
  refine .endsIn_whenFree fun hh => ?_
  split
  · split
    · exact Plan.init.endsIn hh rfl
    · exact .refused _
  · exact .refused _

theorem execWcmd_endsIn (b : Int) (a : Option Int) : AnswerHolds (EndsIn (.wcmd b a) s) (execWcmd b a s) := by
  refine .endsIn_whenFree fun hh => ?_
  split
  · exact .refused _
  · next bytes hbytes => exact (Plan.wcmd (wcmdBytes_ne_nil hbytes)).runInternal rfl

theorem execWbuf_endsIn (vs : List Int) : AnswerHolds (EndsIn (.wbuf vs) s) (execWbuf vs s) := by
  refine .endsIn_whenFree fun hh => ?_
  split
  · exact .refused _
  · exact .refused _
  · exact (Plan.wbuf (List.cons_ne_nil _ _)).runInternal rfl

theorem execRender_endsIn : AnswerHolds (EndsIn .render s) (execRender s) := by
  refine .endsIn_whenFree fun hh => ?_
  split
  · exact .refused _
  · unfold renderBody
    split
    · exact .answer _
    · next w h hg =>
      split
      · exact .answer _
      · next content hc => exact (Plan.render hg hc).endsIn hh rfl

theorem execClear_endsIn : AnswerHolds (EndsIn .clear s) (execClear s) := by
  refine .endsIn_whenFree fun hh => ?_
  split
  · exact .refused _
  · cases hg : s.geometry with
    | error e =>
      simp only [State.fillBuffer, hg]
      exact .answer e
    | ok g =>
      obtain ⟨w, h⟩ := g
      have hplan := (Plan.clear hg).endsIn hh rfl
      simp only [State.fillBuffer, hg]
      rw [renderBody_eq (w := w) (h := h) (content := List.replicate (bufferSize w h) 0x00)]
      · exact hplan
      · exact (State.geometry_ok hg).1
      · exact (State.geometry_ok hg).2
      · exact Memory.readRange_filled _ _

theorem execFill_endsIn (c : Int) : AnswerHolds (EndsIn (.fill c) s) (execFill c s) := by
  refine .endsIn_portWrite fun hh => ?_
  split
  · cases hg : s.geometry with
    | error e =>
      simp only [State.fillBuffer, hg]
      exact .answer e
    | ok g =>
      simp only [State.fillBuffer, hg]
      exact (Plan.fill c hg).endsIn hh rfl
  · exact .refused _

theorem execPset_endsIn (x y c : Int) : AnswerHolds (EndsIn (.pset x y c) s) (execPset x y c s) := by
  refine .endsIn_portWrite fun hh => ?_
  split
  · exact .answer _
  · split
    · split
      · exact .answer _
      · next b hb => exact (Plan.pset x y c (State.byteAt_ok hb)).endsIn hh rfl
    · exact .refused _

theorem execPget_endsIn (x y : Int) : AnswerHolds (EndsIn (.pget x y) s) (execPget x y s) := by
  refine .endsIn_portRead fun hh => ?_
  split
  · exact .answer _
  · split
    · exact .answer _
    · exact (Plan.pget x y _).endsIn hh rfl

theorem execFbwrite_endsIn (k : Int) (v : Byte) : AnswerHolds (EndsIn (.fbwrite k v) s) (execFbwrite k v s) := by
  refine .endsIn_portWrite fun hh => ?_
  split
  · exact .answer _
  · next w h hg =>
    split
    · next hk =>
      obtain ⟨n, rfl⟩ := Int.eq_ofNat_of_zero_le hk.1
      exact (Plan.fbwrite v hg (by omega)).endsIn hh rfl
    · exact .refused _

theorem execRawbytes_endsIn : AnswerHolds (EndsIn .rawbytes s) (execRawbytes s) := by
  refine .endsIn_portRead fun hh => ?_
  split
  · exact .answer _
  · split
    · exact .answer _
    · exact (Plan.rawbytes _).endsIn hh rfl

theorem execConstruct_endsIn (w h : Int) (pins : PinAssignment) :
    AnswerHolds (EndsIn (.construct w h pins) s) (execConstruct w h pins s) := by
  refine .endsIn_whenFree fun hh => ?_
  split
  · exact .refused _
  · next hlife =>
    split
    · next cause arg _ => exact .next (.inr ⟨hh, .inl ⟨w, h, pins, cause, arg, rfl, rfl⟩⟩)
    · next hg =>
      split
      · exact .refused _
      · next hr =>
        have hok := geometryOk_of_checks hg hr
        obtain ⟨w, rfl⟩ := Int.eq_ofNat_of_zero_le (a := w) (by have := hok.1; omega)
        obtain ⟨h, rfl⟩ := Int.eq_ofNat_of_zero_le (a := h) (by have := hok.2.2.1; omega)
        intro t ht
        rw [constructBody_eq] at ht
        exact .inr ⟨hh, .inr ⟨_, _, _, .construct pins hlife hok, ht⟩⟩

end Plans

/-- Every instruction that answers a next state follows its plan. -/
theorem exec_endsIn (i : Instr) (s : State) : AnswerHolds (EndsIn i s) (exec i s) := by
  cases i with
  | displayOff | setContrast | setPrecharge | setVcomh | setStartLine0 | setDisplayOffset | setClockDiv | setComPins
  | segRemapNormal | comScanNormal | setMuxRatio | setAddrMode | entireDisplayResume | inverseOff | displayOn
  | setColumnAddr | setPageAddr => exact (Plan.command rfl (List.cons_ne_nil _ _)).runInternal rfl
  | data b => exact (Plan.data b).runInternal rfl
  | reset => exact Plan.reset.runInternal rfl
  | construct w h pins => exact execConstruct_endsIn w h pins
  | init => exact execInit_endsIn
  | wcmd b a => exact execWcmd_endsIn b a
  | wbuf vs => exact execWbuf_endsIn vs
  | render => exact execRender_endsIn
  | clear => exact execClear_endsIn
  | fill c => exact execFill_endsIn c
  | pset x y c => exact execPset_endsIn x y c
  | pget x y => exact execPget_endsIn x y
  | fbwrite k v => exact execFbwrite_endsIn k v
  | rawbytes => exact execRawbytes_endsIn

/-- What a stuck master answers is the state it is in (R163; log entry 8). -/
theorem exec_hung {i : Instr} {s t : State} (hs : s.hung = true) (he : exec i s = .next t) : t = s := by
  obtain ⟨-, rfl⟩ | ⟨hfree, -⟩ := exec_endsIn i s t he
  · rfl
  · simp [hs] at hfree

/-- How an instruction of a free master answers a next state. -/
theorem exec_free {i : Instr} {s t : State} (hs : s.hung = false) (he : exec i s = .next t) :
    (∃ w h pins cause arg, i = .construct w h pins ∧ t = s.takeException (.configError cause arg)) ∨
    ∃ s₀ as r, Plan s i s₀ as r ∧ ((performAll as s₀).andThen fun u => .run (closing i u)).finish r = .next t := by
  obtain ⟨hh, -⟩ | ⟨-, h⟩ := exec_endsIn i s t he
  · simp [hs] at hh
  · exact h

end Sys2Proof.Machine
end

section
/-! ## How an operation ends (R16, R162, R163, R167) -/

namespace Sys2Proof.Machine

/-! ### The state an operation begins its events in, and what it does after them -/

/-- Before its first event an instruction writes at most the geometry and the buffer. -/
theorem Plan.start {s s₀ : State} {i : Instr} {as : List Action} {r : Result} (hp : Plan s i s₀ as r) :
    ∃ w h fb, s₀ = { s with master := { s.master with width := w, height := h, fb := fb } } := by
  cases hp <;> exact ⟨_, _, _, rfl⟩

@[simp] theorem closing_trace (i : Instr) (s : State) : (closing i s).trace = s.trace := by cases i <;> rfl
@[simp] theorem closing_log (i : Instr) (s : State) : (closing i s).log = s.log := by cases i <;> rfl
@[simp] theorem closing_hung (i : Instr) (s : State) : (closing i s).hung = s.hung := by cases i <;> rfl
@[simp] theorem closing_slave (i : Instr) (s : State) : (closing i s).slave = s.slave := by cases i <;> rfl
@[simp] theorem closing_pins (i : Instr) (s : State) : (closing i s).master.pins = s.master.pins := by cases i <;> rfl
@[simp] theorem closing_fb (i : Instr) (s : State) : (closing i s).master.fb = s.master.fb := by cases i <;> rfl
@[simp] theorem closing_width (i : Instr) (s : State) : (closing i s).master.width = s.master.width := by cases i <;> rfl
@[simp] theorem closing_height (i : Instr) (s : State) : (closing i s).master.height = s.master.height := by cases i <;> rfl

/-- A plan is carried out to its end, or ended by an exception, or it hangs. -/
theorem carriedOut_next {f : Flow} {i : Instr} {r : Result} {t : State}
    (hf : (f.andThen fun u => .run (closing i u)).finish r = .next t) :
    (∃ u, f = .run u ∧ t = (closing i u).giveBack r) ∨ (∃ x u, f = .raised x u ∧ t = u.takeException x) ∨
    ∃ u, f = .hung u ∧ t = u.hang := by
  cases f with
  | run u =>
    cases hf
    exact .inl ⟨u, rfl, rfl⟩
  | raised x u =>
    cases hf
    exact .inr (.inl ⟨x, u, rfl, rfl⟩)
  | hung u =>
    cases hf
    exact .inr (.inr ⟨u, rfl, rfl⟩)
  | stop e => exact absurd hf (AnswerHolds.answer (P := fun _ => False) e t)

/-- An exception out of an event list is its failed event's: the events before it completed, and none follows it (R162, R167). -/
theorem performAll_raised_trace {as : List Action} {s t : State} {x : Exception} (h : performAll as s = .raised x t) :
    s.SameHost t ∧ ∃ es e, x = .transmissionError (s.trace ++ okEntries es).length e ∧
      t.trace = s.trace ++ okEntries es ++ [⟨e, .fail⟩] := by
  obtain ⟨done, e, rest, u, -, hdone, he⟩ := performAll_raised h
  obtain ⟨hhost, es, -, hu⟩ := performAll_run hdone
  obtain ⟨hhost', hx, ht⟩ := emit_raised_frame he
  exact ⟨hhost.trans hhost', es, e, by rw [hx, hu], by rw [ht, hu]⟩

/-- An event list that hangs does so in its last event: the events before it completed (R163). -/
theorem performAll_hung_trace {as : List Action} {s t : State} (h : performAll as s = .hung t) :
    s.SameHost t ∧ ∃ es e, t.trace = s.trace ++ okEntries es ++ [⟨e, .hang⟩] := by
  have hhost := performAll_sameHost as s
  obtain ⟨done, e, rest, u, -, hdone, he⟩ := performAll_hung h
  obtain ⟨-, es, -, hu⟩ := performAll_run hdone
  obtain ⟨-, rfl⟩ := emit_hung.mp he
  rw [h] at hhost
  exact ⟨hhost, es, e, by rw [State.record]; simp [hu]⟩

theorem okEntries_ok {es : List Event} : ∀ x ∈ okEntries es, x.outcome = EventOutcome.ok := by
  simp [okEntries]

/-- Settles O50: the checks of CONSTRUCT raise before any event; a plan ends as its event list ends. -/
theorem operationOutcomes : Obligations.OperationOutcomes := by
  intro i s t hs he
  obtain ⟨w, h, pins, cause, arg, rfl, rfl⟩ | ⟨s₀, as, r, hp, hf⟩ := exec_free hs he
  · exact ⟨[], nofun, .inr (.inl ⟨cause, arg, rfl, rfl, rfl, hs⟩)⟩
  · obtain ⟨w, h, fb, rfl⟩ := hp.start
    obtain ⟨u, hu, rfl⟩ | ⟨x, u, hu, rfl⟩ | ⟨u, hu, rfl⟩ := carriedOut_next hf
    · obtain ⟨hhost, es, -, htrace⟩ := performAll_run hu
      exact ⟨okEntries es, okEntries_ok, .inl ⟨r, rfl, by simpa using htrace, by simpa using hhost.log,
        by simpa [hs] using hhost.hung⟩⟩
    · obtain ⟨hhost, es, e, rfl, htrace⟩ := performAll_raised_trace hu
      exact ⟨okEntries es, okEntries_ok, .inr (.inr (.inl ⟨e, rfl, htrace, by rw [State.takeException_log, hhost.log],
        hhost.hung.trans hs⟩))⟩
    · obtain ⟨hhost, es, e, htrace⟩ := performAll_hung_trace hu
      exact ⟨okEntries es, okEntries_ok, .inr (.inr (.inr ⟨e, rfl, htrace, hhost.log, rfl⟩))⟩

/-- Settles O51: an operation that hangs logs nothing, and of the stuck master it leaves nothing starts. -/
theorem hangNeverReturns : Obligations.HangNeverReturns := by
  intro i s t hs he hout
  obtain ⟨es, -, ⟨r, hr, -⟩ | ⟨c, a, hr, -⟩ | ⟨e, hr, -⟩ | ⟨e, -, -, hlog, hung⟩⟩ := operationOutcomes i s t hs he
  case inr.inr.inr => exact ⟨hlog, by simp [step, hung], fun j u hj => exec_hung hung hj⟩
  all_goals
    rw [hout] at hr
    cases hr

/-! ## Who writes the master's registers (R11, R12, R62) -/

/-- Whatever becomes of a plan, it leaves the geometry and the buffer it began its events with, and the parameters. -/
theorem carriedOut_registers {i : Instr} {as : List Action} {r : Result} {s₀ t : State}
    (hf : ((performAll as s₀).andThen fun u => .run (closing i u)).finish r = .next t) :
    t.master.width = s₀.master.width ∧ t.master.height = s₀.master.height ∧ t.master.fb = s₀.master.fb ∧ t.params = s₀.params := by
  have hhost := performAll_sameHost as s₀
  have hparams := performAll_params as s₀
  obtain ⟨u, hu, rfl⟩ | ⟨x, u, hu, rfl⟩ | ⟨u, hu, rfl⟩ := carriedOut_next hf <;> rw [hu] at hhost hparams
  · exact ⟨(closing_width i u).trans hhost.width, (closing_height i u).trans hhost.height, (closing_fb i u).trans hhost.fb,
      (congrArg Slave.params (closing_slave i u)).trans hparams⟩
  · exact ⟨hhost.width, hhost.height, hhost.fb, hparams⟩
  · exact ⟨hhost.width, hhost.height, hhost.fb, hparams⟩

/-- Whatever becomes of a plan, it leaves the parameters. -/
theorem carriedOut_params {i : Instr} {as : List Action} {r : Result} {s₀ t : State}
    (hf : ((performAll as s₀).andThen fun u => .run (closing i u)).finish r = .next t) : t.params = s₀.params := by
  obtain ⟨-, -, -, hparams⟩ := carriedOut_registers hf
  exact hparams

/-- Settles O57: any other instruction begins its events with the buffer as it was. -/
theorem bufferWriters : Obligations.BufferWriters := by
  intro i s t he hne
  obtain ⟨-, rfl⟩ | ⟨-, ⟨w, h, pins, cause, arg, rfl, rfl⟩ | ⟨s₀, as, r, hp, hf⟩⟩ := exec_endsIn i s t he
  · exact absurd rfl hne
  · exact absurd rfl hne
  · obtain ⟨-, -, hfb, -⟩ := carriedOut_registers hf
    rw [hfb] at hne
    cases hp with
    | construct => exact .inl ⟨_, _, _, rfl⟩
    | clear => exact .inr (.inl rfl)
    | fill c => exact .inr (.inr (.inl ⟨c, rfl⟩))
    | pset x y c => exact .inr (.inr (.inr (.inl ⟨x, y, c, rfl⟩)))
    | fbwrite => exact .inr (.inr (.inr (.inr ⟨_, _, rfl⟩)))
    | command | data | reset | init | wcmd | wbuf | render | pget | rawbytes => exact absurd rfl hne

/-- Settles O36: CLEAR has zeroed the buffer before its first event, and no event touches it. -/
theorem clearZeroesEvenWhenItFails : Obligations.ClearZeroesEvenWhenItFails := by
  rintro s t w h ⟨hs, -, hw, hh, -, -⟩ he
  obtain ⟨_, _, _, _, _, hi, -⟩ | ⟨s₀, as, r, hp, hf⟩ := exec_free hs he
  · cases hi
  · obtain ⟨-, -, hfb, -⟩ := carriedOut_registers hf
    cases hp with
    | command henc => cases henc
    | clear hg =>
      obtain ⟨hw', hh'⟩ := State.geometry_ok hg
      cases hw.symm.trans hw'
      cases hh.symm.trans hh'
      exact hfb

end Sys2Proof.Machine
end

section
/-! ## The invariant of the block (R11, R12, R20, R21, R36 to R38, R90, R116) -/

namespace Sys2Proof.Machine

/-! ### The master's registers -/

theorem Memory.mem_keys_of_read {m : Memory} {k : Nat} {b : Byte} (h : m.read k = some b) : k ∈ m.map Prod.fst := by
  by_contra hk
  rw [Memory.read_none_of_not_mem hk] at h
  cases h

/-- A block that keeps the invariant and has a geometry has exactly the bytes of its buffer (R12). -/
theorem Master.Inv.keys {P : Params} {M : Master} {w h : Nat} (hM : M.Inv P) (hw : M.width = some w) (hh : M.height = some h) :
    M.fb.map Prod.fst = List.range (bufferSize w h) := by
  obtain ⟨-, hw', -⟩ | ⟨w', h', hw', hh', -, hkeys⟩ := hM
  · cases hw.symm.trans hw'
  · cases hw.symm.trans hw'
    cases hh.symm.trans hh'
    exact hkeys

theorem Master.Inv.fb_wf {P : Params} {M : Master} (hM : M.Inv P) : M.fb.wf := by
  obtain ⟨-, -, -, hfb⟩ | ⟨_, _, -, -, -, hkeys⟩ := hM
  · rw [hfb]
    exact List.Pairwise.nil
  · exact Memory.wf_of_keys_range hkeys

/-- Only the geometry and the addresses of the buffer matter to the master's invariant, once there is a geometry. -/
theorem Master.Inv.of_registers {P : Params} {M M' : Master} (hM : M.Inv P) (hw : M'.width = M.width) (hh : M'.height = M.height)
    (hfb : M'.fb.map Prod.fst = M.fb.map Prod.fst) (hlife : M'.life = M.life ∨ M.width ≠ none) : M'.Inv P := by
  obtain ⟨hl, hw', hh', hfb'⟩ | ⟨w, h, hw', hh', hok, hkeys⟩ := hM
  · have hempty : M'.fb = [] := by simpa [hfb'] using hfb
    exact .inl ⟨(hlife.resolve_right fun hne => hne hw').trans hl, hw.trans hw', hh.trans hh', hempty⟩
  · exact .inr ⟨w, h, hw.trans hw', hh.trans hh', hok, hfb.trans hkeys⟩

theorem Master.allocated_inv {P : Params} {w h : Nat} (hok : GeometryOk P w h) (s : State) : (s.allocate w h).master.Inv P :=
  .inr ⟨w, h, rfl, rfl, hok, Memory.keys_filled _ _⟩

theorem closing_of_command {P : Params} {i : Instr} {bytes : List Byte} (h : encode P i = .command bytes) : closing i = id := by
  cases i
  case construct => cases h
  all_goals rfl

/-- CONSTRUCT creates the geometry and the buffer; every other instruction keeps the geometry and the addresses of the buffer. -/
theorem Plan.start_registers {s s₀ : State} {i : Instr} {as : List Action} {r : Result} (hM : s.master.Inv s.params)
    (hp : Plan s i s₀ as r) :
    (∃ w h, s.master.life = .uninit ∧ GeometryOk s.params w h ∧ s₀ = s.allocate w h) ∨
    closing i = id ∧ s₀.master.width = s.master.width ∧ s₀.master.height = s.master.height ∧
      s₀.master.fb.map Prod.fst = s.master.fb.map Prod.fst ∧ s₀.master.life = s.master.life := by
  cases hp with
  | construct pins hlife hok => exact .inl ⟨_, _, hlife, hok, rfl⟩
  | clear hg | fill _ hg =>
    obtain ⟨hw, hh⟩ := State.geometry_ok hg
    exact .inr ⟨rfl, rfl, rfl, by rw [hM.keys hw hh, Memory.keys_filled], rfl⟩
  | pset x y c hb => exact .inr ⟨rfl, rfl, rfl, Memory.keys_write _ hM.fb_wf (Memory.mem_keys_of_read hb), rfl⟩
  | fbwrite v hg hk =>
    obtain ⟨hw, hh⟩ := State.geometry_ok hg
    exact .inr ⟨rfl, rfl, rfl, Memory.keys_write _ hM.fb_wf (by rw [hM.keys hw hh]; exact List.mem_range.mpr hk), rfl⟩
  | command henc => exact .inr ⟨closing_of_command henc, rfl, rfl, rfl, rfl⟩
  | data | reset | init | wcmd | wbuf | render | pget | rawbytes => exact .inr ⟨rfl, rfl, rfl, rfl, rfl⟩

/-- Whatever becomes of a plan, the lifecycle is as its events began, but for the end of CONSTRUCT. -/
theorem carriedOut_life {i : Instr} {as : List Action} {r : Result} {s₀ t : State} (hi : closing i = id)
    (hf : ((performAll as s₀).andThen fun u => .run (closing i u)).finish r = .next t) : t.master.life = s₀.master.life := by
  have hhost := performAll_sameHost as s₀
  obtain ⟨u, hu, rfl⟩ | ⟨x, u, hu, rfl⟩ | ⟨u, hu, rfl⟩ := carriedOut_next hf <;> rw [hu] at hhost
  · rw [hi]
    exact hhost.life
  · exact hhost.life
  · exact hhost.life

/-- A plan carried out from a master that keeps the invariant ends in one that does. -/
theorem carriedOut_master_inv {i : Instr} {as : List Action} {r : Result} {s s₀ t : State} (hM : s.master.Inv s.params)
    (hp : Plan s i s₀ as r) (hf : ((performAll as s₀).andThen fun u => .run (closing i u)).finish r = .next t) :
    t.master.Inv s.params := by
  obtain ⟨hw, hh, hfb, -⟩ := carriedOut_registers hf
  obtain ⟨w, h, -, hok, rfl⟩ | ⟨hi, hw', hh', hfb', hlife⟩ := hp.start_registers hM
  · exact (Master.allocated_inv hok s).of_registers hw hh (by rw [hfb]) (.inr (by simp))
  · exact hM.of_registers (hw.trans hw') (hh.trans hh') (by rw [hfb, hfb']) (.inl ((carriedOut_life hi hf).trans hlife))

/-! ### The low phase of the reset line -/

theorem notLow_of_line {e : Event} (he : e.line ≠ some .res) : (Action.event e).NotLow :=
  ⟨fun h => he (by cases h; rfl), fun h => he (by cases h; rfl)⟩

/-- Frames leave the reset line alone (R65). -/
theorem commandFrames_line {bytes : List Byte} : ∀ a ∈ commandFrames bytes, ∃ e, a = .event e ∧ e.line ≠ some .res := by
  intro a ha
  simp only [commandFrames, commandFrame, List.mem_map, List.mem_flatMap, List.mem_cons, List.not_mem_nil, or_false] at ha
  obtain ⟨e, ⟨b, -, rfl | rfl | rfl | rfl⟩, rfl⟩ := ha <;> exact ⟨_, rfl, by simp [Event.line]⟩

theorem burstFrame_line {bytes : List Byte} : ∀ a ∈ burstFrame bytes, ∃ e, a = .event e ∧ e.line ≠ some .res := by
  intro a ha
  simp only [burstFrame, dataFrame, List.mem_map, List.mem_cons, List.not_mem_nil, or_false] at ha
  obtain ⟨e, rfl | rfl | rfl | rfl | rfl, rfl⟩ := ha <;> exact ⟨_, rfl, by simp [Event.line]⟩

theorem renderActions_line {P : Params} {w h : Nat} {content : List Byte} :
    ∀ a ∈ renderActions P w h content, ∃ e, a = .event e ∧ e.line ≠ some .res := by
  intro a ha
  obtain ha | ha := List.mem_append.mp ha
  · exact commandFrames_line a ha
  · exact burstFrame_line a ha

/-- Events that leave the reset line alone keep its low phase held. -/
theorem performAll_held {as : List Action} (has : ∀ a ∈ as, ∃ e, a = .event e ∧ e.line ≠ some .res) {s : State}
    (hs : s.slave.LowPhaseHeld) : (performAll as s).Holds (fun t => t.slave.LowPhaseHeld) :=
  performAll_holds (P := fun t => t.slave.LowPhaseHeld) (fun a ha t ht => by
    obtain ⟨e, rfl, he⟩ := has a ha
    exact perform_held (notLow_of_line he) ht) hs

theorem bringUpActions_held (P : Params) (w h : Nat) {s : State} (hs : s.slave.LowPhaseHeld) :
    (performAll (bringUpActions P w h) s).Holds (fun t => t.slave.LowPhaseHeld) := by
  rw [bringUpActions, performAll_append, performAll_append]
  refine ((performAll_holds (P := fun t => t.slave.LowPhaseHeld) ?config hs).andThen fun t ht => resetPulse_held ht).andThen
    fun t ht => performAll_held commandFrames_line ht
  intro a ha t ht
  simp only [List.mem_cons, List.not_mem_nil, or_false] at ha
  obtain rfl | rfl | rfl := ha <;> exact perform_held ⟨by simp, by simp⟩ ht

/-- Whatever becomes of a plan's events, a low phase of the reset line was held for the minimum. -/
theorem Plan.held {s s₀ : State} {i : Instr} {as : List Action} {r : Result} (hp : Plan s i s₀ as r) (hs : s.slave.LowPhaseHeld) :
    (performAll as s₀).Holds (fun t => t.slave.LowPhaseHeld) := by
  obtain ⟨_, _, _, hs₀⟩ := hp.start
  have hheld : s₀.slave.LowPhaseHeld := by rw [hs₀]; exact hs
  cases hp with
  | command | init | wcmd => exact performAll_held commandFrames_line hheld
  | data | wbuf => exact performAll_held burstFrame_line hheld
  | render | clear => exact performAll_held renderActions_line hheld
  | reset => exact resetPulse_held hheld
  | fill | pset | pget | fbwrite | rawbytes => exact hheld
  | construct =>
    rw [performAll_append]
    exact (bringUpActions_held _ _ _ hheld).andThen fun t ht => performAll_held renderActions_line ht

/-! ### Every step -/

/-- What the events leave of the slave is what the operation leaves of it. -/
theorem carriedOut_slave {P : Slave → Prop} {f : Flow} {i : Instr} {r : Result} {t : State} (hP : f.Holds fun u => P u.slave)
    (hf : (f.andThen fun u => .run (closing i u)).finish r = .next t) : P t.slave := by
  obtain ⟨u, rfl, rfl⟩ | ⟨x, u, rfl, rfl⟩ | ⟨u, rfl, rfl⟩ := carriedOut_next hf
  · exact (closing_slave i u).symm ▸ hP
  · exact hP
  · exact hP

theorem exec_inv {i : Instr} {s t : State} (hs : s.Inv) (he : exec i s = .next t) : t.Inv := by
  obtain ⟨-, rfl⟩ | ⟨-, ⟨w, h, pins, cause, arg, -, rfl⟩ | ⟨s₀, as, r, hp, hf⟩⟩ := exec_endsIn i s t he
  · exact hs
  · exact hs
  · obtain ⟨hM, hS, hheld⟩ := hs
    obtain ⟨_, _, _, hs₀⟩ := hp.start
    have hparams : t.params = s.params := (carriedOut_params hf).trans (by rw [hs₀])
    have hS₀ : s₀.slave.Inv := by rw [hs₀]; exact hS
    refine ⟨?_, carriedOut_slave (performAll_slave_inv as hS₀) hf, carriedOut_slave (hp.held hheld) hf⟩
    rw [hparams]
    exact carriedOut_master_inv hM hp hf

/-- A step that answers a next state did nothing, or ran the host's next call (R57, R163). -/
theorem step_next {s t : State} (h : step s = .next t) :
    t = s ∨ s.hung = false ∧ ∃ i rest, exec i { s with requests := rest } = .next t := by
  unfold step at h
  split at h
  · cases h
    exact .inl rfl
  · next hh =>
    unfold State.fetch at h
    cases hreq : s.requests with
    | nil =>
      rw [hreq] at h
      cases h
      exact .inl rfl
    | cons p rest =>
      simp only [hreq] at h
      cases hd : decode s.params p with
      | ok i =>
        rw [hd] at h
        exact .inr ⟨by simpa using hh, i, rest, h⟩
      | error e =>
        rw [hd] at h
        cases h

/-- Settles O11: of the master a plan writes legal registers, of the slave every event keeps the invariant, and the reset pulse holds
its low phase. -/
theorem stepKeepsInvariant : Obligations.StepKeepsInvariant := by
  intro s t hs ht
  obtain rfl | ⟨-, i, rest, he⟩ := step_next ht
  · exact hs
  · exact exec_inv (s := { s with requests := rest }) hs he

/-- Settles O56: no event touches a parameter or a register of the master, and before its events only CONSTRUCT writes the geometry. -/
theorem geometryIsImmutable : Obligations.GeometryIsImmutable := by
  refine ⟨fun i s t he => ?params, fun i s t hs hlife he => ?geometry⟩
  case params =>
    obtain ⟨-, rfl⟩ | ⟨-, ⟨w, h, pins, cause, arg, -, rfl⟩ | ⟨s₀, as, r, hp, hf⟩⟩ := exec_endsIn i s t he
    · rfl
    · rfl
    · obtain ⟨_, _, _, hs₀⟩ := hp.start
      exact (carriedOut_params hf).trans (by rw [hs₀])
  case geometry =>
    obtain ⟨-, rfl⟩ | ⟨-, ⟨w, h, pins, cause, arg, -, rfl⟩ | ⟨s₀, as, r, hp, hf⟩⟩ := exec_endsIn i s t he
    · exact ⟨rfl, rfl, rfl⟩
    · exact ⟨rfl, rfl, rfl⟩
    · obtain ⟨hw, hh, hfb, -⟩ := carriedOut_registers hf
      obtain ⟨_, _, hl, -⟩ | ⟨-, hw', hh', hfb', -⟩ := hp.start_registers hs.1
      · rw [hlife] at hl
        cases hl
      · exact ⟨hw.trans hw', hh.trans hh', by rw [hfb, hfb']⟩

/-- Settles O10: at power-on nothing is known of the slave and the master has no geometry. -/
theorem powerOnMeetsInvariant : Obligations.PowerOnMeetsInvariant := by
  have hinv : ∀ P : Params, (State.resetWith P).Inv := fun P =>
    ⟨.inl ⟨rfl, rfl, rfl, rfl⟩, Slave.powerOn_inv P, nofun⟩
  exact ⟨hinv _, hinv⟩

end Sys2Proof.Machine
end

section
/-! ## One step (R57, R74, R163) -/

namespace Sys2Proof

/-! ### Lines that are no instruction -/

theorem decode_unknownCommand {P : Params} {b : Byte} (bytes : List Byte) (hb : commandOfOpcode P b = none) :
    decode P (.command (b :: bytes)) = .error (.unknownCommand b) := by
  simp [decode, decodeCommand, hb]

/-- A command line with operand bytes too few or too many cannot be read (R73; log entry 16). -/
theorem decode_wrongOperands {P : Params} {b : Byte} {bytes : List Byte} {m : Command} (hb : commandOfOpcode P b = some m)
    (hlen : bytes.length ≠ m.operands) : decode P (.command (b :: bytes)) = .error .malformed := by
  obtain m | m | m := m <;> simp only [decode, decodeCommand, hb]
  · match bytes, hlen with
    | _ :: _, _ => rfl
  · match bytes, hlen with
    | [], _ | _ :: _ :: _, _ => rfl
  · match bytes, hlen with
    | [], _ | [_], _ | _ :: _ :: _ :: _, _ => rfl

/-- The op-select codes that rule R77 does not assign (R74). -/
theorem decode_unassigned (P : Params) {sel : BitVec 4} (args : List Int) (hsel : sel = 0x7 ∨ sel = 0xD ∨ sel = 0xE ∨ sel = 0xF) :
    decode P (.call sel args) = .error (.unknownHostOp sel) := by
  obtain rfl | rfl | rfl | rfl := hsel <;> rfl

theorem decode_notAByte (P : Params) (i : Int) {v : Int} (hv : v < 0 ∨ 255 < v) :
    decode P (.call 0xB [i, v]) = .error (.notAByte v) := by
  simp [decode, decodeCall, asByte_none hv]

/-- A call with a number of arguments that its code does not take (R77; log entry 16). -/
def WrongArity (sel : BitVec 4) (args : List Int) : Prop :=
  (sel = 0x0 ∧ args.length ∉ [0, 1, 2, 5, 7]) ∨
  ((sel = 0x1 ∨ sel = 0x2 ∨ sel = 0x5 ∨ sel = 0x6 ∨ sel = 0xC) ∧ args.length ≠ 0) ∨
  (sel = 0x3 ∧ args.length ≠ 1 ∧ args.length ≠ 2) ∨ (sel = 0x8 ∧ args.length ≠ 1) ∨ (sel = 0x9 ∧ args.length ≠ 3) ∨
  ((sel = 0xA ∨ sel = 0xB) ∧ args.length ≠ 2)

theorem decode_wrongArity (P : Params) {sel : BitVec 4} {args : List Int} (h : WrongArity sel args) :
    decode P (.call sel args) = .error .malformed := by
  obtain ⟨rfl, hlen⟩ | ⟨rfl | rfl | rfl | rfl | rfl, hlen⟩ | ⟨rfl, h1, h2⟩ | ⟨rfl, hlen⟩ | ⟨rfl, hlen⟩ | ⟨rfl | rfl, hlen⟩ := h
  case inl =>
    match args with
    | [] | [_] | [_, _] | [_, _, _, _, _] | [_, _, _, _, _, _, _] => exact absurd hlen (by simp)
    | [_, _, _] | [_, _, _, _] | [_, _, _, _, _, _] | _ :: _ :: _ :: _ :: _ :: _ :: _ :: _ :: _ => rfl
  case inr.inr.inl =>
    match args with
    | [_] => exact absurd rfl h1
    | [_, _] => exact absurd rfl h2
    | [] | _ :: _ :: _ :: _ => rfl
  case inr.inr.inr.inl =>
    match args, hlen with
    | [], _ | _ :: _ :: _, _ => rfl
  case inr.inr.inr.inr.inl =>
    match args, hlen with
    | [], _ | [_], _ | [_, _], _ | _ :: _ :: _ :: _ :: _, _ => rfl
  case inr.inr.inr.inr.inr.inl | inr.inr.inr.inr.inr.inr =>
    match args, hlen with
    | [], _ | [_], _ | _ :: _ :: _ :: _, _ => rfl
  all_goals
    match args, hlen with
    | _ :: _, _ => rfl

namespace Machine

/-! ### What a step runs -/

theorem step_decoded {s : State} {p : Packet} {rest : List Packet} {i : Instr} (hs : s.hung = false) (hreq : s.requests = p :: rest)
    (hd : decode s.params p = .ok i) : step s = exec i { s with requests := rest } := by
  simp [step, State.fetch, hs, hreq, hd]

theorem step_rejected {s : State} {p : Packet} {rest : List Packet} {e : DecodeError} (hs : s.hung = false)
    (hreq : s.requests = p :: rest) (hd : decode s.params p = .error e) : step s = .refused (decodeRefusal e) := by
  simp [step, State.fetch, hs, hreq, hd]

theorem step_hung {s : State} (hs : s.hung = true) : step s = .next s := by
  simp [step, hs]

theorem step_idle {s : State} (hreq : s.requests = []) : step s = .next s := by
  unfold step State.fetch
  split
  · rfl
  · simp [hreq]

/-- Settles O6: the queue's first line, decoded. -/
theorem stepRunsDecoded : Obligations.StepRunsDecoded := fun _ _ _ _ hs hreq hd => step_decoded hs hreq hd

/-- Settles O7: each line that is no instruction is rejected by the decoder, under its name. -/
theorem stepOtherwise : Obligations.StepOtherwise := by
  refine ⟨fun s rest p e hs hreq hd => step_rejected hs hreq hd, fun s rest b bytes hs hreq => ⟨fun hb => ?_, fun m hb hlen => ?_⟩,
    fun s rest sel args hs hreq => ⟨fun hsel => ?_, fun hlen => ?_, fun i v hsel hargs hv => ?_⟩, fun s => step_hung,
    fun s => step_idle⟩
  · exact step_rejected hs hreq (decode_unknownCommand bytes hb)
  · exact step_rejected hs hreq (decode_wrongOperands hb hlen)
  · exact step_rejected hs hreq (decode_unassigned _ args hsel)
  · exact step_rejected hs hreq (decode_wrongArity _ hlen)
  · subst hsel hargs
    exact step_rejected hs hreq (decode_notAByte _ i hv)

theorem decode_tableWord {P : Params} {nbits w : Nat} {i : Instr} (h : decodeTableWordFor P nbits w = some i) :
    decode P (tableWord P nbits w) = .ok i := by
  unfold decodeTableWordFor at h
  split at h <;> cases h
  assumption

/-- Settles O8: the table word is the first line of the queue. -/
theorem tableWordRunsNext : Obligations.TableWordRunsNext := by
  intro s nbits w i
  have hruns : decodeTableWordFor s.params nbits w = some i → step (s.withFetchWord nbits w) = exec i { s with hung := false } :=
    fun h => step_decoded (s := s.withFetchWord nbits w) rfl rfl (decode_tableWord h)
  exact ⟨hruns, fun hP h => hruns (by rw [hP]; exact h)⟩

/-- Settles O9: the fields of the state at power-on, one by one. -/
theorem powerOnState : Obligations.PowerOnState := ⟨rfl, fun _ => ⟨rfl, rfl, rfl, rfl, rfl, rfl, rfl, rfl, rfl⟩⟩

end Machine
end Sys2Proof
end

section
/-! ## The slave: the reset line, the gate of a transmission, the decoder (R115, R118, R119 to R138) -/

namespace Sys2Proof.Machine

/-! ### The reset line (R115) -/

theorem Slave.onReset_low (S : Slave) : S.onReset false = .ok { S with phase := .inReset, resLowUs := some 0 } := by
  cases h : S.phase <;> simp [Slave.onReset]

theorem Slave.onReset_high_other {S : Slave} (hp : S.phase ≠ .inReset) : S.onReset true = .ok S := by
  cases h : S.phase with
  | inReset => exact absurd h hp
  | unknown | ready => simp [Slave.onReset, h]

theorem Slave.onReset_release {S : Slave} {t : Nat} (hp : S.phase = .inReset) (ht : S.resLowUs = some t) :
    S.onReset true = if S.params.tResLowCtrl ≤ t then .ok S.afterReset else .error (.refuse .resetPulseTooShort) := by
  simp [Slave.onReset, hp, ht]

/-- Settles O12: low starts the count; high ends a pulse, long enough or too short, and does nothing outside one. -/
theorem resetLine : Obligations.ResetLine := by
  refine fun S => ⟨S.onReset_low, Slave.onReset_high_other, fun t hp ht hlong => ?long, fun t hp ht hshort => ?short⟩
  case long =>
    rw [Slave.onPin, Slave.onReset_release hp ht, if_pos hlong, Slave.afterReset, ht]
  case short => rw [Slave.onPin, Slave.onReset_release hp ht, if_neg (Nat.not_le.mpr hshort)]

/-! ### The gate of a transmission (R118) -/

theorem Slave.receiveRefusal_slaveNotReady {S : Slave} {ps : Pins} (h : S.phase ≠ .ready ∨ ps.res ≠ some true) :
    S.receiveRefusal ps = some .slaveNotReady := by
  unfold Slave.receiveRefusal
  obtain h | h := h <;> simp [h]

theorem Slave.receiveRefusal_deselected {S : Slave} {ps : Pins} (hp : S.phase = .ready) (hr : ps.res = some true)
    (hc : ps.cs ≠ some false) : S.receiveRefusal ps = some .txWhileDeselected := by
  simp [Slave.receiveRefusal, hp, hr, hc]

theorem Slave.receive_refused {S : Slave} {ps : Pins} {r : Refusal} (bs : List Byte) (h : S.receiveRefusal ps = some r) :
    S.receive ps bs = .error (.refuse r) := by
  simp [Slave.receive, h]

/-- Settles O14: the gate looks at the phase and the reset line, then at chip-select, and then takes the bytes. -/
theorem transmissionGate : Obligations.TransmissionGate := by
  refine fun S ps bs => ⟨fun h => ?_, fun hp hr hc => ?_, fun hp hr hc => ?_, fun b hp hps => ?_⟩
  · exact Slave.receive_refused bs (Slave.receiveRefusal_slaveNotReady h)
  · exact Slave.receive_refused bs (Slave.receiveRefusal_deselected hp hr hc)
  · exact Slave.receive_eq bs hp hr hc
  · subst hps
    rw [Slave.receive_eq _ hp rfl rfl]
    rfl

/-! ### The commands (R119 to R136) -/

theorem Slave.commandByte_idle {S : Slave} (hd : S.dec = some .idle) (m : Command) :
    S.commandByte (m.opcode S.params) =
      match m with
      | .c1 m => .ok (S.executeC1 m)
      | .c2 m => .ok { S with dec := some (.pendingOne m) }
      | .c3 m => .ok { S with dec := some (.pendingTwo m) } := by
  obtain m | m | m := m <;> simp [Slave.commandByte, hd]

theorem Slave.commandByte_pendingOne {S : Slave} {m : C2} (hd : S.dec = some (.pendingOne m)) (b : Byte) :
    S.commandByte b = .ok (Slave.executeC2 m b { S with dec := some .idle }) := by
  simp [Slave.commandByte, hd]

theorem Slave.commandByte_pendingTwo {S : Slave} {m : C3} (hd : S.dec = some (.pendingTwo m)) (b : Byte) :
    S.commandByte b = .ok { S with dec := some (.pendingEnd m b) } := by
  simp [Slave.commandByte, hd]

theorem Slave.commandByte_pendingEnd {S : Slave} {m : C3} {a : Byte} (hd : S.dec = some (.pendingEnd m a)) (b : Byte) :
    S.commandByte b = Slave.executeC3 m a b { S with dec := some .idle } := by
  simp [Slave.commandByte, hd]

section Commands

variable {S : Slave} (hd : S.dec = some .idle) (rest : List Byte)
include hd

theorem Slave.takeBytes_c1 (m : C1) :
    S.takeBytes (some false) ((Command.c1 m).opcode S.params :: rest) = (S.executeC1 m).takeBytes (some false) rest := by
  rw [Slave.takeBytes_cons, Slave.takeByte_command, Slave.commandByte_idle hd]
  rfl

theorem Slave.takeBytes_c2 (m : C2) (a : Byte) :
    S.takeBytes (some false) ((Command.c2 m).opcode S.params :: a :: rest) = (S.executeC2 m a).takeBytes (some false) rest := by
  rw [Slave.takeBytes_cons, Slave.takeByte_command, Slave.commandByte_idle hd, Except.bind, Slave.takeBytes_cons,
    Slave.takeByte_command, Slave.commandByte_pendingOne rfl, Except.bind]
  exact congrArg (fun T => (Slave.executeC2 m a T).takeBytes (some false) rest) (Slave.idle_self hd)

theorem Slave.takeBytes_c3 (m : C3) (a b : Byte) :
    S.takeBytes (some false) ((Command.c3 m).opcode S.params :: a :: b :: rest) =
      (S.executeC3 m a b).bind (fun S' => S'.takeBytes (some false) rest) := by
  rw [Slave.takeBytes_cons, Slave.takeByte_command, Slave.commandByte_idle hd, Except.bind, Slave.takeBytes_cons,
    Slave.takeByte_command, Slave.commandByte_pendingTwo rfl, Except.bind, Slave.takeBytes_cons, Slave.takeByte_command,
    Slave.commandByte_pendingEnd rfl]
  exact congrArg (fun T => (Slave.executeC3 m a b T).bind (fun S' => S'.takeBytes (some false) rest)) (Slave.idle_self hd)

end Commands

/-- Settles O3: the opcode is taken from Idle, and each operand in the state its predecessor left. -/
theorem slaveDecodesWholeCommands : Obligations.SlaveDecodesWholeCommands :=
  fun _ rest hd => ⟨Slave.takeBytes_c1 hd rest, Slave.takeBytes_c2 hd rest, Slave.takeBytes_c3 hd rest⟩

/-- Settles O15: the seven commands of format C1, each taken whole. -/
theorem noOperandCommandEffects : Obligations.NoOperandCommandEffects := fun _ hd =>
  have taken := Slave.takeBytes_c1 hd []
  ⟨taken .displayOff, taken .setStartLine0, taken .segRemapNormal, taken .comScanNormal, taken .entireDisplayResume,
    taken .inverseOff, taken .displayOn⟩

/-- Settles O16: the eight commands of format C2, each taken whole. -/
theorem operandCommandEffects : Obligations.OperandCommandEffects := fun _ a hd =>
  have taken := fun m => Slave.takeBytes_c2 hd [] m a
  ⟨taken .setContrast, taken .setPrecharge, taken .setVcomh, taken .setDisplayOffset, taken .setClockDiv, taken .setComPins,
    taken .setMuxRatio, taken .setAddrMode⟩

/-- Settles O17: only the end bound of a window command reaches the windows, and every command ends with the decoder Idle. -/
theorem commandByteFrame : Obligations.CommandByteFrame := by
  intro S S' b h
  obtain ⟨hram, hphase, hlow, -⟩ := Slave.commandByte_frame h
  refine ⟨hram, hphase, hlow, ?_⟩
  obtain ⟨m, hd, -, rfl⟩ | ⟨m, hd, -, rfl⟩ | ⟨m, hd, -, rfl⟩ | ⟨m, hd, rfl⟩ | ⟨m, hd, rfl⟩ | ⟨m, a, hd, hx⟩ :=
    Slave.commandByte_ok h
  · exact ⟨fun _ => by simp, fun hne => absurd ((Slave.executeC1_dec m S).trans hd) hne⟩
  · exact ⟨fun _ => ⟨rfl, rfl, rfl, rfl, rfl, rfl⟩, fun _ => rfl⟩
  · exact ⟨fun _ => ⟨rfl, rfl, rfl, rfl, rfl, rfl⟩, fun _ => rfl⟩
  · exact ⟨fun _ => by simp, fun hne => absurd (Slave.executeC2_dec m b _) hne⟩
  · exact ⟨fun _ => ⟨rfl, rfl, rfl, rfl, rfl, rfl⟩, fun _ => rfl⟩
  · refine ⟨fun hne => absurd hd (hne m a), fun hne => absurd ?_ hne⟩
    obtain ⟨-, -, rfl⟩ | ⟨-, -, rfl⟩ := Slave.executeC3_ok hx <;> rfl

/-! ### The data write (R49, R137) -/

/-- A write at a cell of the RAM is read back from this cell alone (R45; log entry 19). -/
theorem Slave.cell_write {S S' : Slave} {pp cp : Nat} {b : Byte} (hP : S'.params = S.params)
    (hram : S'.ram = S.ram.write (ramAddr S.params pp cp) b) :
    S'.cell pp cp = some b ∧
      (cp < S.params.ramCols → ∀ p c, c < S.params.ramCols → (p, c) ≠ (pp, cp) → S'.cell p c = S.cell p c) := by
  unfold Slave.cell
  rw [hP, hram]
  refine ⟨Memory.read_write_same _ _ _, fun hcp p c hc hne => Memory.read_write_other b fun ha => hne ?_⟩
  obtain ⟨rfl, rfl⟩ := ramAddr_inj hc hcp ha
  rfl

/-- Settles O18: the data write of a slave whose mapper has all its registers. -/
theorem dataWrite : Obligations.DataWrite := by
  intro S b cs ce cp ps pe pp hmap
  have hcp : cp < S.params.ramCols := by
    obtain ⟨-, -, -, -, -, -, -, -, -, hcp, hce, -⟩ := hmap
    omega
  obtain ⟨hcell, hother⟩ := Slave.cell_write (S := S) (S' := { S with
    ram := S.ram.write (ramAddr S.params pp cp) b
    colPtr := some (if cp = ce then cs else cp + 1)
    pagePtr := some (if cp = ce then (if pp = pe then ps else pp + 1) else pp) }) rfl rfl
  exact ⟨_, Slave.dataByte_mapped b hmap, rfl, hcell, hother hcp⟩

/-! ### Where a data byte has no meaning (R39, R137) -/

/-- The only error of a read is the fault of reading `_|_` (R39). -/
def FailsUnwritten {α : Type} (x : Except Stop α) : Prop := ∀ e, x = .error e → ∃ f, e = .fault (.unwrittenState f)

theorem FailsUnwritten.need {α : Type} (f : Field) (o : Option α) : FailsUnwritten (need f o) := by
  cases o with
  | none =>
    rintro e ⟨⟩
    exact ⟨f, rfl⟩
  | some v => exact nofun

theorem FailsUnwritten.bind {α β : Type} {x : Except Stop α} {k : α → Except Stop β} (hx : FailsUnwritten x)
    (hk : ∀ v, FailsUnwritten (k v)) : FailsUnwritten (x >>= k) := by
  cases x with
  | error e => exact fun e' he => hx e' (by cases he; rfl)
  | ok v => exact hk v

theorem Slave.mapRegs_failsUnwritten (S : Slave) : FailsUnwritten S.mapRegs :=
  .bind (.need _ _) fun _ => .bind (.need _ _) fun _ => .bind (.need _ _) fun _ => .bind (.need _ _) fun _ =>
    .bind (.need _ _) fun _ => .bind (.need _ _) fun _ => .bind (.need _ _) fun _ => nofun

/-- While a register of the mapper holds `_|_`, reading the mapper is such a fault. -/
theorem Slave.mapRegs_unwritten {S : Slave} (h : S.colStart = none ∨ S.colEnd = none ∨ S.colPtr = none ∨ S.pageStart = none ∨
    S.pageEnd = none ∨ S.pagePtr = none) : ∃ f, S.mapRegs = .error (.fault (.unwrittenState f)) := by
  cases hr : S.mapRegs with
  | error e =>
    obtain ⟨f, rfl⟩ := S.mapRegs_failsUnwritten e hr
    exact ⟨f, rfl⟩
  | ok r =>
    obtain ⟨-, h1, h2, h3, h4, h5, h6⟩ := Slave.mapRegs_ok.mp hr
    simp [h1, h2, h3, h4, h5, h6] at h

theorem Slave.dataByte_unmapped {S : Slave} {e : Stop} (b : Byte) (hd : S.dec = some .idle) (hr : S.mapRegs = .error e) :
    S.dataByte b = .error e := by
  simp [Slave.dataByte, hd, hr]

/-- Settles O19: a pending operand comes first, then the registers of the mapper, then the addressing mode. -/
theorem dataWriteStops : Obligations.DataWriteStops := by
  refine fun S b => ⟨fun d hd hne => ?pending, fun hd hmode => ?mode, fun hd hnone => ?register,
    fun m cs ce cp ps pe pp hd hr hm => ?otherMode⟩
  case pending => cases d <;> simp_all [Slave.dataByte]
  case mode => exact Slave.dataByte_unmapped b hd (by simp only [Slave.mapRegs, hmode]; rfl)
  case register =>
    obtain ⟨f, hf⟩ := Slave.mapRegs_unwritten hnone
    exact ⟨f, Slave.dataByte_unmapped b hd hf⟩
  case otherMode => simpa [Slave.dataByte, hd, hr] using fun h => absurd h hm

end Sys2Proof.Machine
end

section
/-! ## A burst of data bytes (20_memory.md rules R49, R50; 60_exceptions.md rule R169) -/

namespace Sys2Proof.Machine

/-! ### The cell of a position of the windows (R50) -/

/-- The column of position `j` in a window of columns `[cs, ce]`. -/
def burstCol (cs ce j : Nat) : Nat := cs + j % (ce - cs + 1)

/-- The page of position `j` in windows of columns `[cs, ce]` and pages `[ps, pe]`. -/
def burstPage (cs ce ps pe j : Nat) : Nat := ps + j / (ce - cs + 1) % (pe - ps + 1)

/-- The slave can take data bytes, its pointer at position `j` of the windows. -/
abbrev Slave.BurstAt (S : Slave) (cs ce ps pe j : Nat) : Prop :=
  S.MapAt cs ce (burstCol cs ce j) ps pe (burstPage cs ce ps pe j)

/-- Counting on by one in rows of `w`: either the row goes on, or it ends and the next begins. -/
theorem succ_div_mod {w : Nat} (hw : 0 < w) (j : Nat) :
    j % w + 1 < w ∧ (j + 1) / w = j / w ∧ (j + 1) % w = j % w + 1 ∨
    j % w + 1 = w ∧ (j + 1) / w = j / w + 1 ∧ (j + 1) % w = 0 := by
  have hj := Nat.mod_add_div j w
  obtain hlt | heq : j % w + 1 < w ∨ j % w + 1 = w := by have := Nat.mod_lt j hw; omega
  · exact .inl ⟨hlt, (Nat.div_mod_unique hw).mpr ⟨by omega, hlt⟩⟩
  · exact .inr ⟨heq, (Nat.div_mod_unique hw).mpr ⟨by rw [Nat.mul_add]; omega, hw⟩⟩

theorem burstCol_succ {cs ce : Nat} (hc : cs ≤ ce) (j : Nat) :
    (if burstCol cs ce j = ce then cs else burstCol cs ce j + 1) = burstCol cs ce (j + 1) := by
  unfold burstCol
  obtain ⟨hlt, -, hmod⟩ | ⟨heq, -, hmod⟩ := succ_div_mod (w := ce - cs + 1) (by omega) j
  · rw [if_neg (by omega), hmod, Nat.add_assoc]
  · rw [if_pos (by omega), hmod, Nat.add_zero]

theorem burstPage_succ {cs ce ps pe : Nat} (hc : cs ≤ ce) (hp : ps ≤ pe) (j : Nat) :
    (if burstCol cs ce j = ce then
       (if burstPage cs ce ps pe j = pe then ps else burstPage cs ce ps pe j + 1)
     else burstPage cs ce ps pe j) = burstPage cs ce ps pe (j + 1) := by
  unfold burstCol burstPage
  obtain ⟨hlt, hdiv, -⟩ | ⟨heq, hdiv, -⟩ := succ_div_mod (w := ce - cs + 1) (by omega) j
  · rw [if_neg (by omega), hdiv]
  · rw [if_pos (by omega), hdiv]
    exact burstCol_succ hp (j / (ce - cs + 1))

/-- Two positions less than a whole window apart are different cells (R50). -/
theorem burst_cell_ne {cs ce ps pe i j : Nat} (hij : i < j) (hj : j < i + (ce - cs + 1) * (pe - ps + 1)) :
    (burstPage cs ce ps pe i, burstCol cs ce i) ≠ (burstPage cs ce ps pe j, burstCol cs ce j) := by
  intro h
  have hpage : i / (ce - cs + 1) % (pe - ps + 1) = j / (ce - cs + 1) % (pe - ps + 1) := Nat.add_left_cancel (Prod.ext_iff.mp h).1
  have hcol : i % (ce - cs + 1) = j % (ce - cs + 1) := Nat.add_left_cancel (Prod.ext_iff.mp h).2
  have hmod : i ≡ j [MOD (ce - cs + 1) * (pe - ps + 1)] := by
    rw [Nat.ModEq, Nat.mod_mul, Nat.mod_mul, hpage, hcol]
  have := Nat.le_of_dvd (by omega) ((Nat.modEq_iff_dvd' hij.le).mp hmod)
  omega

/-! ### One byte, taken or skipped, moves the pointer by one position (R49) -/

section OneByte

variable {S : Slave} {cs ce ps pe j : Nat}

theorem Slave.BurstAt.col_lt (h : S.BurstAt cs ce ps pe j) : burstCol cs ce j < S.params.ramCols := by
  obtain ⟨-, -, -, -, -, -, -, -, -, hcp, hce, -⟩ := h
  omega

/-- The slave with another content of its RAM. -/
def Slave.withRam (ram : Memory) (S : Slave) : Slave := { S with ram := ram }

/-- The pointer at another position of the same windows. -/
def Slave.pointAt (cs ce ps pe j : Nat) (S : Slave) : Slave :=
  { S with colPtr := some (burstCol cs ce j), pagePtr := some (burstPage cs ce ps pe j) }

theorem Slave.BurstAt.pointAt (h : S.BurstAt cs ce ps pe j) (ram : Memory) (k : Nat) :
    ((S.withRam ram).pointAt cs ce ps pe k).BurstAt cs ce ps pe k := by
  obtain ⟨hd, hm, h1, h2, -, h4, h5, -, c1, c2, c3, p1, p2, p3⟩ := h
  have hcol := Nat.mod_lt k (show 0 < ce - cs + 1 by omega)
  have hpage := Nat.mod_lt (k / (ce - cs + 1)) (show 0 < pe - ps + 1 by omega)
  exact ⟨hd, hm, h1, h2, rfl, h4, h5, rfl, Nat.le_add_right _ _, by unfold burstCol; omega, c3, Nat.le_add_right _ _,
    by unfold burstPage; omega, p3⟩

/-- The RAM after the byte `b` at position `j` of the windows. -/
def Slave.ramAfter (S : Slave) (cs ce ps pe j : Nat) (b : Byte) : Memory :=
  S.ram.write (ramAddr S.params (burstPage cs ce ps pe j) (burstCol cs ce j)) b

/-- The data byte at position `j` (R137). -/
theorem Slave.BurstAt.dataByte (h : S.BurstAt cs ce ps pe j) (b : Byte) :
    S.dataByte b = .ok ((S.withRam (S.ramAfter cs ce ps pe j b)).pointAt cs ce ps pe (j + 1)) := by
  have hmap := Slave.dataByte_mapped b h
  obtain ⟨-, -, -, -, -, -, -, -, c1, c2, -, p1, p2, -⟩ := h
  rw [hmap, burstCol_succ (c1.trans c2), burstPage_succ (c1.trans c2) (p1.trans p2)]
  rfl

/-- A data byte that was lost leaves its cell and its position (R169). -/
theorem Slave.BurstAt.skipCell (h : S.BurstAt cs ce ps pe j) : S.skipCell = S.pointAt cs ce ps pe (j + 1) := by
  obtain ⟨-, hm, h1, h2, h3, h4, h5, h6, c1, c2, -, p1, p2, -⟩ := h
  have hr : S.mapRegs = .ok ⟨0, cs, ce, burstCol cs ce j, ps, pe, burstPage cs ce ps pe j⟩ :=
    Slave.mapRegs_ok.mpr ⟨hm, h1, h2, h3, h4, h5, h6⟩
  simp only [Slave.skipCell, hr, Slave.advance, MapRegs.nextCol, MapRegs.nextPage, Slave.pointAt,
    burstCol_succ (c1.trans c2), burstPage_succ (c1.trans c2) (p1.trans p2)]

end OneByte

/-! ### A whole burst -/

/-- The burst `bs`, from position `j` on, leaves the RAM of `S'` where that of `S` was: each cell of the windows holds the last byte
sent to it, every other cell is as before (R50). -/
def Slave.Mirrors (S : Slave) (bs : List Byte) (cs ce ps pe j : Nat) (S' : Slave) : Prop :=
  (∀ k b, bs[k]? = some b → bs.length ≤ k + (ce - cs + 1) * (pe - ps + 1) →
    S'.cell (burstPage cs ce ps pe (j + k)) (burstCol cs ce (j + k)) = some b) ∧
  ∀ p c, c < S.params.ramCols →
    (∀ k, k < bs.length → (p, c) ≠ (burstPage cs ce ps pe (j + k), burstCol cs ce (j + k))) → S'.cell p c = S.cell p c

/-- A burst of a slave that can take it, byte by byte from the front: the cell of the first byte is kept by the later ones, which go to
other cells unless they have gone round the windows. -/
theorem Slave.BurstAt.takeBytes {bs : List Byte} {S : Slave} {cs ce ps pe j : Nat} (h : S.BurstAt cs ce ps pe j) :
    ∃ ram, S.takeBytes (some true) bs = .ok ((S.withRam ram).pointAt cs ce ps pe (j + bs.length)) ∧
      S.Mirrors bs cs ce ps pe j (S.withRam ram) := by
  induction bs generalizing S j with
  | nil =>
    refine ⟨S.ram, ?_, nofun, fun _ _ _ _ => rfl⟩
    obtain ⟨-, -, -, -, h3, -, -, h6, -⟩ := h
    rw [Slave.takeBytes_nil, Slave.pointAt, List.length_nil, Nat.add_zero, ← h3, ← h6]
    rfl
  | cons b bs ih =>
    obtain ⟨ram, htake, hhit, hkept⟩ := ih (h.pointAt (S.ramAfter cs ce ps pe j b) (j + 1))
    obtain ⟨hfirst, hother⟩ := Slave.cell_write (S := S) (S' := S.withRam (S.ramAfter cs ce ps pe j b)) rfl rfl
    refine ⟨ram, ?_, fun k c hk hlen => ?_, fun p c hc hne => ?_⟩
    · rw [Slave.takeBytes_cons, Slave.takeByte_data, h.dataByte, Except.bind, htake, List.length_cons, Nat.add_right_comm j 1]
      rfl
    · cases k with
      | zero =>
        cases hk
        refine (hkept _ _ h.col_lt fun k hk => ?_).trans hfirst
        exact burst_cell_ne (by omega) (by simp at hlen; omega)
      | succ k =>
        have hk' := hhit k c hk (by simp at hlen; omega)
        rwa [Nat.add_right_comm, Nat.add_assoc] at hk'
    · refine (hkept p c hc fun k hk => ?_).trans (hother h.col_lt p c hc (hne 0 (by simp)))
      have hk' := hne (k + 1) (by simpa using hk)
      rwa [← Nat.add_assoc, Nat.add_right_comm] at hk'

/-- Settles O20: each data byte moves the position by one, and cells repeat only after a whole round of the windows. -/
theorem burstMapping : Obligations.BurstMapping := by
  intro S bs cs ce ps pe j h
  obtain ⟨ram, htake, hhit, hkept⟩ := Slave.BurstAt.takeBytes (bs := bs) h
  exact ⟨_, htake, rfl, hhit, hkept⟩

/-- The RAM of `S'` after a failed burst of `bs` to `S` from position `j` on: each cell is as before or holds a byte sent to it
(R169). -/
def Slave.Mixes (S : Slave) (bs : List Byte) (cs ce ps pe j : Nat) (S' : Slave) : Prop :=
  ∀ p c, c < S.params.ramCols → S'.cell p c = S.cell p c ∨
    ∃ k b, bs[k]? = some b ∧ p = burstPage cs ce ps pe (j + k) ∧ c = burstCol cs ce (j + k) ∧ S'.cell p c = some b

/-- A failed burst of a slave that could take it: byte by byte from the front, and in the end the pointer is lost (R169). -/
theorem Slave.BurstAt.failedBurst {pins : Pins} (hres : pins.res = some true) (hcs : pins.cs = some false)
    (hdc : pins.dc = some true) {bs : List Byte} {drawn : List Bool} {S : Slave} {cs ce ps pe j : Nat}
    (h : S.BurstAt cs ce ps pe j) (hp : S.phase = .ready) :
    ∃ ram, S.failedBurst pins bs drawn = .ok (S.withRam ram).losePointer ∧ S.Mixes bs cs ce ps pe j (S.withRam ram) := by
  induction bs generalizing drawn S j with
  | nil => exact ⟨S.ram, rfl, fun _ _ _ => .inl rfl⟩
  | cons b bs ih =>
    have later : ∀ {p c : Nat} {ram : Memory},
        (∃ k b, bs[k]? = some b ∧ p = burstPage cs ce ps pe (j + 1 + k) ∧ c = burstCol cs ce (j + 1 + k) ∧
          (S.withRam ram).cell p c = some b) →
        ∃ k b', (b :: bs)[k]? = some b' ∧ p = burstPage cs ce ps pe (j + k) ∧ c = burstCol cs ce (j + k) ∧
          (S.withRam ram).cell p c = some b' := by
      rintro p c ram ⟨k, b', hk, hpage, hcol, hcell⟩
      rw [Nat.add_right_comm, Nat.add_assoc] at hpage hcol
      exact ⟨k + 1, b', hk, hpage, hcol, hcell⟩
    rw [Slave.failedBurst]
    cases drawn.headD false with
    | true =>
      obtain ⟨hfirst, hother⟩ := Slave.cell_write (S := S) (S' := S.withRam (S.ramAfter cs ce ps pe j b)) rfl rfl
      obtain ⟨ram, hfail, hcells⟩ := ih (drawn := drawn.tail)
        (h.pointAt (S.ramAfter cs ce ps pe j b) (j + 1)) hp
      refine ⟨ram, ?_, fun p c hc => ?_⟩
      · rw [if_pos rfl, Slave.receive_eq [b] hp hres hcs, hdc, Slave.takeBytes_cons, Slave.takeByte_data, h.dataByte]
        exact hfail
      · obtain hsame | hlater := hcells p c hc
        · by_cases hpc : (p, c) = (burstPage cs ce ps pe j, burstCol cs ce j)
          · cases hpc
            exact .inr ⟨0, b, rfl, rfl, rfl, hsame.trans hfirst⟩
          · exact .inl (hsame.trans (hother h.col_lt p c hc hpc))
        · exact .inr (later hlater)
    | false =>
      obtain ⟨ram, hfail, hcells⟩ := ih (drawn := drawn.tail) (h.pointAt S.ram (j + 1)) hp
      refine ⟨ram, ?_, fun p c hc => (hcells p c hc).imp_right later⟩
      rw [if_neg (by simp), h.skipCell]
      exact hfail

end Sys2Proof.Machine
end

section
/-! ## Controller commands, DATA, WCMD and WBUF when their events complete (R67 to R70, R76, R106 to R113, R118) -/

namespace Sys2Proof.Machine

/-! ### Commands on the wire -/

/-- A controller command is sent as its encoded bytes, whatever else it is (R76). -/
theorem exec_command {i : Instr} {s : State} {bytes : List Byte} (h : encode s.params i = .command bytes) :
    exec i s = runInternal (commandFrames bytes) s := by
  cases i
  case wcmd b a => cases a <;> cases h
  all_goals cases h
  all_goals rfl

theorem encode_command_cons {P : Params} {i : Instr} {bytes : List Byte} (h : encode P i = .command bytes) :
    ∃ b rest, bytes = b :: rest := by
  cases i
  case wcmd b a => cases a <;> cases h
  all_goals cases h
  all_goals exact ⟨_, _, rfl⟩

section Sends

variable {s : State}

/-- One command byte that the slave takes, its frame completing. -/
theorem send_byte {b : Byte} {S : Slave} (hl : s.LinkUp) (ha : s.Answers 4) (hb : s.slave.commandByte b = .ok S) :
    runInternal (commandFrames [b]) s = .next (s.afterEvents (commandFrame b) true false S .unit) :=
  send_runs (bytes := [b]) hl (List.cons_ne_nil _ _) ha (by rw [Slave.takeBytes_cons, Slave.takeByte_command, hb]; rfl)

theorem send_byte_stops {b : Byte} {e : Stop} (hl : s.LinkUp) (ha : s.Answers 4) (hb : s.slave.commandByte b = .error e) :
    runInternal (commandFrames [b]) s = e.answer :=
  send_stops (bytes := [b]) hl (List.cons_ne_nil _ _) ha (by rw [Slave.takeBytes_cons, Slave.takeByte_command, hb]; rfl)

/-- A command of format C1 to a slave that takes it as an opcode (R67). -/
theorem send_c1 (hc : s.CommandReady) (ha : s.Answers 4) (m : C1) :
    runInternal (commandFrames [(Command.c1 m).opcode s.params]) s =
      .next (s.afterEvents (commandFrame ((Command.c1 m).opcode s.params)) true false (s.slave.executeC1 m) .unit) :=
  send_byte hc.1 ha (Slave.commandByte_idle hc.2 _)

/-- A command of format C2 (R68). -/
theorem send_c2 (hc : s.CommandReady) (ha : s.Answers 8) (m : C2) (a : Byte) :
    runInternal (commandFrames [(Command.c2 m).opcode s.params, a]) s =
      .next (s.afterEvents (commandFrame ((Command.c2 m).opcode s.params) ++ commandFrame a) true false (s.slave.executeC2 m a)
        .unit) :=
  send_runs (bytes := [(Command.c2 m).opcode s.params, a]) hc.1 (List.cons_ne_nil _ _) ha (Slave.takeBytes_c2 hc.2 [] m a)

/-- A command of format C3 whose bounds the slave takes (R69). -/
theorem send_c3 (hc : s.CommandReady) (ha : s.Answers 12) {m : C3} {a b : Byte} {S : Slave} (hx : s.slave.executeC3 m a b = .ok S) :
    runInternal (commandFrames [(Command.c3 m).opcode s.params, a, b]) s =
      .next (s.afterEvents (commandFrame ((Command.c3 m).opcode s.params) ++ commandFrame a ++ commandFrame b) true false S .unit) :=
  send_runs (bytes := [(Command.c3 m).opcode s.params, a, b]) hc.1 (List.cons_ne_nil _ _) ha
    (by rw [Slave.takeBytes_c3 hc.2, hx]; rfl)

theorem send_c3_stops (hc : s.CommandReady) (ha : s.Answers 12) {m : C3} {a b : Byte} {e : Stop}
    (hx : s.slave.executeC3 m a b = .error e) :
    runInternal (commandFrames [(Command.c3 m).opcode s.params, a, b]) s = e.answer :=
  send_stops (bytes := [(Command.c3 m).opcode s.params, a, b]) hc.1 (List.cons_ne_nil _ _) ha
    (by rw [Slave.takeBytes_c3 hc.2, hx]; rfl)

end Sends

/-- Settles O21: the seven commands of format C1. -/
theorem noOperandCommandsRun : Obligations.NoOperandCommandsRun := fun _ hc ha =>
  have sent := send_c1 hc ha
  ⟨sent .displayOff, sent .setStartLine0, sent .segRemapNormal, sent .comScanNormal, sent .entireDisplayResume, sent .inverseOff,
    sent .displayOn⟩

/-- Settles O22: the eight commands of format C2. -/
theorem operandCommandsRun : Obligations.OperandCommandsRun := fun _ a hc ha =>
  have sent := fun m => send_c2 hc ha m a
  ⟨sent .setContrast, sent .setPrecharge, sent .setVcomh, sent .setDisplayOffset, sent .setClockDiv, sent .setComPins,
    sent .setMuxRatio, sent .setAddrMode⟩

/-! ### The window commands (R135, R136) -/

theorem windowOk_iff {size : Nat} {a b : Byte} : windowOk size a b = true ↔ a.toNat ≤ b.toNat ∧ b.toNat < size := by
  simp [windowOk]

section Windows

variable {S : Slave} {a b : Byte}

theorem Slave.setColumnAddr_legal (h : a.toNat ≤ b.toNat ∧ b.toNat < S.params.ramCols) :
    S.executeC3 .setColumnAddr a b = .ok { S with colStart := some a.toNat, colEnd := some b.toNat, colPtr := some a.toNat } :=
  if_pos (windowOk_iff.mpr h)

theorem Slave.setColumnAddr_illegal (h : ¬(a.toNat ≤ b.toNat ∧ b.toNat < S.params.ramCols)) :
    S.executeC3 .setColumnAddr a b = .error (.refuse (.badColumnWindow a b)) :=
  if_neg (mt windowOk_iff.mp h)

theorem Slave.setPageAddr_legal (h : a.toNat ≤ b.toNat ∧ b.toNat < S.params.ramPages) :
    S.executeC3 .setPageAddr a b = .ok { S with pageStart := some a.toNat, pageEnd := some b.toNat, pagePtr := some a.toNat } :=
  if_pos (windowOk_iff.mpr h)

theorem Slave.setPageAddr_illegal (h : ¬(a.toNat ≤ b.toNat ∧ b.toNat < S.params.ramPages)) :
    S.executeC3 .setPageAddr a b = .error (.refuse (.badPageWindow a b)) :=
  if_neg (mt windowOk_iff.mp h)

end Windows

/-- Settles O23: the two window commands, with bounds the slave takes and with bounds it refuses. -/
theorem windowCommandsRun : Obligations.WindowCommandsRun := by
  refine fun s a b hc ha => ⟨fun hab hb => ?_, fun h => ?_, fun hab hb => ?_, fun h => ?_⟩
  · exact send_c3 (m := .setColumnAddr) hc ha (Slave.setColumnAddr_legal ⟨hab, hb⟩)
  · exact send_c3_stops (m := .setColumnAddr) hc ha (Slave.setColumnAddr_illegal h)
  · exact send_c3 (m := .setPageAddr) hc ha (Slave.setPageAddr_legal ⟨hab, hb⟩)
  · exact send_c3_stops (m := .setPageAddr) hc ha (Slave.setPageAddr_illegal h)

/-! ### The framer: its arguments as bytes (R113) -/

theorem runInternal_whenFree (as : List Action) (s : State) : whenFree s (runInternal as s) = runInternal as s := by
  unfold runInternal whenFree
  split <;> rfl

theorem wcmdBytes_byte (b : Byte) : wcmdBytes b.toNat none = some [b] := asBytes_toNat [b]

theorem wcmdBytes_operand (b a : Byte) : wcmdBytes b.toNat (some a.toNat) = some [b, a] := asBytes_toNat [b, a]

theorem exec_wcmd {b : Int} {a : Option Int} {bytes : List Byte} (h : wcmdBytes b a = some bytes) (s : State) :
    exec (.wcmd b a) s = runInternal (commandFrames bytes) s := by
  rw [exec, execWcmd, h]
  exact runInternal_whenFree _ s

theorem exec_wbuf {bs : List Byte} (hne : bs ≠ []) (s : State) :
    exec (.wbuf (bs.map (fun b => (b.toNat : Int)))) s = runInternal (burstFrame bs) s := by
  rw [exec, execWbuf, asBytes_toNat]
  cases bs with
  | nil => exact absurd rfl hne
  | cons b bs => exact runInternal_whenFree _ s

theorem wcmdBytes_none {v : Int} {w : Option Int} (h : (v < 0 ∨ 255 < v) ∨ ∃ x, w = some x ∧ (x < 0 ∨ 255 < x)) :
    wcmdBytes v w = none := by
  obtain hv | ⟨x, rfl, hx⟩ := h
  · cases w <;> exact asBytes_none List.mem_cons_self hv
  · exact asBytes_none (List.mem_cons_of_mem _ List.mem_cons_self) hx

/-- Settles O24: each pending state of the decoder takes the byte as its operand, and a line of one byte is WCMD of it. -/
theorem pendingTakesOpcodeAsOperand : Obligations.PendingTakesOpcodeAsOperand := by
  intro s b hl ha
  rw [exec_wcmd (wcmdBytes_byte b)]
  refine ⟨fun m hd => ?_, fun m hd => ?_, fun a hd => ⟨fun hab hb => ?_, fun h => ?_⟩, fun a hd => ⟨fun hab hb => ?_, fun h => ?_⟩,
    fun i hi => exec_command hi⟩
  · exact send_byte hl ha (Slave.commandByte_pendingOne hd b)
  · exact send_byte hl ha (Slave.commandByte_pendingTwo hd b)
  · exact send_byte hl ha ((Slave.commandByte_pendingEnd hd b).trans (Slave.setColumnAddr_legal ⟨hab, hb⟩))
  · exact send_byte_stops hl ha ((Slave.commandByte_pendingEnd hd b).trans (Slave.setColumnAddr_illegal h))
  · exact send_byte hl ha ((Slave.commandByte_pendingEnd hd b).trans (Slave.setPageAddr_legal ⟨hab, hb⟩))
  · exact send_byte_stops hl ha ((Slave.commandByte_pendingEnd hd b).trans (Slave.setPageAddr_illegal h))

/-- Settles O27: WCMD is its bytes in command frames; an argument that is no byte is looked at first. -/
theorem wcmdRuns : Obligations.WcmdRuns := by
  refine ⟨fun s b a S hl => ?_, fun s v w hs h => ?_⟩
  · rw [exec_wcmd (wcmdBytes_byte b), exec_wcmd (wcmdBytes_operand b a)]
    exact ⟨fun ha hb => send_byte hl ha hb, fun ha ht => send_runs (bytes := [b, a]) hl (List.cons_ne_nil _ _) ha ht,
      fun e ha hb => send_byte_stops hl ha hb, fun e ha ht => send_stops (bytes := [b, a]) hl (List.cons_ne_nil _ _) ha ht⟩
  · rw [exec, execWcmd, whenFree_free _ hs, wcmdBytes_none h]

/-- Settles O28: WBUF is its bytes in one data frame; an empty list and an element that is no byte are looked at first. -/
theorem wbufRuns : Obligations.WbufRuns := by
  refine ⟨fun s bs S hl ha => ⟨fun hne ht => ?_, fun e hne ht => ?_⟩, fun s hs => ⟨?_, fun vs v hv hout => ?_⟩⟩
  · rw [exec_wbuf hne, burst_runs hl ha ht]
  · rw [exec_wbuf hne, burst_stops hl ha ht]
  · rw [exec, execWbuf, whenFree_free _ hs]
    rfl
  · rw [exec, execWbuf, whenFree_free _ hs, asBytes_none hv hout]

/-! ### DATA (R70, R137) -/

theorem takeBytes_dataByte (b : Byte) (S : Slave) : S.takeBytes (some true) [b] = S.dataByte b := by
  rw [Slave.takeBytes_cons, Slave.takeByte_data]
  cases S.dataByte b <;> rfl

/-- Settles O26: DATA is one data byte in a data frame. -/
theorem dataRuns : Obligations.DataRuns := by
  intro s b hl ha
  refine ⟨fun e he => burst_stops hl ha ((takeBytes_dataByte b _).trans he), fun cs ce cp ps pe pp hmap => ?_⟩
  exact ⟨_, burst_runs hl ha ((takeBytes_dataByte b _).trans (Slave.dataByte_mapped b hmap)), rfl, Memory.read_write_same _ _ _,
    fun a hne => Memory.read_write_other b hne⟩

/-! ### A slave that is not ready (R118) -/

/-- An event list whose first events complete and then meet a stop stops there. -/
theorem performAll_stops {es : List Event} {as : List Action} {s : State} {e : Stop}
    (ha : s.answers.take es.length = List.replicate es.length .ok) (hd : State.deliverAll es s = .error e) :
    performAll (es.map .event ++ as) s = .stop e := by
  rw [performAll_append, performAll_events ha, hd]
  rfl

/-- Settles O25: the gate is met by the first transmission of the frame, which the pin events before it do not open. -/
theorem unreadySlaveRefused : Obligations.UnreadySlaveRefused := by
  intro s hadm hready
  have hgate : ∀ cs dc bs, s.slave.receive ⟨cs, dc, s.master.pins.res⟩ bs = .error (.refuse .slaveNotReady) := fun cs dc bs =>
    Slave.receive_refused bs (Slave.receiveRefusal_slaveNotReady hready)
  refine ⟨fun ha i bytes hi => ?command, fun ha b => ?data⟩
  case command =>
    obtain ⟨b, rest, rfl⟩ := encode_command_cons hi
    have hstop := performAll_stops (es := [.pin .dc false, .pin .cs false, .tx [b]]) (e := .refuse .slaveNotReady)
      (as := .event (.pin .cs true) :: commandFrames rest) ha.2
      (by simp [State.deliverAll, State.deliver, Slave.onPin, Except.bind, Pins.set, hgate])
    rw [exec_command hi, runInternal_admitted _ ha.1 hadm]
    exact congrArg (Flow.finish .unit) hstop
  case data =>
    have hstop := performAll_stops (es := [.pin .cs true, .pin .dc true, .pin .cs false, .tx [b]]) (e := .refuse .slaveNotReady)
      (as := [.event (.pin .cs true)]) ha.2
      (by simp [State.deliverAll, State.deliver, Slave.onPin, Except.bind, Pins.set, hgate])
    rw [exec, execData, runInternal_admitted _ ha.1 hadm]
    exact congrArg (Flow.finish .unit) hstop

end Sys2Proof.Machine
end

section
/-! ## RESET, INIT and RENDER when their events complete (R83, R90, R95, R96) -/

namespace Sys2Proof.Machine

/-- Settles O30: an admitted RESET is the reset pulse. -/
theorem resetRuns : Obligations.ResetRuns := by
  intro s hadm ha hheld
  obtain ⟨d1, d2, h1, h2, hwaits, hrun⟩ := perform_reset hheld ha.2
  refine ⟨d1, d2, h1, h2, hwaits, ?_⟩
  rw [exec, execReset, runInternal_admitted _ ha.1 hadm, hrun]
  rfl

/-! ### A program of commands without window commands (R97, R119) -/

/-- A command of format C1, or of format C2 with its operand. -/
abbrev RegisterWrite := C1 ⊕ (C2 × Byte)

def RegisterWrite.bytes (P : Params) : RegisterWrite → List Byte
  | .inl m => [(Command.c1 m).opcode P]
  | .inr (m, a) => [(Command.c2 m).opcode P, a]

def RegisterWrite.apply (S : Slave) : RegisterWrite → Slave
  | .inl m => S.executeC1 m
  | .inr (m, a) => S.executeC2 m a

/-- An idle slave takes the bytes of such a program as its commands, in order. -/
theorem Slave.takeBytes_program (prog : List RegisterWrite) {S : Slave} (hd : S.dec = some .idle) :
    S.takeBytes (some false) (prog.flatMap (RegisterWrite.bytes S.params)) = .ok (prog.foldl RegisterWrite.apply S) := by
  induction prog generalizing S with
  | nil => rfl
  | cons x prog ih =>
    rw [List.flatMap_cons, List.foldl_cons]
    obtain m | ⟨m, a⟩ := x
    · have hrest := ih (S := S.executeC1 m) ((Slave.executeC1_dec m S).trans hd)
      rw [Slave.executeC1_params] at hrest
      exact (Slave.takeBytes_c1 hd _ m).trans hrest
    · have hrest := ih (S := S.executeC2 m a) ((Slave.executeC2_dec m a S).trans hd)
      rw [Slave.executeC2_params] at hrest
      exact (Slave.takeBytes_c2 hd _ m a).trans hrest

/-- The fifteen commands of INIT (R96). -/
def initProgram (w h : Nat) : List RegisterWrite :=
  [.inl .displayOff, .inr (.setContrast, 0xFF), .inr (.setPrecharge, 0xF1), .inr (.setVcomh, 0x40), .inl .setStartLine0,
   .inr (.setDisplayOffset, 0x00), .inr (.setClockDiv, 0x80), .inr (.setComPins, compins w h), .inl .segRemapNormal,
   .inl .comScanNormal, .inr (.setMuxRatio, operandByte (h - 1)), .inr (.setAddrMode, 0x00), .inl .entireDisplayResume,
   .inl .inverseOff, .inl .displayOn]

theorem initBytes_eq (P : Params) (w h : Nat) : initBytes P w h = (initProgram w h).flatMap (RegisterWrite.bytes P) := rfl

/-- The slave with its fourteen configuration registers as INIT writes them (R44). -/
def Slave.initialised (w h : Nat) (S : Slave) : Slave :=
  { S with
    dispOn := some true, contrast := some 0xFF, precharge := some 0xF1, vcomh := some 0x40, startLine := some 0,
    offset := some 0x00, clkdiv := some 0x80, compins := some (Sys2Proof.Machine.compins w h), segRemap := some .normal,
    comScan := some .normal, mux := some (operandByte (h - 1)), addrMode := some 0x00, entireOn := some .resume,
    inverse := some .off }

theorem Slave.takeBytes_initBytes {S : Slave} (hd : S.dec = some .idle) (w h : Nat) :
    S.takeBytes (some false) (initBytes S.params w h) = .ok (S.initialised w h) := by
  rw [initBytes_eq, Slave.takeBytes_program _ hd]
  simp only [initProgram, List.foldl, RegisterWrite.apply, Slave.executeC1, Slave.executeC2, Slave.displayOff, Slave.setContrast,
    Slave.setPrecharge, Slave.setVcomh, Slave.setStartLine0, Slave.setDisplayOffset, Slave.setClockDiv, Slave.setComPins,
    Slave.segRemapNormal, Slave.comScanNormal, Slave.setMuxRatio, Slave.setAddrMode, Slave.entireDisplayResume, Slave.inverseOff,
    Slave.displayOn, Slave.initialised]

/-- Settles O32: the list as it is defined, and the operand as it is defined. -/
theorem initByteList : Obligations.InitByteList := ⟨fun _ _ _ => rfl, fun _ _ => rfl⟩

/-- Once it has a geometry, INIT is sent as its bytes in command frames, like any command (R95). -/
theorem exec_init {s : State} {w h : Nat} (hw : s.master.width = some w) (hh : s.master.height = some h) :
    exec .init s = runInternal (commandFrames (initBytes s.params w h)) s := by
  simp only [exec, execInit, State.geometry, hw, hh]
  rfl

/-- Settles O33: the 23 bytes of INIT are fifteen commands that write the fourteen registers. -/
theorem initRuns : Obligations.InitRuns := by
  intro s w h hc hw hh ha
  rw [exec_init hw hh]
  exact send_runs hc.1 (List.cons_ne_nil _ _) ha (Slave.takeBytes_initBytes hc.2 w h)

/-! ### RENDER -/

/-- The slave with the windows of RENDER, its pointer at their start (R83). -/
def Slave.renderWindow (w h : Nat) (S : Slave) : Slave :=
  { S with
    colStart := some 0, colEnd := some (w - 1), colPtr := some 0,
    pageStart := some 0, pageEnd := some (h / 8 - 1), pagePtr := some 0 }

theorem operandByte_toNat {n : Nat} (h : n < 256) : (operandByte n).toNat = n := by
  rw [operandByte, BitVec.toNat_ofNat, Nat.mod_eq_of_lt h]

section Render

variable {S : Slave} {w h : Nat} (hok : GeometryOk S.params w h)
include hok

/-- The six command bytes of RENDER set both windows (R83, R135, R136). -/
theorem Slave.takeBytes_renderBytes (hd : S.dec = some .idle) :
    S.takeBytes (some false) (renderBytes S.params w h) = .ok (S.renderWindow w h) := by
  obtain ⟨hw, hwr, hh, hhr, h8⟩ := hok
  have hcols := S.params.legal.2.1
  have hpages := S.params.legal.2.2.1
  have hwb : (operandByte (w - 1)).toNat = w - 1 := operandByte_toNat (by omega)
  have hhb : (operandByte (h / 8 - 1)).toNat = h / 8 - 1 := operandByte_toNat (by omega)
  have hcol := Slave.setColumnAddr_legal (S := S) (a := 0x00) (b := operandByte (w - 1)) (by rw [hwb]; simp; omega)
  have hpage := Slave.setPageAddr_legal (a := 0x00) (b := operandByte (h / 8 - 1))
    (S := { S with colStart := some 0, colEnd := some (w - 1), colPtr := some 0 }) (by rw [hhb]; simp; omega)
  rw [hwb] at hcol
  rw [hhb] at hpage
  refine (Slave.takeBytes_c3 hd _ .setColumnAddr _ _).trans ?_
  rw [hcol]
  refine (Slave.takeBytes_c3 (S := { S with colStart := some 0, colEnd := some (w - 1), colPtr := some 0 }) hd _ .setPageAddr _
    _).trans ?_
  rw [hpage]
  rfl

theorem Slave.renderWindow_burstAt (hd : S.dec = some .idle) (hm : S.addrMode = some 0x00) :
    (S.renderWindow w h).BurstAt 0 (w - 1) 0 (h / 8 - 1) 0 := by
  obtain ⟨hw, hwr, hh, hhr, h8⟩ := hok
  refine ⟨hd, hm, rfl, rfl, ?_, rfl, rfl, ?_, ?_⟩
  · simp [Slave.renderWindow, burstCol]
  · simp [Slave.renderWindow, burstPage]
  · simp [Slave.renderWindow, burstCol, burstPage]
    omega

end Render

end Sys2Proof.Machine
end

section
/-! ## RENDER, CLEAR and CONSTRUCT mirror the buffer (R51, R80, R83, R84) -/

namespace Sys2Proof.Machine

/-! ### The cells of RENDER's window -/

section Window

variable {P : Params} {w h : Nat} (hok : GeometryOk P w h)
include hok

theorem burstCol_render (k : Nat) : burstCol 0 (w - 1) k = k % w := by
  have hw := hok.1
  rw [burstCol, Nat.zero_add, Nat.sub_zero, Nat.sub_add_cancel hw]

theorem burstPage_render (k : Nat) : burstPage 0 (w - 1) 0 (h / 8 - 1) k = k / w % (h / 8) := by
  obtain ⟨hw, -, hh, -, h8⟩ := hok
  rw [burstPage, Nat.zero_add, Nat.sub_zero, Nat.sub_zero, Nat.sub_add_cancel hw, Nat.sub_add_cancel (by omega)]

/-- The byte at index `c + w * p` of the buffer goes to the cell of page `p` and column `c` (R51). -/
theorem burst_render_cell {p c : Nat} (hp : p < h / 8) (hc : c < w) :
    burstPage 0 (w - 1) 0 (h / 8 - 1) (c + w * p) = p ∧ burstCol 0 (w - 1) (c + w * p) = c := by
  obtain ⟨hdiv, hmod⟩ := (Nat.div_mod_unique hok.1).mpr ⟨rfl, hc⟩
  rw [burstPage_render hok, burstCol_render hok, hdiv, hmod, Nat.mod_eq_of_lt hp]
  exact ⟨rfl, rfl⟩

theorem index_lt_bufferSize {p c : Nat} (hp : p < h / 8) (hc : c < w) : c + w * p < bufferSize w h := by
  have := Nat.mul_le_mul_left w hp
  rw [bufferSize_eq hok]
  rw [Nat.mul_succ] at this
  omega

/-- Every position of RENDER's burst is a cell of its window. -/
theorem inWindow_burst (k : Nat) :
    InWindow P w h (ramAddr P (burstPage 0 (w - 1) 0 (h / 8 - 1) k) (burstCol 0 (w - 1) k)) := by
  have hpages : 0 < h / 8 := by
    obtain ⟨-, -, hh, -, h8⟩ := hok
    omega
  exact ⟨_, _, by rw [burstPage_render hok]; exact Nat.mod_lt _ hpages, by rw [burstCol_render hok]; exact Nat.mod_lt _ hok.1, rfl⟩

/-- Every address is that of a cell inside the columns of the RAM (log entry 19). -/
theorem exists_ramAddr (a : Nat) : ∃ p c, c < P.ramCols ∧ a = ramAddr P p c :=
  ⟨a / P.ramCols, a % P.ramCols, Nat.mod_lt _ (hok.1.trans_le hok.2.1), by
    rw [ramAddr, Nat.mul_comm]; exact (Nat.div_add_mod _ _).symm⟩

end Window

/-- The RAM of `S'` where RENDER sent `content` to `S`: the window holds it, every other cell is as before (R51). -/
def Slave.ShowsContent (S : Slave) (w h : Nat) (content : List Byte) (S' : Slave) : Prop :=
  (∀ p c, p < h / 8 → c < w → S'.cell p c = content[c + w * p]?) ∧
  ∀ a, ¬InWindow S.params w h a → S'.ram.read a = S.ram.read a

/-- A burst as long as the window fills it, one byte to each cell. -/
theorem Slave.Mirrors.showsContent {S : Slave} {ram : Memory} {w h : Nat} {content : List Byte} (hok : GeometryOk S.params w h)
    (hlen : content.length = bufferSize w h) (hm : S.Mirrors content 0 (w - 1) 0 (h / 8 - 1) 0 (S.withRam ram)) :
    S.ShowsContent w h content (S.withRam ram) := by
  obtain ⟨hhit, hkept⟩ := hm
  refine ⟨fun p c hp hc => ?_, fun a ha => ?_⟩
  · have hk : c + w * p < content.length := by rw [hlen]; exact index_lt_bufferSize hok hp hc
    obtain ⟨hpage, hcol⟩ := burst_render_cell hok hp hc
    have hround : content.length ≤ c + w * p + (w - 1 - 0 + 1) * (h / 8 - 1 - 0 + 1) := by
      obtain ⟨hw, -, hh, -, h8⟩ := id hok
      rw [hlen, bufferSize_eq hok, Nat.sub_zero, Nat.sub_zero, Nat.sub_add_cancel hw, Nat.sub_add_cancel (by omega)]
      exact Nat.le_add_left _ _
    have := hhit (c + w * p) _ (List.getElem?_eq_getElem hk) hround
    rwa [Nat.zero_add, hpage, hcol, ← List.getElem?_eq_getElem hk] at this
  · obtain ⟨p, c, hc, rfl⟩ := exists_ramAddr hok a
    refine hkept p c hc fun k _ heq => ha ?_
    cases heq
    exact inWindow_burst hok _

/-- After the whole window the pointer is back at its start (R51). -/
theorem Slave.pointAt_renderWindow {S : Slave} {w h : Nat} (hok : GeometryOk S.params w h) (ram : Memory) :
    ((S.renderWindow w h).withRam ram).pointAt 0 (w - 1) 0 (h / 8 - 1) (bufferSize w h) = (S.renderWindow w h).withRam ram := by
  rw [Slave.pointAt, burstCol_render hok, burstPage_render hok, bufferSize_eq hok, Nat.mul_mod_right, Nat.mul_div_cancel_left _ hok.1,
    Nat.mod_self]
  rfl

/-! ### RENDER's event list -/

/-- The next answers complete, after some that did. -/
theorem take_drop_replicate {α : Type} {l : List α} {x : α} {m n k : Nat} (h : l.take n = List.replicate n x) (hk : m + k ≤ n) :
    (l.drop m).take k = List.replicate k x := by
  have : (l.drop m).take k = ((l.take n).drop m).take k := by
    rw [List.drop_take, List.take_take, Nat.min_eq_left (by omega)]
  rw [this, h, List.drop_replicate, List.take_replicate, Nat.min_eq_left (by omega)]

theorem take_replicate_le {α : Type} {l : List α} {x : α} {n k : Nat} (h : l.take n = List.replicate n x) (hk : k ≤ n) :
    l.take k = List.replicate k x := by
  simpa using take_drop_replicate (m := 0) h (by omega)

theorem okEntries_append (es fs : List Event) : okEntries (es ++ fs) = okEntries es ++ okEntries fs := by
  simp [okEntries]

/-- The windows and then the burst, each after the other completed (R83). -/
theorem perform_render {s : State} {w h : Nat} {content : List Byte} (hok : GeometryOk s.params w h)
    (hlen : content.length = bufferSize w h) (hp : s.slave.phase = .ready) (hr : s.master.pins.res = some true)
    (hd : s.slave.dec = some .idle) (hm : s.slave.addrMode = some 0x00) (ha : s.answers.take 29 = List.replicate 29 .ok) :
    ∃ ram, performAll (renderActions s.params w h content) s = .run { s with
        master := { s.master with pins := ⟨some true, some true, s.master.pins.res⟩ }
        trace := s.trace ++ okEntries ((renderBytes s.params w h).flatMap commandFrame ++ dataFrame content)
        slave := (s.slave.renderWindow w h).withRam ram
        answers := s.answers.drop 29 } ∧
      s.slave.ShowsContent w h content ((s.slave.renderWindow w h).withRam ram) := by
  have hburst := Slave.renderWindow_burstAt hok hd hm
  obtain ⟨ram, htake, hmirrors⟩ := hburst.takeBytes (bs := content)
  have hshows := hmirrors.showsContent hok hlen
  rw [Nat.zero_add, hlen, Slave.pointAt_renderWindow hok] at htake
  refine ⟨ram, ?_, hshows⟩
  rw [renderActions, performAll_append,
    perform_frames (bytes := renderBytes s.params w h) (List.cons_ne_nil _ _) hp hr (take_replicate_le ha (by simp [renderBytes])),
    Slave.takeBytes_renderBytes hok hd]
  simp only [Flow.andThen_run]
  rw [perform_burst (by exact hp) (by exact hr) (take_drop_replicate ha (by simp [renderBytes]))]
  simp only [htake, List.drop_drop, okEntries_append, List.append_assoc]
  rfl

/-! ### RENDER and CLEAR -/

section Constructed

variable {s : State} {w h : Nat} (hc : s.Constructed w h)
include hc

theorem State.Constructed.geometryOk : GeometryOk s.params w h := by
  obtain ⟨-, -, -, -, hok, -⟩ := hc
  exact hok

theorem State.Constructed.content : ∃ content, s.master.fb.readRange 0 (bufferSize w h) = some content ∧
    content.length = bufferSize w h ∧ ∀ k, k < bufferSize w h → content[k]? = s.master.fb.read k := by
  obtain ⟨-, -, -, -, -, hkeys⟩ := hc
  obtain ⟨content, hread⟩ := Memory.readRange_of_keys hkeys
  obtain ⟨hlen, hbytes⟩ := Memory.readRange_eq_some.mp hread
  exact ⟨content, hread, hlen, fun k hk => by rw [← hbytes k hk, Nat.zero_add]⟩

/-- On a constructed block RENDER is one event list (R83). -/
theorem State.Constructed.exec_render {content : List Byte} (hread : s.master.fb.readRange 0 (bufferSize w h) = some content) :
    exec .render s = (performAll (renderActions s.params w h content) s).finish .unit := by
  obtain ⟨hs, hlife, hw, hh, -⟩ := hc
  simp only [exec, execRender, whenFree_free _ hs, hlife]
  rw [renderBody_eq hw hh hread]

/-- On a constructed block CLEAR zeroes the buffer, and then is the event list of RENDER (R84). -/
theorem State.Constructed.exec_clear : exec .clear s =
    (performAll (renderActions s.params w h (List.replicate (bufferSize w h) 0x00))
      { s with master := { s.master with fb := Memory.filled (bufferSize w h) 0x00 } }).finish .unit := by
  obtain ⟨hs, hlife, hw, hh, -⟩ := hc
  simp only [exec, execClear, whenFree_free _ hs, hlife, State.fillBuffer, State.geometry, hw, hh]
  rw [renderBody_eq]
  · rfl
  · rfl
  · exact Memory.readRange_filled _ _

end Constructed

/-- Settles O34: the buffer is as long as RENDER's window, so its burst writes each cell of it once. -/
theorem renderMirrorsBuffer : Obligations.RenderMirrorsBuffer := by
  intro s w h hc hready hm ha
  obtain ⟨content, hread, hlen, hbytes⟩ := hc.content
  have hok := hc.geometryOk
  obtain ⟨⟨-, hp, hr⟩, hd⟩ := hready
  obtain ⟨ram, hrun, hcells, houtside⟩ := perform_render (content := content) hok hlen hp hr hd hm ha.2
  refine ⟨_, content, by rw [hc.exec_render hread, hrun, Flow.finish_run], hlen, hbytes, rfl, fun p c hp hc => ?_, houtside⟩
  exact (hcells p c hp hc).trans (hbytes _ (index_lt_bufferSize hok hp hc))

/-- Settles O35: RENDER's event list with a buffer of zeros. -/
theorem clearIsTotal : Obligations.ClearIsTotal := by
  intro s w h hc hready hm ha
  have hok := hc.geometryOk
  obtain ⟨⟨-, hp, hr⟩, hd⟩ := hready
  obtain ⟨ram, hrun, hcells, houtside⟩ :=
    perform_render (s := { s with master := { s.master with fb := Memory.filled (bufferSize w h) 0x00 } })
      (content := List.replicate (bufferSize w h) 0x00) hok (by simp) hp hr hd hm ha.2
  refine ⟨_, by rw [hc.exec_clear, hrun, Flow.finish_run], rfl, fun i hi => ?_, fun p c hp hc => ?_, houtside⟩
  · exact (Memory.read_filled _ _ i).trans (if_pos hi)
  · exact (hcells p c hp hc).trans (List.getElem?_replicate_of_lt (index_lt_bufferSize hok hp hc))

end Sys2Proof.Machine
end

section
/-! ## CONSTRUCT when its events complete (R44, R80) -/

namespace Sys2Proof.Machine

/-- The slave right after a valid reset whose low phase lasted `d` (R43). -/
def Slave.fresh (P : Params) (d : Nat) : Slave :=
  { Slave.powerOn P with phase := .ready, dec := some .idle, resLowUs := some d }

/-- The events that configure the three pins (R80). -/
def pinConfiguration : List Event := [.pinCfg .cs true, .pinCfg .dc false, .pinCfg .res true]

theorem tail_three {α : Type} (l : List α) : l.tail.tail.tail = l.drop 3 := by
  simp only [← List.drop_one, List.drop_drop]

theorem performAll_append_of_run {as bs : List Action} {s t : State} (h : performAll as s = .run t) :
    performAll (as ++ bs) s = performAll bs t := by
  rw [performAll_append, h, Flow.andThen_run]

/-- The pins configured, the slave having seen its reset line high (R80, R115). -/
theorem perform_pinConfiguration {s : State} {S : Slave} (hS : s.slave.onPin .res true = .ok S)
    (ha : s.answers.take 3 = List.replicate 3 .ok) :
    performAll (pinConfiguration.map .event) s = .run { s with
      master := { s.master with pins := ⟨some true, some false, some true⟩ }
      trace := s.trace ++ okEntries pinConfiguration
      slave := S
      answers := s.answers.drop 3 } := by
  have hdeliver : State.deliverAll pinConfiguration s = .ok { s with
      master := { s.master with pins := ⟨some true, some false, some true⟩ }
      trace := s.trace ++ okEntries pinConfiguration
      slave := S
      answers := s.answers.drop 3 } := by
    have hcs : s.slave.onPin .cs true = .ok s.slave := rfl
    have hdc : s.slave.onPin .dc false = .ok s.slave := rfl
    simp [pinConfiguration, State.deliverAll, State.deliver, hcs, hdc, hS, Except.bind, State.record, State.popAnswer, Pins.set,
      okEntries, tail_three]
  rw [performAll_events (es := pinConfiguration) ha, hdeliver]

/-- The events of the bring-up, with the two waits the environment drew (R80, R90, R95). -/
def bringUpEvents (P : Params) (w h d1 d2 : Nat) : List Event :=
  pinConfiguration ++ [.pin .res true, .wait d1, .pin .res false, .wait d2, .pin .res true] ++
    (initBytes P w h).flatMap commandFrame

/-- The state after the bring-up (R44). -/
def State.broughtUp (w h d1 d2 : Nat) (s : State) : State :=
  { s with
    master := { s.master with pins := ⟨some true, some false, some true⟩ }
    trace := s.trace ++ okEntries (bringUpEvents s.params w h d1 d2)
    slave := (Slave.fresh s.params d2).initialised w h
    answers := s.answers.drop 98
    waits := s.waits.drop 2 }

/-- CONSTRUCT up to its first RENDER, on any block whose reset line is not in the middle of a pulse (R44, R80). -/
theorem perform_bringUp {s : State} (w h : Nat) (hheld : s.slave.LowPhaseHeld) (ha : s.answers.take 98 = List.replicate 98 .ok) :
    ∃ d1 d2, 1000 ≤ d1 ∧ 10000 ≤ d2 ∧ performAll (bringUpActions s.params w h) s = .run (s.broughtUp w h d1 d2) := by
  obtain ⟨S, hS, hphase⟩ := Slave.resetHigh_held hheld
  have hconfig := perform_pinConfiguration hS (take_replicate_le ha (by omega))
  obtain ⟨d1, d2, h1, h2, -, hreset⟩ := perform_reset (s := { s with
      master := { s.master with pins := ⟨some true, some false, some true⟩ }
      trace := s.trace ++ okEntries pinConfiguration
      slave := S
      answers := s.answers.drop 3 }) (Slave.held_of_phase hphase) (take_drop_replicate ha (by omega))
  have hinit := perform_frames (bytes := initBytes s.params w h) (s := { s with
      master := { s.master with pins := ⟨some true, some false, some true⟩ }
      trace := s.trace ++ okEntries pinConfiguration ++ okEntries [.pin .res true, .wait d1, .pin .res false, .wait d2, .pin .res true]
      slave := Slave.fresh s.params d2
      answers := s.answers.drop 6
      waits := s.waits.drop 2 }) (List.cons_ne_nil _ _) rfl rfl (take_drop_replicate ha (by simp [initBytes]))
  have hbytes : (Slave.fresh s.params d2).takeBytes (some false) (initBytes s.params w h) =
      .ok ((Slave.fresh s.params d2).initialised w h) :=
    Slave.takeBytes_initBytes (S := Slave.fresh s.params d2) rfl w h
  rw [hbytes] at hinit
  refine ⟨d1, d2, h1, h2, ?_⟩
  have hparams : S.params = s.params := Slave.onPin_params hS
  rw [State.params, hparams] at hreset
  have hlist : bringUpActions s.params w h = pinConfiguration.map .event ++ (resetPulse ++ initActions s.params w h) := by
    rw [bringUpActions, List.append_assoc]
    rfl
  rw [hlist, performAll_append_of_run hconfig, performAll_append_of_run hreset]
  simp only [List.drop_drop]
  refine hinit.trans ?_
  simp only [State.broughtUp, bringUpEvents, okEntries_append, List.append_assoc, List.drop_drop]
  rfl

theorem geometryError_none {w h : Int} (hw : 0 < w) (hh : 0 < h) (h8 : h % 8 = 0) : geometryError w h = none := by
  rw [geometryError, if_neg (by omega), if_neg (by omega), if_neg (by omega)]

/-- CONSTRUCT of a legal geometry on a block that is free and not constructed runs its body (R80 to R82). -/
theorem exec_construct {s : State} {w h : Nat} (pins : PinAssignment) (hs : s.hung = false) (hlife : s.master.life = .uninit)
    (hok : GeometryOk s.params w h) : exec (.construct w h pins) s = (constructBody w h s).finish .unit := by
  obtain ⟨hw, hwr, hh, hhr, h8⟩ := hok
  have hgeom : geometryError w h = none := geometryError_none (by omega) (by omega) (by omega)
  have hfits : exceedsRam s.params w h = false := by
    simp only [exceedsRam, decide_eq_false_iff_not]
    omega
  simp only [exec, execConstruct, whenFree_free _ hs, hlife, hgeom, hfits]
  rfl

/-- Settles O37: the bring-up leaves a slave ready for RENDER, and RENDER mirrors the zeroed buffer. -/
theorem constructBringsUp : Obligations.ConstructBringsUp := by
  intro s w h pins hlife hheld hok ha
  obtain ⟨d1, d2, h1, h2, hbring⟩ := perform_bringUp (s := s.allocate w h) w h hheld (take_replicate_le ha.2 (by omega))
  obtain ⟨ram, hrender, hcells, houtside⟩ := perform_render (s := (s.allocate w h).broughtUp w h d1 d2) (w := w) (h := h)
    (content := List.replicate (bufferSize w h) 0x00) hok (List.length_replicate ..) rfl rfl rfl rfl
    (take_drop_replicate ha.2 (by omega))
  have hparams : (s.allocate w h).params = s.params ∧ ((s.allocate w h).broughtUp w h d1 d2).params = s.params := ⟨rfl, rfl⟩
  have hexec := exec_construct pins ha.1 hlife hok
  rw [hparams.1] at hbring
  rw [hparams.2] at hrender
  rw [constructBody_eq, performAll_append_of_run hbring, hrender, Flow.andThen_run, Flow.finish_run] at hexec
  refine ⟨_, d1, d2, hexec, h1, h2, ?_, fun p c hp hc => ?_, houtside⟩
  · simp only [State.broughtUp, bringUpEvents, okEntries_append, List.append_assoc, List.drop_drop]
    rfl
  · exact (hcells p c hp hc).trans (List.getElem?_replicate_of_lt (index_lt_bufferSize hok hp hc))

end Sys2Proof.Machine
end

section
/-! ## The panel observation (R39, R63) -/

namespace Sys2Proof.Machine

/-- The registers the observation reads all hold a value. -/
theorem Slave.panelUnwritten_none {S : Slave} : S.panelUnwritten = none ↔ ∀ p ∈ S.panelRegs, p.2 = true := by
  simp [Slave.panelUnwritten]

/-- The first register that holds `_|_` is the observation's fault (R39). -/
theorem Slave.panelPixel_unwritten {S : Slave} {f : Field} (h : S.panelUnwritten = some f) (w h' x y : Nat) :
    S.panelPixel w h' x y = .error (.unwrittenState f) := by
  simp [Slave.panelPixel, h]

/-- A slave in the configuration of the init stream has no unwritten register (R44, R63). -/
theorem Slave.initConfig_written {S : Slave} {w h : Nat} (hc : S.initConfig w h = true) : S.panelUnwritten = none := by
  simp only [Slave.initConfig, Bool.and_eq_true, decide_eq_true_eq] at hc
  obtain ⟨⟨⟨-, -, h1, h2, h3, h4, h5, h6, h7⟩, h8, h9, h10, h11, h12, h13, h14⟩, h15, h16, h17, h18⟩ := hc
  simp [Slave.panelUnwritten_none, Slave.panelRegs, h1, h2, h3, h4, h5, h6, h7, h8, h9, h10, h11, h12, h13, h14, h15, h16, h17, h18]

theorem Slave.initConfig_geometryOk {S : Slave} {w h : Nat} (hc : S.initConfig w h = true) : GeometryOk S.params w h := by
  simp only [Slave.initConfig, Bool.and_eq_true, decide_eq_true_eq] at hc
  obtain ⟨⟨⟨hok, -⟩, -⟩, -⟩ := hc
  exact hok

/-- A defined image: the pixel of the RAM cell, or the fault of reading it (R63). -/
theorem Slave.panelPixel_initConfig {S : Slave} {w h x y : Nat} (hc : S.initConfig w h = true) (hx : x < w) (hy : y < h) :
    S.panelPixel w h x y = match S.ram.read (ramAddr S.params (y / 8) x) with
      | some b => .ok (.shown (b.getLsbD (y % 8)))
      | none => .error (.unwrittenState .ram) := by
  simp only [Slave.panelPixel, Slave.initConfig_written hc, hc, hx, hy]
  rfl

/-- A pixel is shown only in a defined image and inside it (R63, D21). -/
theorem Slave.panelPixel_shown {S : Slave} {w h x y : Nat} {b : Bool} (hs : S.panelPixel w h x y = .ok (.shown b)) :
    S.initConfig w h = true ∧ x < w ∧ y < h := by
  unfold Slave.panelPixel at hs
  split at hs
  · cases hs
  · split at hs
    · next hc => simpa using hc
    · cases hs

theorem Slave.panelPixel_error {S : Slave} {w h x y : Nat} {f : Fault} (he : S.panelPixel w h x y = .error f) :
    ∃ g, f = .unwrittenState g := by
  unfold Slave.panelPixel at he
  split at he
  · cases he
    exact ⟨_, rfl⟩
  · split at he
    · split at he <;> cases he
      exact ⟨_, rfl⟩
    · cases he

/-! ### The observation of a run -/

theorem State.observePanel_ok {s : State} {x y : Nat} {p : PanelPixel}
    (h : s.slave.panelPixel s.panelSize.1 s.panelSize.2 x y = .ok p) :
    s.observePanel x y = (.ok (if s.imageClaimed then p else .notDefined), s) := by
  simp only [State.observePanel, h]

theorem State.observePanel_error {s : State} {x y : Nat} {f : Fault}
    (h : s.slave.panelPixel s.panelSize.1 s.panelSize.2 x y = .error f) :
    s.observePanel x y = (.error f, { s with log := s.log ++ [.fault f] }) := by
  simp only [State.observePanel, h]
  rfl

theorem State.imageClaimed_iff {s : State} : s.imageClaimed = true ↔ s.hung = false ∧ s.master.life = .init := by
  simp [State.imageClaimed]

theorem pixelIndex_lt {P : Params} {w h x y : Nat} (hok : GeometryOk P w h) (hx : x < w) (hy : y < h) :
    pixelIndex w x y < bufferSize w h :=
  index_lt_bufferSize hok (by obtain ⟨-, -, -, -, h8⟩ := hok; omega) hx

/-- Every byte of the buffer of a constructed block holds a value (R12). -/
theorem State.Constructed.read {s : State} {w h k : Nat} (hc : s.Constructed w h) (hk : k < bufferSize w h) :
    ∃ b, s.master.fb.read k = some b := by
  obtain ⟨-, -, -, -, -, hkeys⟩ := hc
  exact Memory.read_isSome_of_mem (by rw [hkeys]; exact List.mem_range.mpr hk)

/-- The windows of a defined image are those of RENDER, so RENDER keeps the configuration (R63, R83). -/
theorem Slave.initConfig_render {S : Slave} {w h : Nat} (hc : S.initConfig w h = true) (ram : Memory) :
    Slave.initConfig { S with
      colStart := some 0, colEnd := some (w - 1), colPtr := some 0,
      pageStart := some 0, pageEnd := some (h / 8 - 1), pagePtr := some 0, ram := ram } w h = true := by
  rw [Slave.initConfig, Bool.and_eq_true] at hc ⊢
  exact ⟨hc.1, by simp⟩

/-- After RENDER the panel shows each pixel of the buffer. -/
theorem render_panelPixel {s t : State} {w h x y : Nat} (hc : s.Constructed w h) (hready : s.CommandReady)
    (hconf : s.slave.initConfig w h = true) (ha : s.Answers 29) (he : exec .render s = .next t) (hx : x < w) (hy : y < h) :
    ∃ b, pixelOf s.master.fb w x y = some b ∧ t.slave.panelPixel w h x y = .ok (.shown b) ∧
      t.observePanel x y = (.ok (.shown b), t) := by
  have hok := Slave.initConfig_geometryOk hconf
  have hmode : s.slave.addrMode = some 0x00 := by
    simp only [Slave.initConfig, Bool.and_eq_true, decide_eq_true_eq] at hconf
    obtain ⟨⟨-, -, -, -, -, hmode, -⟩, -⟩ := hconf
    exact hmode
  obtain ⟨t', content, ht', -, -, hstate, hcells, -⟩ := renderMirrorsBuffer s w h hc hready hmode ha
  obtain rfl : t' = t := by
    rw [ht'] at he
    cases he
    rfl
  obtain ⟨v, hv⟩ := hc.read (pixelIndex_lt hok hx hy)
  have hcell : t'.slave.ram.read (ramAddr t'.slave.params (y / 8) x) = some v :=
    (hcells (y / 8) x (by have := hok.2.2.2.2; omega) hx).trans hv
  have hconf' : t'.slave.initConfig w h = true := by
    rw [hstate]
    exact Slave.initConfig_render hconf t'.slave.ram
  have hpixel : t'.slave.panelPixel w h x y = .ok (.shown (v.getLsbD (y % 8))) := by
    rw [Slave.panelPixel_initConfig hconf' hx hy, hcell]
  obtain ⟨hs, hlife, hw, hh, -⟩ := hc
  have hsize : t'.panelSize = (w, h) := by
    rw [hstate]
    simp [State.panelSize, State.afterEvents, hw, hh]
  have hclaimed : t'.imageClaimed = true := by
    rw [State.imageClaimed_iff, hstate]
    exact ⟨hs, hlife⟩
  refine ⟨v.getLsbD (y % 8), ?_, hpixel, ?_⟩
  · show (s.master.fb.read (pixelIndex w x y)).map _ = _
    rw [hv]
    rfl
  · rw [State.observePanel_ok (by rw [hsize]; exact hpixel), hclaimed]
    rfl

/-- A block whose size is a geometry has it in its registers (R11). -/
theorem State.panelSize_geometryOk {s : State} (hok : GeometryOk s.params s.panelSize.1 s.panelSize.2) :
    s.master.width = some s.panelSize.1 ∧ s.master.height = some s.panelSize.2 := by
  obtain ⟨hw, -, hh, -⟩ := hok
  unfold State.panelSize at *
  constructor
  · cases hw' : s.master.width <;> simp_all
  · cases hh' : s.master.height <;> simp_all

/-- A pixel that the observation of a run shows is one of the block's own geometry, of a free and constructed block (U18, R54,
R201). -/
theorem State.observePanel_shown {s : State} {x y : Nat} {b : Bool} (h : (s.observePanel x y).1 = .ok (.shown b)) :
    s.imageClaimed = true ∧ s.slave.panelPixel s.panelSize.1 s.panelSize.2 x y = .ok (.shown b) := by
  cases hp : s.slave.panelPixel s.panelSize.1 s.panelSize.2 x y with
  | error f =>
    rw [State.observePanel_error hp] at h
    cases h
  | ok p =>
    rw [State.observePanel_ok hp] at h
    split at h
    · next hc =>
      cases h
      exact ⟨hc, rfl⟩
    · cases h

/-- Settles O38: the observation reads the registers, then the configuration, then the RAM cell that RENDER filled. -/
theorem panelShowsBuffer : Obligations.PanelShowsBuffer := by
  refine ⟨fun s t w h x y => render_panelPixel, fun S w h x y hnone => ?unwritten, fun S w h x y hc hx hy hram => ?cell,
    fun S w h x y b hs => ?shown, fun s x y b hs => ?own, fun s x y hs => ?unclaimed⟩
  case unwritten =>
    cases hu : S.panelUnwritten with
    | some f => exact ⟨f, Slave.panelPixel_unwritten hu w h x y⟩
    | none =>
      have hall := Slave.panelUnwritten_none.mp hu
      simp only [Slave.panelRegs, List.cons_append, List.nil_append, List.forall_mem_cons, Option.isSome_iff_ne_none] at hall
      tauto
  case cell => rw [Slave.panelPixel_initConfig hc hx hy, hram]
  case shown =>
    obtain ⟨hc, hx, hy⟩ := Slave.panelPixel_shown hs
    exact ⟨Slave.initConfig_geometryOk hc, hc, hx, hy⟩
  case own =>
    obtain ⟨hclaimed, hp⟩ := State.observePanel_shown hs
    obtain ⟨hfree, hlife⟩ := State.imageClaimed_iff.mp hclaimed
    obtain ⟨hc, hx, hy⟩ := Slave.panelPixel_shown hp
    have hok := Slave.initConfig_geometryOk hc
    obtain ⟨hw, hh⟩ := State.panelSize_geometryOk hok
    exact ⟨_, _, hw, hh, hok, hx, hy, hc, hfree, hlife⟩
  case unclaimed =>
    have hclaimed : s.imageClaimed = false := by
      obtain hs | hs := hs <;> simp [State.imageClaimed, hs]
    cases hp : s.slave.panelPixel s.panelSize.1 s.panelSize.2 x y with
    | ok p =>
      rw [State.observePanel_ok hp, hclaimed]
      exact .inl rfl
    | error f =>
      rw [State.observePanel_error hp]
      obtain ⟨g, rfl⟩ := Slave.panelPixel_error hp
      exact .inr ⟨g, rfl⟩

end Sys2Proof.Machine
end

section
/-! ## The frame-store port (R58, R62, R150 to R154) -/

namespace Sys2Proof.Machine

/-! ### Bits and bytes of the buffer (R46, R47) -/

/-- Setting a bit of a byte sets that bit and keeps the others (R151). -/
theorem getLsbD_setBit (b : Byte) (v : Bool) {k j : Nat} (hj : j < 8) :
    (setBit b k v).getLsbD j = if j = k then v else b.getLsbD j := by
  have hone : (1#8 <<< k).getLsbD j = decide (j = k) := by
    rw [BitVec.getLsbD_shiftLeft, BitVec.getLsbD_one]
    by_cases hjk : j = k
    · simp [hjk]
      omega
    · simp [hjk]
      omega
  unfold setBit
  cases v with
  | true =>
    rw [if_pos rfl, BitVec.getLsbD_or, hone]
    by_cases hjk : j = k <;> simp [hjk]
  | false =>
    rw [if_neg Bool.false_ne_true, BitVec.getLsbD_and, BitVec.getLsbD_not, hone]
    by_cases hjk : j = k <;> simp [hjk, hj]

/-- A pixel determines its byte and its bit, and the other way round (R46, R47). -/
theorem pixel_eq_of_index {w x y x' y' : Nat} (hx : x < w) (hx' : x' < w) (hindex : pixelIndex w x' y' = pixelIndex w x y)
    (hbit : pixelBit y' = pixelBit y) : (x', y') = (x, y) := by
  have hw : 0 < w := by omega
  obtain ⟨hdiv, hmod⟩ := (Nat.div_mod_unique (a := pixelIndex w x y) (d := y / 8) hw).mpr ⟨rfl, hx⟩
  obtain ⟨hdiv', hmod'⟩ := (Nat.div_mod_unique (a := pixelIndex w x' y') (d := y' / 8) hw).mpr ⟨rfl, hx'⟩
  rw [hindex] at hdiv' hmod'
  unfold pixelBit at hbit
  have hy : y' / 8 = y / 8 := hdiv'.symm.trans hdiv
  rw [Prod.mk.injEq]
  omega

theorem pixelOf_eq (fb : Memory) (w x y : Nat) : pixelOf fb w x y = (fb.read (pixelIndex w x y)).map (·.getLsbD (pixelBit y)) := rfl

/-- One pixel written: it takes its value, and every other one keeps its own. -/
theorem pixelOf_write_setBit {fb : Memory} {w x y x' y' : Nat} {b : Byte} (v : Bool) (hb : fb.read (pixelIndex w x y) = some b)
    (hx : x < w) (hx' : x' < w) :
    pixelOf (fb.write (pixelIndex w x y) (setBit b (pixelBit y) v)) w x' y' =
      if (x', y') = (x, y) then some v else pixelOf fb w x' y' := by
  have hbit : pixelBit y' < 8 := Nat.mod_lt _ (by omega)
  rw [pixelOf_eq, pixelOf_eq, Memory.read_write]
  by_cases hindex : pixelIndex w x' y' = pixelIndex w x y
  · rw [if_pos hindex, hindex, hb, Option.map_some, getLsbD_setBit b v hbit]
    by_cases hsame : pixelBit y' = pixelBit y
    · rw [if_pos hsame, if_pos (pixel_eq_of_index hx hx' hindex hsame)]
    · rw [if_neg hsame, if_neg fun h => hsame (by rw [(Prod.mk.inj h).2])]
      rfl
  · rw [if_neg hindex, if_neg fun h => hindex (by rw [(Prod.mk.inj h).1, (Prod.mk.inj h).2])]

theorem pixelOf_filled {P : Params} {w h x y : Nat} (hok : GeometryOk P w h) (c : Bool) (hx : x < w) (hy : y < h) :
    pixelOf (Memory.filled (bufferSize w h) (if c then 0xFF else 0x00)) w x y = some c := by
  have hbit : pixelBit y < 8 := Nat.mod_lt _ (by omega)
  rw [pixelOf_eq, Memory.read_filled, if_pos (pixelIndex_lt hok hx hy)]
  generalize pixelBit y = k at *
  cases c <;> interval_cases k <;> rfl

/-! ### The port on a constructed block -/

theorem portWrite_admitted {s : State} (k : Answered) (hs : s.hung = false) (hlife : s.master.life = .init) : portWrite s k = k := by
  simp [portWrite, hs, hlife]

theorem portRead_admitted {s : State} (k : Answered) (hs : s.hung = false) (hlife : s.master.life = .init) : portRead s k = k := by
  simp [portRead, whenFree, hs, hlife]

theorem isColour_false {c : Int} (h0 : c ≠ 0) (h1 : c ≠ 1) : isColour c = false := by
  simp [isColour, h0, h1]

section Constructed

variable {s : State} {w h : Nat} (hc : s.Constructed w h)
include hc

theorem State.Constructed.portWrite (k : Answered) : portWrite s k = k := portWrite_admitted k hc.1 hc.2.1

theorem State.Constructed.portRead (k : Answered) : portRead s k = k := portRead_admitted k hc.1 hc.2.1

theorem State.Constructed.geometry : s.geometry = .ok (w, h) := by
  obtain ⟨-, -, hw, hh, -⟩ := hc
  simp [State.geometry, hw, hh]

theorem State.Constructed.pixelAt {x y : Nat} (hx : x < w) (hy : y < h) : s.pixelAt x y = .ok (pixelIndex w x y) := by
  simp [State.pixelAt, hc.geometry, hx, hy]

theorem State.Constructed.pixelAt_outside {x y : Int} (hout : x < 0 ∨ (w : Int) ≤ x ∨ y < 0 ∨ (h : Int) ≤ y) :
    s.pixelAt x y = .error (.refuse .pixelOutOfRange) := by
  simp only [State.pixelAt, hc.geometry]
  exact if_neg (by omega)

/-- The byte of a pixel of the geometry. -/
theorem State.Constructed.byteOf {x y : Nat} (hx : x < w) (hy : y < h) :
    ∃ b, s.master.fb.read (pixelIndex w x y) = some b ∧ s.byteAt (pixelIndex w x y) = .ok b := by
  obtain ⟨b, hb⟩ := hc.read (pixelIndex_lt hc.geometryOk hx hy)
  exact ⟨b, hb, by simp [State.byteAt, hb]⟩

theorem State.Constructed.exec_fill (c : Bool) : exec (.fill (if c then 1 else 0)) s = .next { s with
    master := { s.master with fb := Memory.filled (bufferSize w h) (if c then 0xFF else 0x00) }
    outcome := some (.returned .unit) } := by
  rw [exec, execFill, hc.portWrite]
  simp only [State.fillBuffer, hc.geometry]
  cases c <;> rfl

theorem State.Constructed.exec_pset {x y : Nat} {b : Byte} (c : Bool) (hx : x < w) (hy : y < h)
    (hb : s.byteAt (pixelIndex w x y) = .ok b) : exec (.pset x y (if c then 1 else 0)) s = .next { s with
      master := { s.master with fb := s.master.fb.write (pixelIndex w x y) (setBit b (pixelBit y) c) }
      outcome := some (.returned .unit) } := by
  rw [exec, execPset, hc.portWrite, hc.pixelAt hx hy]
  simp only [hb]
  cases c <;> rfl

theorem State.Constructed.exec_fbwrite {i : Nat} (v : Byte) (hi : i < bufferSize w h) : exec (.fbwrite i v) s = .next { s with
    master := { s.master with fb := s.master.fb.write i v }
    outcome := some (.returned .unit) } := by
  rw [exec, execFbwrite, hc.portWrite, hc.geometry]
  exact if_pos (by omega)

end Constructed

/-- Settles O39: FILL writes every byte with the eight bits of the colour. -/
theorem fillRuns : Obligations.FillRuns := by
  refine fun s w h hc => ⟨fun c => ⟨_, hc.exec_fill c, rfl, fun x y hx hy => pixelOf_filled hc.geometryOk c hx hy⟩, fun c h0 h1 => ?_⟩
  rw [exec, execFill, hc.portWrite, isColour_false h0 h1]
  rfl

/-- Settles O40: PSET writes one bit of one byte. -/
theorem psetRuns : Obligations.PsetRuns := by
  intro s w h x y c hc hx hy
  obtain ⟨b, hread, hb⟩ := hc.byteOf hx hy
  refine ⟨_, hc.exec_pset c hx hy hb, rfl, ?_, fun x' y' hx' _ hne => ?_, fun a ha => Memory.read_write_other _ ha⟩
  · exact (pixelOf_write_setBit c hread hx hx).trans (if_pos rfl)
  · exact (pixelOf_write_setBit c hread hx hx').trans (if_neg hne)

/-- Settles O41: PGET reads one bit of one byte. -/
theorem pgetRuns : Obligations.PgetRuns := by
  intro s w h x y hc hx hy
  obtain ⟨b, hread, hb⟩ := hc.byteOf hx hy
  refine ⟨b.getLsbD (pixelBit y), by rw [pixelOf_eq, hread]; rfl, ?_⟩
  rw [exec, execPget, hc.portRead, hc.pixelAt hx hy]
  simp only [hb]
  rfl

/-- Settles O42: FBWRITE writes one byte of the buffer, if it has it. -/
theorem fbwriteRuns : Obligations.FbwriteRuns := by
  refine fun s w h v hc => ⟨fun i hi => ?_, fun i hi => ?_⟩
  · exact ⟨_, hc.exec_fbwrite v hi, rfl, Memory.read_write_same _ _ _, fun a ha => Memory.read_write_other v ha⟩
  · rw [exec, execFbwrite, hc.portWrite, hc.geometry]
    exact if_neg (by omega)

/-- Settles O43: RAWBYTES reads the buffer as RENDER does. -/
theorem rawbytesRuns : Obligations.RawbytesRuns := by
  intro s w h hc
  obtain ⟨content, hread, hlen, hbytes⟩ := hc.content
  refine ⟨content, hlen, hbytes, ?_⟩
  rw [exec, execRawbytes, hc.portRead, hc.geometry]
  simp only [State.fbBytes, hread]
  rfl

/-- Settles O44: the pixel is looked at before the colour, and the stuck master before both. -/
theorem portRefusals : Obligations.PortRefusals := by
  refine fun s => ⟨fun w h x y c hc hout => ⟨?_, ?_⟩, fun w h x y c hc hx hy h0 h1 => ?_,
    fun hs => ⟨fun c => ?_, fun x y c => ?_, fun i v => ?_⟩⟩
  · rw [exec, execPset, hc.portWrite, hc.pixelAt_outside hout]
    rfl
  · rw [exec, execPget, hc.portRead, hc.pixelAt_outside hout]
    rfl
  · rw [exec, execPset, hc.portWrite, hc.pixelAt hx hy, isColour_false h0 h1]
    rfl
  all_goals exact if_pos hs

/-- Settles O45: a frame-store operation that answers a next state did nothing, or wrote the buffer and returned. -/
theorem portLeavesTheWire : Obligations.PortLeavesTheWire := by
  intro i s t hi he
  have hport : s.PortTo t := by
    obtain ⟨c, rfl⟩ | ⟨x, y, c, rfl⟩ | ⟨x, y, rfl⟩ | ⟨k, v, rfl⟩ | rfl := hi
    · exact execFill_portTo c t he
    · exact execPset_portTo x y c t he
    · exact execPget_portTo x y t he
    · exact execFbwrite_portTo k v t he
    · exact execRawbytes_portTo t he
  obtain rfl | ⟨fb, r, rfl⟩ := hport <;> exact ⟨rfl, rfl, rfl, rfl, rfl, rfl, rfl, rfl, rfl, rfl⟩

end Sys2Proof.Machine
end

section
/-! ## Admission and the checks of CONSTRUCT (R81, R82, R85, R161) -/

namespace Sys2Proof.Machine

/-! ### The lifecycle table (R85) -/

theorem portWrite_notConstructed {s : State} (k : Answered) (hs : s.hung = false) (hlife : s.master.life = .uninit) :
    portWrite s k = .refused .notConstructed := by
  simp [portWrite, hs, hlife]

theorem portRead_notConstructed {s : State} (k : Answered) (hs : s.hung = false) (hlife : s.master.life = .uninit) :
    portRead s k = .refused .notConstructed := by
  simp [portRead, whenFree, hs, hlife]

theorem runInternal_refused {s : State} (as : List Action) (hs : s.hung = false) (ha : s.internalAdmitted = false) :
    runInternal as s = .refused .pinsNotConfigured := by
  simp [runInternal, whenFree, hs, ha]

/-- A pin that was never configured shuts the direct operations out of a block that is not constructed. -/
theorem internalAdmitted_false {s : State} {p : Pin} (hlife : s.master.life = .uninit)
    (hp : ∀ x ∈ s.trace, ∀ v, x ≠ ⟨.pinCfg p v, .ok⟩) : s.internalAdmitted = false := by
  by_contra h
  obtain hinit | hall := State.internalAdmitted_iff.mp (by simpa using h)
  · rw [hlife] at hinit
    cases hinit
  · obtain ⟨v, hv⟩ := hall p
    exact hp _ hv v rfl

theorem exec_init_notAdmitted {s : State} (hs : s.hung = false) (ha : s.internalAdmitted = false) :
    exec .init s = .refused .pinsNotConfigured := by
  simp [exec, execInit, whenFree_free _ hs, ha]

theorem exec_init_noGeometry {s : State} (hs : s.hung = false) (ha : s.internalAdmitted = true)
    (hg : s.master.width = none ∨ s.master.height = none) : exec .init s = .refused .notConstructed := by
  have hgeom : ∃ e, s.geometry = .error e := by
    unfold State.geometry
    obtain hw | hh := hg
    · exact ⟨_, by rw [hw]⟩
    · rw [hh]
      cases s.master.width <;> exact ⟨_, rfl⟩
  obtain ⟨e, he⟩ := hgeom
  simp [exec, execInit, whenFree_free _ hs, ha, he]

/-- Settles O46: each operation looks at the lifecycle or at the pins before it does anything else. -/
theorem lifecycleTable : Obligations.LifecycleTable := by
  refine fun s hs => ⟨fun hlife w h pins => ?init, fun hlife => ?uninit, fun p hlife hp => ?pins, State.internalAdmitted_iff.mpr,
    exec_init_noGeometry hs⟩
  case init => simp [exec, execConstruct, whenFree_free _ hs, hlife]
  case uninit =>
    exact ⟨by simp [exec, execRender, whenFree_free _ hs, hlife], by simp [exec, execClear, whenFree_free _ hs, hlife],
      portRead_notConstructed _ hs hlife, fun _ => portWrite_notConstructed _ hs hlife,
      fun _ _ _ => portWrite_notConstructed _ hs hlife, fun _ _ => portRead_notConstructed _ hs hlife,
      fun _ _ => portWrite_notConstructed _ hs hlife⟩
  case pins =>
    have ha := internalAdmitted_false hlife hp
    refine ⟨runInternal_refused _ hs ha, exec_init_notAdmitted hs ha, fun b => ?_, fun b a => ?_, fun bs hne => ?_,
      fun b => runInternal_refused _ hs ha, fun i bytes hi => ?_⟩
    · rw [exec_wcmd (wcmdBytes_byte b), runInternal_refused _ hs ha]
    · rw [exec_wcmd (wcmdBytes_operand b a), runInternal_refused _ hs ha]
    · rw [exec_wbuf hne, runInternal_refused _ hs ha]
    · rw [exec_command hi, runInternal_refused _ hs ha]

/-! ### The checks of CONSTRUCT (R81, R82) -/

theorem geometryError_width {w : Int} (h : Int) (hw : w ≤ 0) : geometryError w h = some (.widthNonpositive, w) := if_pos hw

theorem geometryError_height {w h : Int} (hw : 0 < w) (hh : h ≤ 0) : geometryError w h = some (.heightNonpositive, h) := by
  rw [geometryError, if_neg (by omega), if_pos hh]

theorem geometryError_multiple {w h : Int} (hw : 0 < w) (hh : 0 < h) (h8 : h % 8 ≠ 0) :
    geometryError w h = some (.heightNotMultipleOf8, h) := by
  rw [geometryError, if_neg (by omega), if_neg (by omega), if_pos h8]

/-- Settles O47: the bound is looked at once the three checks passed. -/
theorem geometryBoundRefused : Obligations.GeometryBoundRefused := by
  intro s w h pins hs hlife hw hh h8 hbound
  have hexceeds : exceedsRam s.params w h = true := decide_eq_true hbound
  simp [exec, execConstruct, whenFree_free _ hs, hlife, geometryError_none hw hh h8, hexceeds]

/-- Settles O48: the first check that fails is taken as an exception. -/
theorem configErrorsTaken : Obligations.ConfigErrorsTaken := fun _ _ _ pins hs hlife =>
  ⟨fun hw => execConstruct_geometryError (pins := pins) hs hlife (geometryError_width _ hw),
    fun hw hh => execConstruct_geometryError (pins := pins) hs hlife (geometryError_height hw hh),
    fun hw hh h8 => execConstruct_geometryError (pins := pins) hs hlife (geometryError_multiple hw hh h8)⟩

end Sys2Proof.Machine
end

section
/-! ## What frames leave of the RAM and of the lines (R38, R45, R86, R138) -/

namespace Sys2Proof.Machine

/-! ### The RAM -/

/-- What holds after the first element, however it ends, and after the others once it completed. -/
theorem performAll_cons_holds {P : State → Prop} {a : Action} {as : List Action} {s : State} (h : (perform a s).Holds P)
    (hrest : ∀ t, perform a s = .run t → (performAll as t).Holds P) : (performAll (a :: as) s).Holds P := by
  rw [performAll_cons]
  cases ha : perform a s with
  | run t => exact hrest t ha
  | raised x t | hung t =>
    rw [ha] at h
    exact h
  | stop e => trivial

theorem perform_pin_run {p : Pin} {v : Level} {s t : State} (h : perform (.event (.pin p v)) s = .run t) :
    t.master.pins = s.master.pins.set p (some v) := emit_pin_run h

theorem perform_tx_run {bs : List Byte} {s t : State} (h : perform (.event (.tx bs)) s = .run t) :
    t.master.pins = s.master.pins ∧ s.master.pins.res = some true := ⟨(emit_tx_run h).1, (emit_tx_run h).2.1⟩

/-- A write of chip-select or data/command-select leaves the slave, however it ends (R117, R168). -/
theorem emit_select_slave {p : Pin} (hp : p = .cs ∨ p = .dc) (v : Level) (s : State) :
    (emit (.pin p v) s).Holds (fun t => t.slave = s.slave) := by
  refine emit_holds (fun t hd => ?_) (fun drawn t hd => ?_) rfl
  · rw [State.deliver_level (.inl rfl), Slave.onPin_select hp] at hd
    cases hd
    rfl
  · cases hd
    obtain rfl | rfl := hp <;> rfl

/-- Bytes in command mode leave the RAM (R138). -/
theorem Slave.takeBytes_command_ram {bs : List Byte} {S S' : Slave} (h : S.takeBytes (some false) bs = .ok S') : S'.ram = S.ram := by
  induction bs generalizing S with
  | nil =>
    cases h
    rfl
  | cons b bs ih =>
    rw [Slave.takeBytes_cons, Slave.takeByte_command] at h
    cases hb : S.commandByte b with
    | error e =>
      rw [hb] at h
      cases h
    | ok T =>
      rw [hb] at h
      exact (ih h).trans (Slave.commandByte_frame hb).1

/-- A transmission in command mode leaves the RAM, however it ends (R138, R168). -/
theorem emit_command_ram {s : State} (hdc : s.master.pins.dc = some false) (bs : List Byte) :
    (emit (.tx bs) s).Holds (fun t => t.slave.ram = s.slave.ram) := by
  have hreceive : ∀ {bs S}, s.slave.receive s.master.pins bs = .ok S → S.ram = s.slave.ram := fun hb => by
    obtain ⟨-, -, -, htake⟩ := Slave.receive_ok hb
    rw [hdc] at htake
    exact Slave.takeBytes_command_ram htake
  refine emit_holds (fun t hd => ?_) (fun drawn t hd => ?_) rfl
  · rw [State.deliver] at hd
    split at hd <;> cases hd
    next hb => exact hreceive hb
  · rw [State.deliverFailed] at hd
    split at hd <;> cases hd
    next S hb =>
      have hmode : s.master.pins.dc ≠ some true := by rw [hdc]; decide
      rw [Slave.failedTx, if_neg (by exact hmode)] at hb
      split at hb
      · cases hb
        rfl
      · exact hreceive hb

/-- After data/command-select low, which the rest of the frame keeps, the transmission is one in command mode (R65). -/
theorem commandFrame_ram (b : Byte) (s : State) :
    (performAll ((commandFrame b).map .event) s).Holds (fun t => t.slave.ram = s.slave.ram) := by
  have hfirst := emit_select_slave (p := .dc) (.inr rfl) false s
  refine performAll_cons_holds (hfirst.mono fun t ht => congrArg Slave.ram ht) fun t ht => ?_
  have hdc : t.master.pins.get .dc = some false := by
    rw [perform_pin_run ht]
    rfl
  rw [perform] at ht
  rw [ht] at hfirst
  refine (performAll_holds (P := fun u => u.slave.ram = s.slave.ram ∧ u.master.pins.get .dc = some false)
    (fun a ha u ⟨hram, hlow⟩ => ?_) ⟨congrArg Slave.ram hfirst, hdc⟩).mono fun u hu => hu.1
  have hkept : (perform a u).Holds (fun v => v.slave.ram = u.slave.ram) ∧ ∀ e, a.Emits e → e.line ≠ some .dc := by
    simp only [List.map_cons, List.map_nil, List.mem_cons, List.not_mem_nil, or_false] at ha
    obtain rfl | rfl | rfl := ha
    · exact ⟨(emit_select_slave (.inl rfl) _ u).mono fun v hv => congrArg Slave.ram hv, by rintro e ⟨⟩; simp [Event.line]⟩
    · exact ⟨emit_command_ram hlow [b], by rintro e ⟨⟩; simp [Event.line]⟩
    · exact ⟨(emit_select_slave (.inl rfl) _ u).mono fun v hv => congrArg Slave.ram hv, by rintro e ⟨⟩; simp [Event.line]⟩
  exact (hkept.1.mono fun v hv => hv.trans hram).and ((perform_pin_other hkept.2 u).mono fun v hv => hv.trans hlow)

theorem commandFrames_cons (b : Byte) (bytes : List Byte) :
    commandFrames (b :: bytes) = (commandFrame b).map .event ++ commandFrames bytes := by
  simp [commandFrames]

/-- Command frames leave the RAM, however they end (R138). -/
theorem commandFrames_ram (bytes : List Byte) (s : State) :
    (performAll (commandFrames bytes) s).Holds (fun t => t.slave.ram = s.slave.ram) := by
  induction bytes generalizing s with
  | nil => rfl
  | cons b bytes ih =>
    rw [commandFrames_cons, performAll_append]
    exact (commandFrame_ram b s).andThen fun t ht => (ih t).mono fun u hu => hu.trans ht

/-- Settles O58: what any other instruction performs are command frames, or nothing. -/
theorem ramWriters : Obligations.RamWriters := by
  intro i s t he hne
  obtain ⟨-, rfl⟩ | ⟨-, ⟨w, h, pins, cause, arg, -, rfl⟩ | ⟨s₀, as, r, hp, hf⟩⟩ := exec_endsIn i s t he
  · exact absurd rfl hne
  · exact absurd rfl hne
  · have hram : ∀ {as}, (performAll as s₀).Holds (fun u => u.slave.ram = s₀.slave.ram) →
        ((performAll as s₀).andThen fun u => .run (closing i u)).finish r = .next t → t.slave.ram = s₀.slave.ram :=
      fun hP hf => carriedOut_slave (P := fun S => S.ram = s₀.slave.ram) hP hf
    cases hp with
    | data b => exact .inl ⟨b, rfl⟩
    | wbuf => exact .inr (.inl ⟨_, rfl⟩)
    | render => exact .inr (.inr (.inl rfl))
    | clear => exact .inr (.inr (.inr (.inl rfl)))
    | reset => exact .inr (.inr (.inr (.inr (.inl rfl))))
    | construct pins => exact .inr (.inr (.inr (.inr (.inr ⟨_, _, pins, rfl⟩))))
    | command | init | wcmd => exact absurd (hram (commandFrames_ram _ s) hf) hne
    | fill | pset | pget | fbwrite | rawbytes => exact absurd (hram (as := []) rfl hf) hne

/-! ### The lines after frames that all completed (R86) -/

theorem commandFrame_run_pins {b : Byte} {s t : State} (h : performAll ((commandFrame b).map .event) s = .run t) :
    t.master.pins = ⟨some true, some false, some true⟩ := by
  obtain ⟨s1, h1, h⟩ := performAll_cons_run h
  obtain ⟨s2, h2, h⟩ := performAll_cons_run h
  obtain ⟨s3, h3, h⟩ := performAll_cons_run h
  obtain ⟨s4, h4, h⟩ := performAll_cons_run h
  cases h
  obtain ⟨hsame, hres⟩ := perform_tx_run h3
  rw [perform_pin_run h2, perform_pin_run h1] at hsame hres
  rw [perform_pin_run h4, hsame]
  simp only [Pins.set] at hres ⊢
  rw [hres]

theorem commandFrames_run_pins {bytes : List Byte} (hne : bytes ≠ []) {s t : State}
    (h : performAll (commandFrames bytes) s = .run t) : t.master.pins = ⟨some true, some false, some true⟩ := by
  induction bytes generalizing s with
  | nil => exact absurd rfl hne
  | cons b bytes ih =>
    rw [commandFrames_cons] at h
    obtain ⟨u, hu, h⟩ := performAll_append_run h
    cases bytes with
    | nil =>
      cases h
      exact commandFrame_run_pins hu
    | cons c bytes => exact ih (List.cons_ne_nil _ _) h

theorem burstFrame_run_pins {bytes : List Byte} {s t : State} (h : performAll (burstFrame bytes) s = .run t) :
    t.master.pins = ⟨some true, some true, some true⟩ := by
  obtain ⟨s1, h1, h⟩ := performAll_cons_run h
  obtain ⟨s2, h2, h⟩ := performAll_cons_run h
  obtain ⟨s3, h3, h⟩ := performAll_cons_run h
  obtain ⟨s4, h4, h⟩ := performAll_cons_run h
  obtain ⟨s5, h5, h⟩ := performAll_cons_run h
  cases h
  obtain ⟨hsame, hres⟩ := perform_tx_run h4
  rw [perform_pin_run h3, perform_pin_run h2, perform_pin_run h1] at hsame hres
  rw [perform_pin_run h5, hsame]
  simp only [Pins.set] at hres ⊢
  rw [hres]

theorem renderActions_run_pins {P : Params} {w h : Nat} {content : List Byte} {s t : State}
    (hrun : performAll (renderActions P w h content) s = .run t) : t.master.pins = ⟨some true, some true, some true⟩ := by
  obtain ⟨u, -, hburst⟩ := performAll_append_run hrun
  exact burstFrame_run_pins hburst

/-- An instruction that returned ran its event list to the end. -/
theorem exec_returned {i : Instr} {s t : State} {r : Result} (hs : s.hung = false) (he : exec i s = .next t)
    (hr : t.outcome = some (.returned r)) : ∃ s₀ as r' u, Plan s i s₀ as r' ∧ performAll as s₀ = .run u ∧
      t.master.pins = u.master.pins := by
  obtain ⟨w, h, pins, cause, arg, -, rfl⟩ | ⟨s₀, as, r', hp, hf⟩ := exec_free hs he
  · cases hr
  · obtain ⟨u, hu, rfl⟩ | ⟨x, u, hu, rfl⟩ | ⟨u, hu, rfl⟩ := carriedOut_next hf
    · exact ⟨s₀, as, r', u, hp, hu, closing_pins i u⟩
    · cases hr
    · cases hr

/-- Settles O60: the last frame of each of these operations sets all three lines. -/
theorem pinLevelsAfterReturn : Obligations.PinLevelsAfterReturn := by
  intro i s t r hs he hr
  obtain ⟨s₀, as, r', u, hp, hu, hpins⟩ := exec_returned hs he hr
  rw [hpins]
  constructor
  · rintro (⟨b, a, rfl⟩ | rfl)
    · cases hp with
      | command henc => cases a <;> cases henc
      | wcmd hne => exact commandFrames_run_pins hne hu
    · cases hp with
      | command henc => cases henc
      | init => exact commandFrames_run_pins (List.cons_ne_nil _ _) hu
  · rintro (rfl | rfl | ⟨bs, rfl⟩ | ⟨w, h, pins, rfl⟩)
    · cases hp with
      | command henc => cases henc
      | render => exact renderActions_run_pins hu
    · cases hp with
      | command henc => cases henc
      | clear => exact renderActions_run_pins hu
    · cases hp with
      | command henc => cases henc
      | wbuf => exact burstFrame_run_pins hu
    · cases hp with
      | command henc => cases henc
      | construct =>
        obtain ⟨v, -, hrender⟩ := performAll_append_run hu
        exact renderActions_run_pins hrender

end Sys2Proof.Machine
end

section
/-! ## The trace and the fault log only grow (R18, R180) -/

namespace Sys2Proof.Machine

/-- What a step adds: entries to the trace, and to the log at most the exception that the host saw (R18, R180). -/
def State.GrowsTo (s t : State) : Prop :=
  (∃ es, t.trace = s.trace ++ es) ∧ ∃ xs, t.log = s.log ++ xs ∧ xs.length ≤ 1 ∧
    ∀ x ∈ xs, ∃ y, x = .exception y ∧ t.outcome = some (.raised y)

theorem State.GrowsTo.refl (s : State) : s.GrowsTo s :=
  ⟨⟨[], (List.append_nil _).symm⟩, [], (List.append_nil _).symm, Nat.zero_le _, nofun⟩

theorem State.GrowsTo.of_exception {s t : State} {y : Exception} (htrace : ∃ es, t.trace = s.trace ++ es)
    (hlog : t.log = s.log ++ [.exception y]) (hout : t.outcome = some (.raised y)) : s.GrowsTo t :=
  ⟨htrace, _, hlog, Nat.le_refl _, fun _ hx => ⟨y, List.mem_singleton.mp hx, hout⟩⟩

theorem exec_growsTo {i : Instr} {s t : State} (hs : s.hung = false) (he : exec i s = .next t) : s.GrowsTo t := by
  obtain ⟨es, -, ⟨r, -, htrace, hlog, -⟩ | ⟨c, a, hout, htrace, hlog, -⟩ | ⟨e, hout, htrace, hlog, -⟩ | ⟨e, -, htrace, hlog, -⟩⟩ :=
    operationOutcomes i s t hs he
  · exact ⟨⟨es, htrace⟩, [], by rw [hlog, List.append_nil], Nat.zero_le _, nofun⟩
  · exact .of_exception ⟨[], by rw [htrace, List.append_nil]⟩ hlog hout
  · exact .of_exception ⟨es ++ [⟨e, .fail⟩], by rw [htrace, List.append_assoc]⟩ hlog hout
  · exact ⟨⟨es ++ [⟨e, .hang⟩], by rw [htrace, List.append_assoc]⟩, [], by rw [hlog, List.append_nil], Nat.zero_le _, nofun⟩

theorem step_growsTo {s t : State} (h : step s = .next t) : s.GrowsTo t := by
  obtain rfl | ⟨hs, i, rest, he⟩ := step_next h
  · exact .refl _
  · exact exec_growsTo (s := { s with requests := rest }) hs he

/-- Every exception that an instruction raises enters the log (R167, R180). -/
theorem exec_raised_log {i : Instr} {s t : State} {y : Exception} (hs : s.hung = false) (he : exec i s = .next t)
    (hy : t.outcome = some (.raised y)) : t.log = s.log ++ [.exception y] := by
  obtain ⟨es, -, ⟨r, hout, -⟩ | ⟨c, a, hout, -, hlog, -⟩ | ⟨e, hout, -, hlog, -⟩ | ⟨e, hout, -⟩⟩ := operationOutcomes i s t hs he <;>
    rw [hy] at hout <;> cases hout
  · exact hlog
  · exact hlog

/-! ### The log of a run -/

theorem State.observePanel_log (s : State) (x y : Nat) : ∃ xs, (s.observePanel x y).2.log = s.log ++ xs := by
  cases hp : s.slave.panelPixel s.panelSize.1 s.panelSize.2 x y with
  | ok p => exact ⟨[], by rw [State.observePanel_ok hp, List.append_nil]⟩
  | error f => exact ⟨[.fault f], by rw [State.observePanel_error hp]⟩

/-- No act of a run takes an entry out of the log. -/
theorem faultLog_grows (acts : List Act) (s : State) : ∃ xs, faultLog acts s = s.log ++ xs := by
  induction acts generalizing s with
  | nil => exact ⟨[], (List.append_nil _).symm⟩
  | cons act acts ih =>
    cases act with
    | observe x y =>
      obtain ⟨xs, hxs⟩ := s.observePanel_log x y
      obtain ⟨ys, hys⟩ := ih (s.observePanel x y).2
      exact ⟨xs ++ ys, by rw [faultLog, hys, hxs, List.append_assoc]⟩
    | step =>
      rw [faultLog]
      cases hstep : step s with
      | next t =>
        obtain ⟨-, xs, hxs, -⟩ := step_growsTo hstep
        obtain ⟨ys, hys⟩ := ih t
        exact ⟨xs ++ ys, by rw [← List.append_assoc, ← hxs, ← hys]⟩
      | fault f => exact ⟨[.fault f], rfl⟩
      | refused r => exact ⟨[.refusal r], rfl⟩

theorem faultLog_append_grows (before after : List Act) (s : State) :
    ∃ xs, faultLog (before ++ after) s = faultLog before s ++ xs := by
  induction before generalizing s with
  | nil => exact faultLog_grows after s
  | cons act before ih =>
    cases act with
    | observe x y => exact ih (s.observePanel x y).2
    | step =>
      simp only [List.cons_append, faultLog]
      cases step s with
      | next t => exact ih t
      | fault f => exact ⟨[], (List.append_nil _).symm⟩
      | refused r => exact ⟨[], (List.append_nil _).symm⟩

/-- Settles O59: each step and each observation adds at the end, and what ends a run is added last. -/
theorem traceAndLogOnlyGrow : Obligations.TraceAndLogOnlyGrow := by
  refine ⟨fun s t => step_growsTo, fun i s t y => exec_raised_log, fun s x y => ⟨fun p => State.observePanel_ok,
    fun f => State.observePanel_error⟩, fun s before after => faultLog_append_grows before after s,
    fun s acts => ⟨fun f hf => ?_, fun r hr => ?_, fun x y f hf => ?_⟩⟩
  · rw [faultLog, hf]
    rfl
  · rw [faultLog, hr]
    rfl
  · rw [faultLog, State.observePanel_error hf]
    exact faultLog_grows acts _

end Sys2Proof.Machine
end

section
/-! ## What a failed event leaves (R168, R169) -/

namespace Sys2Proof.Machine

/-! ### Every transmission follows on chip-select low -/

/-- Directly before every transmission of the event list chip-select is driven low (R65). -/
def Selected (as : List Action) : Prop :=
  ∀ k bs, as[k]? = some (.event (.tx bs)) → ∃ j, k = j + 1 ∧ as[j]? = some (.event (.pin .cs false))

theorem FramedActions.selected {as : List Action} (h : FramedActions as) : Selected as := by
  intro k bs hk
  obtain ⟨j, v, rfl, -, hcs, -⟩ := h k bs hk
  exact ⟨j + 1, rfl, hcs⟩

theorem Selected.append {as bs : List Action} (ha : Selected as) (hb : Selected bs) : Selected (as ++ bs) := by
  intro k xs hk
  by_cases hlt : k < as.length
  · rw [List.getElem?_append_left hlt] at hk
    obtain ⟨j, rfl, hj⟩ := ha k xs hk
    exact ⟨j, rfl, by rw [List.getElem?_append_left (by omega)]; exact hj⟩
  · obtain ⟨n, rfl⟩ := Nat.exists_eq_add_of_le (Nat.le_of_not_lt hlt)
    rw [List.getElem?_append_right (Nat.le_add_right _ _), Nat.add_sub_cancel_left] at hk
    obtain ⟨j, rfl, hj⟩ := hb n xs hk
    exact ⟨as.length + j, rfl, by rw [List.getElem?_append_right (Nat.le_add_right _ _), Nat.add_sub_cancel_left]; exact hj⟩

/-- A data frame selects the slave whatever its burst, also an empty one. -/
theorem selected_burstFrame (bytes : List Byte) : Selected (burstFrame bytes) := by
  intro k xs hk
  match k with
  | 0 | 1 | 2 | 4 => cases hk
  | 3 => exact ⟨2, rfl, rfl⟩
  | _ + 5 => cases hk

theorem selected_renderActions (P : Params) (w h : Nat) (content : List Byte) : Selected (renderActions P w h content) :=
  (FramedActions.commandFrames _).selected.append (selected_burstFrame content)

theorem Plan.selected {s s₀ : State} {i : Instr} {as : List Action} {r : Result} (hp : Plan s i s₀ as r) : Selected as := by
  cases hp with
  | command | init | wcmd => exact (FramedActions.commandFrames _).selected
  | data | wbuf => exact selected_burstFrame _
  | render | clear => exact selected_renderActions _ _ _ _
  | reset => exact FramedActions.resetPulse.selected
  | construct => exact (FramedActions.bringUpActions _ _ _).selected.append (selected_renderActions _ _ _ _)
  | fill | pset | pget | fbwrite | rawbytes => exact nofun

/-- So chip-select is low when the transmission begins. -/
theorem Selected.cs_low {done rest : List Action} {bs : List Byte} {s u : State}
    (h : Selected (done ++ .event (.tx bs) :: rest)) (hdone : performAll done s = .run u) : u.master.pins.cs = some false := by
  obtain ⟨j, hlen, hj⟩ := h done.length bs (by simp)
  rw [List.getElem?_append_left (by omega)] at hj
  have hlast : done.getLast? = some (.event (.pin .cs false)) := by
    rw [List.getLast?_eq_getElem?, hlen]
    exact hj
  obtain ⟨before, rfl⟩ := List.getLast?_eq_some_iff.mp hlast
  obtain ⟨v, -, hv⟩ := performAll_append_run hdone
  obtain ⟨v', hv', hnil⟩ := performAll_cons_run hv
  cases hnil
  rw [perform_pin_run hv']
  rfl

/-! ### The registers before the first event -/

/-- Of a constructed block no instruction writes the geometry, and only CLEAR writes the buffer and then emits events (R12, R84). -/
theorem Plan.start_constructed {s s₀ : State} {i : Instr} {as : List Action} {r : Result} (hp : Plan s i s₀ as r)
    (hlife : s.master.life = .init) : s₀.master.width = s.master.width ∧ s₀.master.height = s.master.height ∧
      (i ≠ .clear → as ≠ [] → s₀.master.fb = s.master.fb) := by
  cases hp with
  | construct _ hlife' =>
    rw [hlife] at hlife'
    cases hlife'
  | clear => exact ⟨rfl, rfl, fun hne => absurd rfl hne⟩
  | fill | pset | pget | fbwrite | rawbytes => exact ⟨rfl, rfl, fun _ hne => absurd rfl hne⟩
  | command | data | reset | init | wcmd | wbuf | render => exact ⟨rfl, rfl, fun _ _ => rfl⟩

/-! ### The failed event itself -/

/-- What the environment draws about a failed write of a line (R168; log entry 7). -/
theorem Slave.failedPin_eq (p : Pin) (drawn : List Bool) (S : Slave) :
    S.failedPin p drawn = if p = .res ∧ drawn.head? = some true then Slave.powerOn S.params else S := by
  cases p with
  | res =>
    match drawn with
    | [] => rfl
    | true :: _ => rfl
    | false :: _ => rfl
  | cs | dc => rfl

theorem emit_failed {e : Event} {s t : State} {drawn : List Bool} {rest : List Answer} (ha : s.answers = .fail drawn :: rest)
    (hd : State.deliverFailed e drawn { s with trace := s.trace ++ [⟨e, .fail⟩], answers := rest } = .ok t) :
    emit e s = .raised (.transmissionError s.trace.length e) t := by
  refine emit_raised.mpr ⟨rfl, drawn, by simp [State.nextAnswer, ha], ?_⟩
  rw [← hd]
  simp only [State.record, State.popAnswer, ha, List.tail_cons]

/-- A failed write of a line: the line is `_|_`, and of the slave what was drawn (R168). -/
theorem emit_level_failed {p : Pin} {v : Level} {e : Event} {s : State} {drawn : List Bool} {rest : List Answer}
    (he : e = .pin p v ∨ e = .pinCfg p v) (ha : s.answers = .fail drawn :: rest) :
    emit e s = .raised (.transmissionError s.trace.length e) { s with
      master := { s.master with pins := s.master.pins.set p none }
      trace := s.trace ++ [⟨e, .fail⟩]
      slave := if p = .res ∧ drawn.head? = some true then Slave.powerOn s.params else s.slave
      answers := rest } := by
  refine emit_failed ha ?_
  obtain rfl | rfl := he <;> simp only [State.deliverFailed, Slave.failedPin_eq]

/-- A failed transmission: the slave got what was drawn (R168, R169). -/
theorem emit_tx_failed {bs : List Byte} {s : State} {S : Slave} {drawn : List Bool} {rest : List Answer}
    (ha : s.answers = .fail drawn :: rest) (hS : s.slave.failedTx s.master.pins bs drawn = .ok S) :
    emit (.tx bs) s = .raised (.transmissionError s.trace.length (.tx bs)) { s with
      trace := s.trace ++ [⟨.tx bs, .fail⟩]
      slave := S
      answers := rest } := by
  refine emit_failed ha ?_
  simp only [State.deliverFailed, hS]

/-- The lines after a failed event: the one it was to drive is `_|_`, and a transmission drives none (R168). -/
theorem emit_raised_pins {e : Event} {s t : State} {x : Exception} (h : emit e s = .raised x t) :
    (∀ p v, e = .pin p v ∨ e = .pinCfg p v → t.master.pins.get p = none) ∧
    (∀ bs, e = .tx bs → t.master.pins = s.master.pins) := by
  obtain ⟨-, drawn, -, hd⟩ := emit_raised.mp h
  refine ⟨fun p v he => ?_, fun bs he => ?_⟩
  · obtain rfl | rfl := he <;>
      · cases hd
        exact Pins.get_set_same _ _ _
  · subst he
    rw [State.deliverFailed] at hd
    split at hd <;> cases hd
    rfl

theorem performAll_append_raised {as bs : List Action} {s t : State} {x : Exception} (h : performAll as s = .raised x t) :
    performAll (as ++ bs) s = .raised x t := by
  rw [performAll_append, h]
  rfl

/-- An instruction that raised a TransmissionError: its plan, and where in it the event failed (R162, R167). -/
theorem exec_transmissionError {i : Instr} {s t : State} {pos : Nat} {e : Event} (hs : s.hung = false) (he : exec i s = .next t)
    (hout : t.outcome = some (.raised (.transmissionError pos e))) :
    ∃ s₀ done rest r u v, Plan s i s₀ (done ++ .event e :: rest) r ∧ performAll done s₀ = .run u ∧
      emit e u = .raised (.transmissionError pos e) v ∧ s₀.SameHost v ∧ t.master = v.master ∧ pos = u.trace.length := by
  obtain ⟨w, h, pins, cause, arg, -, rfl⟩ | ⟨s₀, as, r, hp, hf⟩ := exec_free hs he
  · cases hout
  · obtain ⟨u, hu, rfl⟩ | ⟨x, v, hv, rfl⟩ | ⟨u, hu, rfl⟩ := carriedOut_next hf
    · cases hout
    · have hx : x = .transmissionError pos e := by simpa using hout
      subst hx
      obtain ⟨hhost, -⟩ := performAll_raised_trace hv
      obtain ⟨done, e', rest, u, rfl, hdone, hemit⟩ := performAll_raised hv
      obtain ⟨-, hx, -⟩ := emit_raised_frame hemit
      cases hx
      exact ⟨s₀, done, rest, r, u, v, hp, hdone, hemit, hhost, rfl, rfl⟩
    · cases hout

/-- Settles O52: the events before the failed one completed, and the failed one touches its own line and the slave alone. -/
theorem failedEventLines : Obligations.FailedEventLines := by
  refine ⟨fun i s t pos e hs he hout => ?any, fun s p v e drawn rest he ha => emit_level_failed he ha,
    fun s drawn rest hs hadm ha => ?reset⟩
  case any =>
    obtain ⟨s₀, done, rest, r, u, v, hp, hdone, hemit, hhost, ht, -⟩ := exec_transmissionError hs he hout
    obtain ⟨hline, htx⟩ := emit_raised_pins hemit
    obtain ⟨_, _, _, hs₀⟩ := hp.start
    rw [ht]
    refine ⟨hline, fun bs hbs => ?_, hhost.life.trans (by rw [hs₀]), fun hlife => ?_, fun hlife hne => ?_⟩
    · subst hbs
      rw [htx bs rfl, hp.selected.cs_low hdone]
    · obtain ⟨hw, hh, -⟩ := hp.start_constructed hlife
      exact ⟨hhost.width.trans hw, hhost.height.trans hh⟩
    · obtain ⟨-, -, hfb⟩ := hp.start_constructed hlife
      exact hhost.fb.trans (hfb hne (by simp))
  case reset =>
    have hfirst : performAll resetPulse s = .raised _ _ :=
      performAll_append_raised (as := [.event (.pin .res true)]) (by
        rw [performAll_cons, perform, emit_level_failed (.inl rfl) ha]
        rfl)
    rw [exec, execReset, runInternal_admitted _ hs hadm, hfirst, Flow.finish_raised]
    simp only [true_and]
    rfl

end Sys2Proof.Machine
end

section
/-! ## Failed transmissions (60_exceptions.md rules R168, R169) -/

namespace Sys2Proof.Machine

/-! ### A frame up to its transmission -/

/-- Chip-select is low in the mode `d`, after the events `es` of the frame's opening (R65). -/
def State.selectedBy (es : List Event) (d : Level) (s : State) : State :=
  { s with
    master := { s.master with pins := ⟨some false, some d, s.master.pins.res⟩ }
    trace := s.trace ++ okEntries es
    answers := s.answers.drop es.length }

/-- The opening of a command frame. -/
def commandOpening : List Event := [.pin .dc false, .pin .cs false]

/-- The opening of a data frame. -/
def dataOpening : List Event := [.pin .cs true, .pin .dc true, .pin .cs false]

theorem perform_commandOpening {s : State} (ha : s.answers.take 2 = List.replicate 2 .ok) :
    performAll (commandOpening.map .event) s = .run (s.selectedBy commandOpening false) := by
  have hdeliver : State.deliverAll commandOpening s = .ok (s.selectedBy commandOpening false) := by
    simp [State.deliverAll, commandOpening, State.selectedBy, State.deliver, Slave.onPin, Except.bind, Pins.set, okEntries,
      State.record, State.popAnswer, ← List.drop_one]
  rw [performAll_events (es := commandOpening) ha, hdeliver]

theorem perform_dataOpening {s : State} (ha : s.answers.take 3 = List.replicate 3 .ok) :
    performAll (dataOpening.map .event) s = .run (s.selectedBy dataOpening true) := by
  have hdeliver : State.deliverAll dataOpening s = .ok (s.selectedBy dataOpening true) := by
    simp [State.deliverAll, dataOpening, State.selectedBy, State.deliver, Slave.onPin, Except.bind, Pins.set, okEntries,
      State.record, State.popAnswer, tail_three]
  rw [performAll_events (es := dataOpening) ha, hdeliver]

/-- An event list whose first part runs and whose next event then fails. -/
theorem performAll_raised_at {as bs : List Action} {e : Event} {s t u : State} {x : Exception} (hrun : performAll as s = .run t)
    (he : emit e t = .raised x u) : performAll (as ++ .event e :: bs) s = .raised x u := by
  rw [performAll_append_of_run hrun, performAll_cons, perform, he]
  rfl

/-- A failed transmission in mode `d`, right after the opening of its frame. -/
theorem emit_selected_failed {es : List Event} {d : Level} {bs : List Byte} {s : State} {S : Slave} {drawn : List Bool}
    {rest : List Answer} (ha : s.answers.drop es.length = .fail drawn :: rest)
    (hS : s.slave.failedTx ⟨some false, some d, s.master.pins.res⟩ bs drawn = .ok S) :
    emit (.tx bs) (s.selectedBy es d) = .raised (.transmissionError (s.trace.length + es.length) (.tx bs)) { s with
      master := { s.master with pins := ⟨some false, some d, s.master.pins.res⟩ }
      trace := s.trace ++ okEntries es ++ [⟨.tx bs, .fail⟩]
      slave := S
      answers := rest } := by
  have := emit_tx_failed (s := s.selectedBy es d) ha hS
  simpa [State.selectedBy, okEntries] using this

/-! ### A command byte (R168) -/

/-- A command byte that failed was received exactly if that was drawn (log entry 5). -/
theorem Slave.failedTx_command {S S' : Slave} {pins : Pins} {b : Byte} {drawn : List Bool} (hp : S.phase = .ready)
    (hres : pins.res = some true) (hcs : pins.cs = some false) (hdc : pins.dc = some false)
    (hgot : drawn.head? = some true → S.commandByte b = .ok S') (hlost : drawn.head? ≠ some true → S' = S) :
    S.failedTx pins [b] drawn = .ok S' := by
  have hreceive : S.receive pins [b] = S.commandByte b := by
    rw [Slave.receive_eq [b] hp hres hcs, hdc, Slave.takeBytes_cons, Slave.takeByte_command]
    cases S.commandByte b <;> rfl
  have hmode : pins.dc ≠ some true := by
    rw [hdc]
    decide
  rw [Slave.failedTx, if_neg hmode]
  match drawn with
  | [] => exact congrArg Except.ok (hlost (by decide)).symm
  | false :: _ => exact congrArg Except.ok (hlost (by simp)).symm
  | true :: _ => exact hreceive.trans (hgot rfl)

/-- Settles O53: the opening of the frame completes, and its byte fails. -/
theorem failedCommandByte : Obligations.FailedCommandByte := by
  intro s b drawn rest S ⟨hadm, hp, hr⟩ hs ha hgot hlost
  have hemit := emit_selected_failed (es := commandOpening) (d := false) (s := s) (drawn := drawn) (rest := rest) (by rw [ha]; rfl)
    (Slave.failedTx_command hp hr rfl rfl hgot hlost)
  have hraised := performAll_raised_at (bs := [.event (.pin .cs true)])
    (perform_commandOpening (s := s) (by rw [ha]; rfl)) hemit
  rw [exec_wcmd (wcmdBytes_byte b), runInternal_admitted _ hs hadm]
  exact congrArg (Flow.finish .unit) hraised

/-! ### A burst (R169) -/

/-- A data frame whose burst fails: chip-select stays low, the pointer is lost, and the cells are mixed (R169, log entry 6). -/
theorem burst_fails {s : State} {bs : List Byte} {cs ce ps pe j : Nat} {drawn : List Bool} {rest : List Answer}
    (hp : s.slave.phase = .ready) (hr : s.master.pins.res = some true) (hat : s.slave.BurstAt cs ce ps pe j)
    (ha : s.answers = .ok :: .ok :: .ok :: .fail drawn :: rest) :
    ∃ ram, performAll (burstFrame bs) s = .raised (.transmissionError (s.trace.length + 3) (.tx bs)) { s with
        master := { s.master with pins := ⟨some false, some true, s.master.pins.res⟩ }
        trace := s.trace ++ okEntries dataOpening ++ [⟨.tx bs, .fail⟩]
        slave := (s.slave.withRam ram).losePointer
        answers := rest } ∧
      s.slave.Mixes bs cs ce ps pe j (s.slave.withRam ram) := by
  obtain ⟨ram, hfail, hmixes⟩ := hat.failedBurst (pins := ⟨some false, some true, s.master.pins.res⟩) (bs := bs) (drawn := drawn)
    hr rfl rfl hp
  have hemit := emit_selected_failed (es := dataOpening) (d := true) (s := s) (rest := rest) (by rw [ha]; rfl) hfail
  exact ⟨ram, performAll_raised_at (bs := [.event (.pin .cs true)]) (perform_dataOpening (by rw [ha]; rfl)) hemit, hmixes⟩

/-- A data frame without its last event. -/
def burstOpening (bs : List Byte) : List Event := dataOpening ++ [.tx bs]

/-- A data frame up to its last event, each event completing. -/
theorem perform_burstOpening {s : State} {bs : List Byte} {S : Slave} (hp : s.slave.phase = .ready)
    (hr : s.master.pins.res = some true) (htake : s.slave.takeBytes (some true) bs = .ok S) (ha : s.answers.take 4 = List.replicate 4 .ok) :
    performAll ((burstOpening bs).map .event) s = .run { s.selectedBy (burstOpening bs) true with slave := S } := by
  have hreceive : s.slave.receive ⟨some false, some true, s.master.pins.res⟩ bs = .ok S :=
    (Slave.receive_eq (ps := ⟨some false, some true, s.master.pins.res⟩) bs hp hr rfl).trans htake
  have hdeliver : State.deliverAll (burstOpening bs) s =
      .ok { s.selectedBy (burstOpening bs) true with slave := S } := by
    simp [State.deliverAll, burstOpening, dataOpening, State.selectedBy, State.deliver, Slave.onPin, Except.bind, Pins.set, okEntries,
      State.record, State.popAnswer, hreceive, ← List.drop_one]
  rw [performAll_events (es := burstOpening bs) ha, hdeliver]

/-- A data frame whose last event fails: the burst was taken, and chip-select is `_|_`. -/
theorem burst_close_fails {s : State} {bs : List Byte} {S : Slave} {drawn : List Bool} {rest : List Answer}
    (hp : s.slave.phase = .ready) (hr : s.master.pins.res = some true) (htake : s.slave.takeBytes (some true) bs = .ok S)
    (ha : s.answers = .ok :: .ok :: .ok :: .ok :: .fail drawn :: rest) :
    performAll (burstFrame bs) s = .raised (.transmissionError (s.trace.length + 4) (.pin .cs true)) { s with
      master := { s.master with pins := ⟨none, some true, s.master.pins.res⟩ }
      trace := s.trace ++ okEntries (burstOpening bs) ++ [⟨.pin .cs true, .fail⟩]
      slave := S
      answers := rest } := by
  have hclose := emit_level_failed (p := .cs) (v := true) (s := { s.selectedBy (burstOpening bs) true with slave := S })
    (drawn := drawn) (rest := rest) (.inl rfl) (by rw [State.selectedBy, ha]; rfl)
  have hfail := performAll_raised_at (bs := []) (perform_burstOpening hp hr htake (by rw [ha]; rfl)) hclose
  simpa [State.selectedBy, okEntries, burstOpening, dataOpening, burstFrame, dataFrame, Pins.set] using hfail

/-! ### RENDER that fails (R169) -/

section Render

variable {s : State} {w h : Nat} {content : List Byte}

/-- The state before RENDER's burst: its window commands have completed. -/
def State.renderWindowed (w h : Nat) (s : State) : State :=
  { s with
    master := { s.master with pins := ⟨some true, some false, s.master.pins.res⟩ }
    trace := s.trace ++ okEntries ((renderBytes s.params w h).flatMap commandFrame)
    slave := s.slave.renderWindow w h
    answers := s.answers.drop 24 }

theorem perform_renderWindow (hok : GeometryOk s.params w h) (hc : s.CommandReady) (ha : s.answers.take 24 = List.replicate 24 .ok) :
    performAll (commandFrames (renderBytes s.params w h)) s = .run (s.renderWindowed w h) := by
  obtain ⟨⟨-, hp, hr⟩, hd⟩ := hc
  rw [perform_frames (bytes := renderBytes s.params w h) (List.cons_ne_nil _ _) hp hr ha, Slave.takeBytes_renderBytes hok hd]
  rfl

theorem renderWindowed_trace_length : (s.renderWindowed w h).trace.length = s.trace.length + 24 := by
  simp [State.renderWindowed, okEntries, renderBytes, commandFrame]

/-- RENDER whose burst raises: its window commands completed before (R83). -/
theorem exec_render_burst_raised {t : State} {x : Exception} (hc : s.Constructed w h) (hready : s.CommandReady)
    (hread : s.master.fb.readRange 0 (bufferSize w h) = some content) (ha : s.answers.take 24 = List.replicate 24 .ok)
    (hraised : performAll (burstFrame content) (s.renderWindowed w h) = .raised x t) :
    exec .render s = .next (t.takeException x) := by
  rw [hc.exec_render hread, renderActions, performAll_append_of_run (perform_renderWindow hc.geometryOk hready ha), hraised,
    Flow.finish_raised]

/-- A mixed RAM shows in each cell of RENDER's window the old byte or the one for its position, and leaves every other. -/
theorem Slave.Mixes.window {S : Slave} {ram : Memory} (hok : GeometryOk S.params w h) (hlen : content.length = bufferSize w h)
    (hm : S.Mixes content 0 (w - 1) 0 (h / 8 - 1) 0 (S.withRam ram)) :
    (∀ p c, p < h / 8 → c < w → (S.withRam ram).cell p c = S.cell p c ∨ (S.withRam ram).cell p c = content[c + w * p]?) ∧
    ∀ a, ¬InWindow S.params w h a → ram.read a = S.ram.read a := by
  refine ⟨fun p c hp hc => ?_, fun a ha => ?_⟩
  · refine (hm p c (hc.trans_le hok.2.1)).imp_right ?_
    rintro ⟨k, b, hk, rfl, rfl, hcell⟩
    have hlt : k < w * (h / 8) := by
      rw [← bufferSize_eq hok, ← hlen]
      exact (List.getElem?_eq_some_iff.mp hk).1
    have hpage : k / w < h / 8 := Nat.div_lt_of_lt_mul hlt
    rw [hcell, Nat.zero_add, burstCol_render hok, burstPage_render hok, Nat.mod_eq_of_lt hpage, Nat.mod_add_div, hk]
  · obtain ⟨p, c, hc, rfl⟩ := exists_ramAddr hok a
    obtain hsame | ⟨k, b, -, rfl, rfl, -⟩ := hm p c hc
    · exact hsame
    · exact absurd (inWindow_burst hok _) ha

/-- RENDER's event list up to the burst and its last event. -/
theorem renderActions_split (P : Params) (w h : Nat) (content : List Byte) :
    renderActions P w h content =
      (commandFrames (renderBytes P w h) ++ dataOpening.map .event) ++ .event (.tx content) :: [.event (.pin .cs true)] := by
  rw [renderActions, List.append_assoc]
  rfl

/-- RENDER up to its burst leaves the RAM, however it ends. -/
theorem renderOpening_ram (P : Params) (w h : Nat) (s : State) :
    (performAll (commandFrames (renderBytes P w h) ++ dataOpening.map .event) s).Holds (fun t => t.slave.ram = s.slave.ram) := by
  rw [performAll_append]
  refine (commandFrames_ram _ s).andThen fun t ht => performAll_holds (fun a ha u hu => ?_) ht
  simp only [dataOpening, List.map_cons, List.map_nil, List.mem_cons, List.not_mem_nil, or_false] at ha
  have hselect : ∀ {p v}, p = .cs ∨ p = .dc → (perform (.event (.pin p v)) u).Holds (fun t => t.slave.ram = s.slave.ram) :=
    fun hp => (emit_select_slave hp _ u).mono fun v hv => (congrArg Slave.ram hv).trans hu
  obtain rfl | rfl | rfl := ha
  · exact hselect (.inl rfl)
  · exact hselect (.inr rfl)
  · exact hselect (.inl rfl)

/-- Where RENDER's burst begins in the trace. -/
theorem renderOpening_run_trace {P : Params} {t : State}
    (h : performAll (commandFrames (renderBytes P w h) ++ dataOpening.map .event) s = .run t) :
    t.trace.length = s.trace.length + 27 := by
  obtain ⟨-, es, hes, htrace⟩ := performAll_run h
  have hlen := hes.length_eq
  simp [commandFrames, renderBytes, commandFrame, dataOpening] at hlen
  simp [htrace, okEntries, ← hlen]

end Render

/-- Settles O54: RENDER whose burst, an earlier event, or the last event fails, and a burst of WBUF or DATA that fails. -/
theorem failedBurstMixesFrame : Obligations.FailedBurstMixesFrame := by
  refine ⟨fun s w h drawn rest hc hready hm ha => ?burst, fun s t w h pos e hc he hout hpos => ?earlier,
    fun s w h drawn rest hc hready hm ha => ?last, fun s bs cs ce ps pe j drawn rest hl hs hne hat ha => ?direct⟩
  case burst =>
    obtain ⟨content, hread, hlen, hbytes⟩ := hc.content
    have hok := hc.geometryOk
    obtain ⟨⟨-, hp, hr⟩, hd⟩ := id hready
    obtain ⟨ram, hfail, hmixes⟩ := burst_fails (s := s.renderWindowed w h) (bs := content) (drawn := drawn) (rest := rest) hp hr
      (Slave.renderWindow_burstAt hok hd hm) (by rw [State.renderWindowed, ha]; rfl)
    obtain ⟨hcells, houtside⟩ := hmixes.window hok hlen
    rw [renderWindowed_trace_length] at hfail
    have hexec := exec_render_burst_raised hc hready hread (by rw [ha]; rfl) hfail
    refine ⟨_, content, hexec, by rw [State.fbBytes, hread], rfl, fun p c hp hc => ?_, houtside, rfl, rfl⟩
    exact (hcells p c hp hc).imp_right fun hnew => hnew.trans (hbytes _ (index_lt_bufferSize hok hp hc))
  case earlier =>
    obtain ⟨content, hread, -⟩ := hc.content
    have hram := renderOpening_ram s.params w h s
    rw [hc.exec_render hread, renderActions_split, performAll_append] at he
    cases hopen : performAll (commandFrames (renderBytes s.params w h) ++ dataOpening.map .event) s with
    | run u =>
      rw [hopen, Flow.andThen_run] at he
      obtain ⟨v, -, rfl⟩ | ⟨x, v, hv, rfl⟩ | ⟨v, -, rfl⟩ := Flow.finish_next he
      · cases hout
      · obtain ⟨-, es, e', rfl, -⟩ := performAll_raised_trace hv
        cases hout
        rw [List.length_append, renderOpening_run_trace hopen] at hpos
        omega
      · cases hout
    | raised x u | hung u =>
      rw [hopen] at he hram
      cases he
      exact hram
    | stop x =>
      rw [hopen] at he
      cases x <;> cases he
  case last =>
    obtain ⟨content, hread, hlen, hbytes⟩ := hc.content
    have hok := hc.geometryOk
    obtain ⟨⟨-, hp, hr⟩, hd⟩ := id hready
    have hburst := Slave.renderWindow_burstAt hok hd hm
    obtain ⟨ram, htake, hmirrors⟩ := hburst.takeBytes (bs := content)
    obtain ⟨hcells, houtside⟩ := hmirrors.showsContent hok hlen
    rw [Nat.zero_add, hlen, Slave.pointAt_renderWindow hok] at htake
    have hfail := burst_close_fails (s := s.renderWindowed w h) (drawn := drawn) (rest := rest) hp hr htake
      (by rw [State.renderWindowed, ha]; rfl)
    rw [renderWindowed_trace_length] at hfail
    have hexec := exec_render_burst_raised hc hready hread (by rw [ha]; rfl) hfail
    refine ⟨_, hexec, rfl, fun p c hp hc => ?_, houtside, rfl⟩
    exact (hcells p c hp hc).trans (hbytes _ (index_lt_bufferSize hok hp hc))
  case direct =>
    obtain ⟨hadm, hp, hr⟩ := hl
    obtain ⟨ram, hfail, hmixes⟩ := burst_fails (bs := bs) hp hr hat ha
    have hrun := runInternal_admitted (burstFrame bs) hs hadm
    rw [hfail, Flow.finish_raised] at hrun
    refine ⟨_, (exec_wbuf hne s).trans hrun, ?_, rfl, hmixes⟩
    rintro b rfl
    exact hrun

end Sys2Proof.Machine
end
